-- ==== Sys2Proof/Word.lean ====
section
/-! DEFINITION. The words of IRCODEC: the widths that the spec fixes (R8). Values are unsigned; rules compute in
unbounded integers (R10) and a value enters a field of fixed width only where a rule stores it. -/

namespace Sys2Proof

/-- A byte of the command buffer (R45). -/
abbrev Byte := BitVec 8

/-- A host-bus word, a command word, a capture entry (R60, R80, R47). -/
abbrev Word := BitVec 32

/-- A duration in microseconds: 31 bits (R8, R29). -/
abbrev Dur := BitVec 31

/-- A byte offset into the 64 KiB block window (R62). -/
abbrev Offset := BitVec 16

end Sys2Proof
end

