-- ==== Sys2Proof/Syntax.lean ====
section
/-! DEFINITION. The commands of IRCODEC: one constructor per row of spec/opcode_table.json (R84). -/

namespace Sys2Proof

/-- A decoded command. Every operand has exactly the width of its field in the command word (R81), so each term is a
command that some word encodes. Operands are unsigned, neither scaled nor biased (R82). A value that fits its field and
that the command cannot use (a width of 0, a length above 256) is a command all the same: it ends with ERR_ARG when it
executes (R83). -/
inductive Instr where
  /-- NOP (R105), format N. -/
  | nop
  /-- GETBITS BYTE, OFS, WID (R122), format B. -/
  | getbits (byte : BitVec 8) (ofs : BitVec 3) (wid : BitVec 4)
  /-- SETBITS BYTE, OFS, WID, VAL (R123), format B. -/
  | setbits (byte : BitVec 8) (ofs : BitVec 3) (wid : BitVec 4) (val : BitVec 8)
  /-- CALCCHK LEN (R137), format L. -/
  | calcchk (len : BitVec 9)
  /-- VALIDCHK LEN (R139), format L. -/
  | validchk (len : BitVec 9)
  /-- INVPAIRS LEN (R141), format L. -/
  | invpairs (len : BitVec 9)
  /-- FINALIZE LEN (R143), format L. -/
  | finalize (len : BitVec 9)
  /-- ENCODE NBITS, REPEAT (R165), format E. -/
  | encode (nbits : BitVec 12) (rep : BitVec 8)
  /-- DECODE NBITS, OFFSET, STRICT (R190), format D. -/
  | decode (nbits : BitVec 12) (offset : BitVec 12) (strict : Bool)
  deriving DecidableEq, Repr

end Sys2Proof
end

