-- ==== Sys2Proof/WellFormed.lean ====
section
/-! DEFINITION. Well-formedness. A term of `Instr` needs no check: its operand types are the widths of the fields. What can
be ill-formed is a LINE of the spec's assembler syntax (R89), whose operands are numbers: an operand that does not fit
its field is refused. The eight pseudo-instructions of R90 are lines too. -/

namespace Sys2Proof

/-- One line of assembler source: the nine commands (R89) and the eight pseudo-instructions (R90), with numeric
operands. -/
inductive Line where
  | nop
  | getbits (byte ofs wid : Nat)
  | setbits (byte ofs wid val : Nat)
  | calcchk (len : Nat)
  | validchk (len : Nat)
  | invpairs (len : Nat)
  | finalize (len : Nat)
  | encode (nbits rep : Nat)
  | decode (nbits offset : Nat) (strict : Bool)
  | getbit (byte ofs : Nat)
  | setbit (byte ofs : Nat)
  | clrbit (byte ofs : Nat)
  | clrbits (byte ofs wid : Nat)
  | getbyte (byte : Nat)
  | putbyte (byte val : Nat)
  | send (nbits : Nat)
  | decodes (nbits offset : Nat)
  deriving DecidableEq, Repr

/-- R90: a pseudo-instruction is another spelling of a line that names a command. -/
def Line.expand : Line → Line
  | .getbit b o => .getbits b o 1
  | .setbit b o => .setbits b o 1 1
  | .clrbit b o => .setbits b o 1 0
  | .clrbits b o w => .setbits b o w 0
  | .getbyte b => .getbits b 0 8
  | .putbyte b v => .setbits b 0 8 v
  | .send n => .encode n 0
  | .decodes n o => .decode n o true
  | .nop => .nop
  | .getbits b o w => .getbits b o w
  | .setbits b o w v => .setbits b o w v
  | .calcchk l => .calcchk l
  | .validchk l => .validchk l
  | .invpairs l => .invpairs l
  | .finalize l => .finalize l
  | .encode n r => .encode n r
  | .decode n o s => .decode n o s

/-- R89: "An assembler refuses an operand that does not fit its field (byte > 255, ofs > 7, wid > 15, val > 255,
len > 511, nbits > 4095, repeat > 255, offset > 4095)." A value that fits and is outside the legal range is not
refused. -/
def Line.wellFormed : Line → Bool
  | .nop => true
  | .getbits b o w => decide (b ≤ 255 ∧ o ≤ 7 ∧ w ≤ 15)
  | .setbits b o w v => decide (b ≤ 255 ∧ o ≤ 7 ∧ w ≤ 15 ∧ v ≤ 255)
  | .calcchk l => decide (l ≤ 511)
  | .validchk l => decide (l ≤ 511)
  | .invpairs l => decide (l ≤ 511)
  | .finalize l => decide (l ≤ 511)
  | .encode n r => decide (n ≤ 4095 ∧ r ≤ 255)
  | .decode n o _ => decide (n ≤ 4095 ∧ o ≤ 4095)
  | .getbit b o => decide (b ≤ 255 ∧ o ≤ 7)
  | .setbit b o => decide (b ≤ 255 ∧ o ≤ 7)
  | .clrbit b o => decide (b ≤ 255 ∧ o ≤ 7)
  | .clrbits b o w => decide (b ≤ 255 ∧ o ≤ 7 ∧ w ≤ 15)
  | .getbyte b => decide (b ≤ 255)
  | .putbyte b v => decide (b ≤ 255 ∧ v ≤ 255)
  | .send n => decide (n ≤ 4095)
  | .decodes n o => decide (n ≤ 4095 ∧ o ≤ 4095)

end Sys2Proof
end

