-- ==== Sys2Proof/Decode.lean ====
section
/-! DEFINITION. Command words: the decoder of R86, total on all 2^32 words, and after it the encoder and the assembler of
R81 and R89, written from the format tables. -/

namespace Sys2Proof

/-- Why a word is ILLEGAL (R87). -/
inductive Illegal where
  /-- OP is 0x9 to 0xF, reserved for future commands. -/
  | reservedOpcode
  /-- A bit that its format marks rz is set (R88). -/
  | nonzeroReserved
  deriving DecidableEq, Repr

/-- The command of a format whose rz bits are all zero, or ILLEGAL (R86, R88). -/
def ifZero {n : Nat} (rz : BitVec n) (i : Instr) : Except Illegal Instr :=
  if rz = 0 then .ok i else .error .nonzeroReserved

/-- R86: the decoder. Bits [3:0] are the opcode. -/
def decode (w : Word) : Except Illegal Instr :=
  match w.extractLsb 3 0 with
  | 0x0#4 => ifZero (w.extractLsb 31 4) .nop
  | 0x1#4 => ifZero (w.extractLsb 31 19) (.getbits (w.extractLsb 11 4) (w.extractLsb 14 12) (w.extractLsb 18 15))
  | 0x2#4 => ifZero (w.extractLsb 31 27)
      (.setbits (w.extractLsb 11 4) (w.extractLsb 14 12) (w.extractLsb 18 15) (w.extractLsb 26 19))
  | 0x3#4 => ifZero (w.extractLsb 31 13) (.calcchk (w.extractLsb 12 4))
  | 0x4#4 => ifZero (w.extractLsb 31 13) (.validchk (w.extractLsb 12 4))
  | 0x5#4 => ifZero (w.extractLsb 31 13) (.invpairs (w.extractLsb 12 4))
  | 0x6#4 => ifZero (w.extractLsb 31 13) (.finalize (w.extractLsb 12 4))
  | 0x7#4 => ifZero (w.extractLsb 31 24) (.encode (w.extractLsb 15 4) (w.extractLsb 23 16))
  | 0x8#4 => ifZero (w.extractLsb 31 29) (.decode (w.extractLsb 15 4) (w.extractLsb 27 16) (w.getLsbD 28))
  | _ => .error .reservedOpcode

/-- R81: the word of a command, most significant field first; the rz fields are zero (R88). -/
def encode : Instr → Word
  | .nop => 0#28 ++ 0x0#4
  | .getbits byte ofs wid => 0#13 ++ wid ++ ofs ++ byte ++ 0x1#4
  | .setbits byte ofs wid val => 0#5 ++ val ++ wid ++ ofs ++ byte ++ 0x2#4
  | .calcchk len => 0#19 ++ len ++ 0x3#4
  | .validchk len => 0#19 ++ len ++ 0x4#4
  | .invpairs len => 0#19 ++ len ++ 0x5#4
  | .finalize len => 0#19 ++ len ++ 0x6#4
  | .encode nbits rep => 0#8 ++ rep ++ nbits ++ 0x7#4
  | .decode nbits offset strict => 0#3 ++ BitVec.ofBool strict ++ offset ++ nbits ++ 0x8#4

/-- The command that a line names, its operands cut to their fields. -/
def Line.command : Line → Instr
  | .nop => .nop
  | .getbits b o w => .getbits (.ofNat 8 b) (.ofNat 3 o) (.ofNat 4 w)
  | .setbits b o w v => .setbits (.ofNat 8 b) (.ofNat 3 o) (.ofNat 4 w) (.ofNat 8 v)
  | .calcchk l => .calcchk (.ofNat 9 l)
  | .validchk l => .validchk (.ofNat 9 l)
  | .invpairs l => .invpairs (.ofNat 9 l)
  | .finalize l => .finalize (.ofNat 9 l)
  | .encode n r => .encode (.ofNat 12 n) (.ofNat 8 r)
  | .decode n o s => .decode (.ofNat 12 n) (.ofNat 12 o) s
  | .getbit b o => .getbits (.ofNat 8 b) (.ofNat 3 o) 1
  | .setbit b o => .setbits (.ofNat 8 b) (.ofNat 3 o) 1 1
  | .clrbit b o => .setbits (.ofNat 8 b) (.ofNat 3 o) 1 0
  | .clrbits b o w => .setbits (.ofNat 8 b) (.ofNat 3 o) (.ofNat 4 w) 0
  | .getbyte b => .getbits (.ofNat 8 b) 0 8
  | .putbyte b v => .setbits (.ofNat 8 b) 0 8 (.ofNat 8 v)
  | .send n => .encode (.ofNat 12 n) 0
  | .decodes n o => .decode (.ofNat 12 n) (.ofNat 12 o) true

/-- R89: the assembler refuses an ill-formed line and gives the word of any other. -/
def assemble (l : Line) : Option Word :=
  if l.wellFormed then some (encode l.command) else none

/-- The command the decoder reads from an instruction of `nbits` bits whose value is `w`, every bit above `nbits` being 0;
none for an ILLEGAL word, or for a number that no word of `nbits` bits holds. A command is one 32-bit word, which
reaches the block as one bus word (R80), so no byte order enters. -/
def decodeTableWord (nbits w : Nat) : Option Instr :=
  if nbits ≤ 32 ∧ w < 2 ^ nbits then (decode (BitVec.ofNat 32 w)).toOption else none

end Sys2Proof
end

