-- ==== Sys2Proof/Config.lean ====
section
/-! DEFINITION. What the spec leaves to the platform or leaves open: each is a constant with no body, so nothing can
evaluate it and a theorem holds whatever it is. -/

namespace Sys2Proof

/-- The four agents that take atomic steps (R6): the bus master, the command engine, the transmit primitive and the
capture primitive. -/
inductive Agent where
  | host
  | engine
  | txp
  | capp
  deriving DecidableEq, Repr, Inhabited

/-- FREE VALUE. What byte `BUF[i]` holds after power-on, before anything writes it: "an arbitrary value the model
draws" (R46, R240). Assumption log 1. -/
opaque Config.bufDraw : Nat → Byte

/-- FREE VALUE. What entry `CAP[i]` holds after power-on, before anything writes it: "a draw per entry" (R48, R240).
Assumption log 1. -/
opaque Config.capDraw : Nat → Word

/-- FREE VALUE. The agent that moves at the `n`-th step whose agent the state's own schedule does not name: "the
schedule between them is free" (R6, R73). Assumption log 2. -/
opaque Config.pick : Nat → Agent

/-- PARAMETER. The base address of the block window in the host's address space, which the source does not fix
(R62, D4). Assumption log 9. -/
opaque Config.ircodecBase : Nat

end Sys2Proof
end

