-- ==== Sys2Proof/Machine/State.lean ====
section
/-! DEFINITION. The state of IRCODEC as plain data: the record of R51, and beside it what stands outside the block and decides
what happens next (the launch and the schedule of R254). -/

namespace Sys2Proof.Machine

/-- The level of a pulse or a capture entry: MARK is carrier on, SPACE is carrier off (R12). -/
inductive Level where
  | mark
  | space
  deriving DecidableEq, Repr

/-- One pulse: a level and a duration in microseconds (R51). A duration of 2^31 or more cannot be written (R71). -/
structure Pulse where
  level : Level
  dur : Dur
  deriving DecidableEq, Repr

/-- A transaction: what ENCODE hands to the transmit primitive (R51, R166). -/
structure Txn where
  carrier : BitVec 24
  pulses : List Pulse
  deriving DecidableEq, Repr

/-- The engine phase (R41). -/
inductive Phase where
  | idle
  | pending
  | txwait
  deriving DecidableEq, Repr

/-- The error codes of R210 by name; `none` is success. Only these are ever produced. -/
inductive Err where
  | none
  | illegal
  | arg
  | profile
  | short
  | bitcount
  | trunc
  | level
  | hdrmark
  | hdrspace
  | bitmark
  | bitspace
  | ftrmark
  | gap
  | checksum
  deriving DecidableEq, Repr

/-- The register fields that the host can write and read back (R25, R29 to R38, R51). Reserved bits are not stored: they read 0
and ignore writes (R24). -/
structure Regs where
  /-- CTRL.GAPEND (R25). -/
  gapend : Bool
  /-- CTRL.IE_DONE (R25). -/
  ieDone : Bool
  /-- CTRL.IE_CAP (R25). -/
  ieCap : Bool
  /-- HDRMARK (R29). -/
  hdrmark : Dur
  /-- HDRSPACE (R29). -/
  hdrspace : Dur
  /-- ONEMARK (R29). -/
  onemark : Dur
  /-- ONESPACE (R29). -/
  onespace : Dur
  /-- ZEROMARK (R29). -/
  zeromark : Dur
  /-- ZEROSPACE (R29). -/
  zerospace : Dur
  /-- FTRMARK (R29). -/
  ftrmark : Dur
  /-- GAP (R29, R30). -/
  gap : Dur
  /-- DEFGAP (R29, R30). -/
  defgap : Dur
  /-- CARRIER (R31). -/
  carrier : BitVec 24
  /-- FRAMING.MARKFIRST (R32). -/
  markfirst : Bool
  /-- TOL (R33). -/
  tol : BitVec 8
  /-- MINLEN (R34). -/
  minlen : BitVec 8
  /-- LENCFG.LENIDX (R35). -/
  lenidx : BitVec 8
  /-- LENCFG.LENOFS (R35). -/
  lenofs : BitVec 8
  /-- LENCFG.LENEN (R35). -/
  lenen : Bool
  /-- PAIRLEN (R36). -/
  pairlen : BitVec 8
  /-- SBC0 (R37). -/
  sbc0 : BitVec 12
  /-- SBC1 (R37). -/
  sbc1 : BitVec 12
  /-- SBC2 (R37). -/
  sbc2 : BitVec 12
  /-- CAPLEN, 0 to 4096 (R38, R51). -/
  caplen : Fin 4097
  deriving DecidableEq, Repr

/-- One operation of the host program (R91, R254, R256). Every access moves one word; the offset is a byte offset into
the window, whose alignment the step checks (R61). -/
inductive HostOp where
  /-- `WR off, v`: MemWrite. -/
  | write (off : Offset) (v : Word)
  /-- `RD off`: MemRead. -/
  | read (off : Offset)
  /-- Read STATUS repeatedly until `STATUS & mask = want`. `WAIT` is `poll 1 0` (R91); waiting for DONE or CAPRDY is the
  same loop on another bit (R244, R246). -/
  | poll (mask want : Word)
  /-- Wait until the IRQ line is asserted (R246, R256). -/
  | waitIrq
  deriving DecidableEq, Repr

/-- What stands outside the block. The MODEL'S OWN fields, not the block's: the launch and the schedule of R254, and
what the host has read. Nothing in the block reads them. -/
structure Env where
  /-- The host operations not yet performed, next first. -/
  program : List HostOp
  /-- Observation only: each word that the host has read over the bus with its offset, in order. -/
  readlog : List (Offset × Word)
  /-- The captures that the capture primitive has not yet delivered, next first (R71, R254). -/
  offers : List (List Pulse)
  /-- The agents of the coming steps, next first; where it ends, `Config.pick` goes on. -/
  schedule : List Agent
  /-- How many agents `Config.pick` has chosen so far. -/
  tick : Nat
  deriving DecidableEq, Repr

/-- The machine. The names are those of R51. -/
structure State where
  /-- The host-writable registers. -/
  regs : Regs
  /-- STATUS.DONE (R26). -/
  done : Bool
  /-- STATUS.OK (R26). -/
  ok : Bool
  /-- STATUS.OVR (R26, R212). -/
  ovr : Bool
  /-- STATUS.CAPRDY (R26). -/
  caprdy : Bool
  /-- STATUS.ERR (R26, R210). -/
  err : BitVec 8
  /-- RESULT (R28). -/
  result : Word
  /-- BUF, the command buffer RAM: the bytes written so far, by index, indices strictly rising (R45). -/
  buf : List Host.Cell
  /-- CAP, the capture RAM: the entries written so far, by index, indices strictly rising (R47). -/
  cap : List (Nat × Word)
  /-- PHASE (R41). STATUS.BUSY is not stored: it is `phase ≠ idle`. -/
  phase : Phase
  /-- PEND, the accepted command word (R40). -/
  pend : Word
  /-- TXSLOT, the transaction in transmission, if any (R42). -/
  txslot : Option Txn
  /-- TXRESULT, the RESULT value of the ENCODE in TXWAIT (R43). -/
  txresult : Word
  /-- Observation only: every transaction handed to the transmit primitive, in order (R51). -/
  txlog : List Txn
  /-- The host, the capture primitive and the schedule. -/
  env : Env
  deriving DecidableEq, Repr

/-- Why the machine stops with a fault: NEVER. "The bus never signals an error, and no access traps" (R63), every command is
defined on every state (R243), and IRCODEC has no trap (R217). The type has no constructor, so no step can answer a
fault. Safe. -/
inductive Fault where
  deriving DecidableEq, Repr

/-- Why a step is refused. -/
inductive Refusal where
  /-- Raised by an arm of `exec` that has no meaning yet. No arm is left so. Safe. -/
  | notModelled (mnemonic : String)
  /-- Raised by the host's step whose next operation is an access at a byte offset that is not a multiple of 4: "A model whose host
  issues byte offsets treats a[1:0] ≠ 0 as a refusal (the access has no meaning)" (R61). Safe: the spec gives the host no
  such move (R256). -/
  | misalignedAccess (off : Offset)
  deriving DecidableEq, Repr

/-- The power-on values of the registers (R52, R240): GAPEND and MARKFIRST are 1, every other field is 0. -/
def Regs.reset : Regs where
  gapend := true
  ieDone := false
  ieCap := false
  hdrmark := 0
  hdrspace := 0
  onemark := 0
  onespace := 0
  zeromark := 0
  zerospace := 0
  ftrmark := 0
  gap := 0
  defgap := 0
  carrier := 0
  markfirst := true
  tol := 0
  minlen := 0
  lenidx := 0
  lenofs := 0
  lenen := false
  pairlen := 0
  sbc0 := 0
  sbc1 := 0
  sbc2 := 0
  caplen := 0

/-- Nothing outside the block yet: no host program, no capture offered, no agent named. DESIGN CHOICE: assumption log 3. -/
def Env.reset : Env where
  program := []
  readlog := []
  offers := []
  schedule := []
  tick := 0

/-- The machine right after power-on reset (R52, R240). BUF and CAP list nothing: each unlisted place reads as its draw. -/
def State.reset : State where
  regs := Regs.reset
  done := false
  ok := false
  ovr := false
  caprdy := false
  err := 0
  result := 0
  buf := []
  cap := []
  phase := .idle
  pend := 0
  txslot := none
  txresult := 0
  txlog := []
  env := Env.reset

end Sys2Proof.Machine
end

