-- ==== Sys2Proof/Machine/Flags.lean ====
section
/-! DEFINITION. The flags: the error codes of R210, the word that STATUS reads as (R26), and the IRQ line (R50). -/

namespace Sys2Proof.Machine

/-- R210: the numeric code of each error. -/
def Err.code : Err → BitVec 8
  | .none => 0x00
  | .illegal => 0x01
  | .arg => 0x02
  | .profile => 0x03
  | .short => 0x04
  | .bitcount => 0x10
  | .trunc => 0x11
  | .level => 0x12
  | .hdrmark => 0x13
  | .hdrspace => 0x14
  | .bitmark => 0x15
  | .bitspace => 0x16
  | .ftrmark => 0x17
  | .gap => 0x18
  | .checksum => 0x19

/-- STATUS.BUSY = (PHASE ≠ IDLE) at all times (R41). -/
def State.busy (s : State) : Bool :=
  decide (s.phase ≠ .idle)

/-- R26: STATUS as the host reads it. Bits [31:16] and [7:5] are reserved and read 0. -/
def State.status (s : State) : Word :=
  0#16 ++ s.err ++ 0#3 ++ BitVec.ofBool s.caprdy ++ BitVec.ofBool s.ovr ++ BitVec.ofBool s.ok
    ++ BitVec.ofBool s.done ++ BitVec.ofBool s.busy

/-- R50, R215: the IRQ line, a level computed from the state. -/
def State.irq (s : State) : Bool :=
  (s.done && s.regs.ieDone) || (s.caprdy && s.regs.ieCap)

end Sys2Proof.Machine
end

