-- ==== Sys2Proof/Machine/Ops.lean ====
section
/-! DEFINITION. The named operations over the RAMs and the registers, and the shared events of the block: completion, acceptance,
hand-off, soft reset, capture delivery. There is no exception to take and none to return from (R217, R218): the one shared way
a command ends, in error or not, is `complete`. -/

namespace Sys2Proof.Machine

/-- What a RAM holds at index `a`: nothing where nothing has been written. -/
def Ram.lookup {w : Nat} : List (Nat × BitVec w) → Nat → Option (BitVec w)
  | [], _ => none
  | (k, x) :: rest, a => if k = a then some x else Ram.lookup rest a

/-- Write one place of a RAM, keeping the indices strictly rising. -/
def Ram.store {w : Nat} : List (Nat × BitVec w) → Nat → BitVec w → List (Nat × BitVec w)
  | [], a, v => [(a, v)]
  | (k, x) :: rest, a, v =>
    if a < k then (a, v) :: (k, x) :: rest
    else if a = k then (a, v) :: rest
    else (k, x) :: Ram.store rest a v

/-- Write a run of values to consecutive places, the first at `a`. -/
def Ram.storeAll {w : Nat} : List (Nat × BitVec w) → Nat → List (BitVec w) → List (Nat × BitVec w)
  | m, _, [] => m
  | m, a, v :: vs => Ram.storeAll (Ram.store m a v) (a + 1) vs

/-- The canonical form from index `lo` on: indices at least `lo`, below `n`, strictly rising. -/
def Ram.risingFrom {w : Nat} (n : Nat) : Nat → List (Nat × BitVec w) → Bool
  | _, [] => true
  | lo, (k, _) :: rest => decide (lo ≤ k) && decide (k < n) && Ram.risingFrom n (k + 1) rest

/-- The canonical form of a RAM of `n` places: indices below `n`, strictly rising. An unlisted place reads as no value, so
no entry can equal it (assumption log 1). -/
def Ram.wf {w : Nat} (n : Nat) (m : List (Nat × BitVec w)) : Bool :=
  Ram.risingFrom n 0 m

/-- `BUF[i]` (R11): the byte last written, or its power-on draw where nothing has been written (R46). -/
def bufRead (s : State) (i : Nat) : Byte :=
  (Ram.lookup s.buf i).getD (Config.bufDraw i)

/-- `BUF[i] <- v` (R11). -/
def bufWrite (s : State) (i : Nat) (v : Byte) : State :=
  { s with buf := Ram.store s.buf i v }

/-- Write consecutive bytes of BUF from index `i` on. -/
def bufWriteAll (s : State) (i : Nat) (vs : List Byte) : State :=
  { s with buf := Ram.storeAll s.buf i vs }

/-- `CAP[i]` (R11): the entry last written, or its power-on draw where nothing has been written (R48). -/
def capRead (s : State) (i : Nat) : Word :=
  (Ram.lookup s.cap i).getD (Config.capDraw i)

/-- `CAP[i] <- v` (R65). -/
def capWrite (s : State) (i : Nat) (v : Word) : State :=
  { s with cap := Ram.store s.cap i v }

/-- `complete(err, result)` (R103): how a command ends. RESULT is 0 on an error. -/
def complete (e : Err) (result : Word) (s : State) : State :=
  { s with
    err := e.code
    ok := decide (e = .none)
    result := if e = .none then result else 0
    done := true
    phase := .idle }

/-- CMD accepts a word while IDLE (R100). -/
def accept (w : Word) (s : State) : State :=
  { s with pend := w, phase := .pending, done := false }

/-- Hand a transaction to the TX port (R166). -/
def handoff (t : Txn) (s : State) : State :=
  { s with
    txslot := some t
    txlog := s.txlog ++ [t]
    txresult := BitVec.ofNat 32 t.pulses.length
    phase := .txwait }

/-- Soft reset (R242): every register at its reset value, PEND and TXRESULT 0; BUF, CAP and the observation `txlog` are kept. -/
def softReset (s : State) : State :=
  { s with
    regs := Regs.reset
    done := false
    ok := false
    ovr := false
    caprdy := false
    err := 0
    result := 0
    pend := 0
    txresult := 0 }

/-- The capture RAM entry of a captured pulse (R47, R71): LEVEL in bit 31, MARK = 1, and DUR in [30:0]. -/
def Pulse.entry (p : Pulse) : Word :=
  BitVec.ofBool (decide (p.level = .mark)) ++ p.dur

/-- Capture delivery (R71): the first 4096 entries are stored, later ones are lost, CAPLEN counts what was stored, and
CAPRDY is set. -/
def deliver (entries : List Pulse) (s : State) : State :=
  { s with
    cap := Ram.storeAll s.cap 0 ((entries.take 4096).map Pulse.entry)
    regs := { s.regs with caplen := ⟨min entries.length 4096, by omega⟩ }
    caprdy := true }

end Sys2Proof.Machine
end

