-- ==== Sys2Proof/Machine/Bus.lean ====
section
/-! DEFINITION. The host bus: the register map of R23, the field rules of R24 to R39, and the BUF and CAP windows of R64 and R65.
Offsets here are aligned; the host's step refuses any other (R61). -/

namespace Sys2Proof.Machine

/-- The registers of R23. -/
inductive Reg where
  | ctrl | status | cmd | result | hdrmark | hdrspace | onemark | onespace | zeromark | zerospace | ftrmark | gap | defgap
  | carrier | framing | tol | minlen | lencfg | pairlen | sbc0 | sbc1 | sbc2 | caplen
  deriving DecidableEq, Repr

/-- What an offset addresses (R23). -/
inductive Target where
  | reg (r : Reg)
  /-- Word `k` of the BUF window. -/
  | buf (k : Nat)
  /-- Entry `k` of the CAP window. -/
  | cap (k : Nat)
  | reserved
  deriving DecidableEq, Repr

/-- R23: the register at a byte offset, if any. -/
def regAt : Nat → Option Reg
  | 0x0000 => some .ctrl
  | 0x0004 => some .status
  | 0x0008 => some .cmd
  | 0x000C => some .result
  | 0x0010 => some .hdrmark
  | 0x0014 => some .hdrspace
  | 0x0018 => some .onemark
  | 0x001C => some .onespace
  | 0x0020 => some .zeromark
  | 0x0024 => some .zerospace
  | 0x0028 => some .ftrmark
  | 0x002C => some .gap
  | 0x0030 => some .defgap
  | 0x0034 => some .carrier
  | 0x0038 => some .framing
  | 0x003C => some .tol
  | 0x0040 => some .minlen
  | 0x0044 => some .lencfg
  | 0x0048 => some .pairlen
  | 0x004C => some .sbc0
  | 0x0050 => some .sbc1
  | 0x0054 => some .sbc2
  | 0x0058 => some .caplen
  | _ => none

/-- R23: the map of the window. -/
def target (off : Offset) : Target :=
  if 0x0100 ≤ off.toNat ∧ off.toNat < 0x0200 then .buf ((off.toNat - 0x0100) / 4)
  else if 0x4000 ≤ off.toNat ∧ off.toNat < 0x8000 then .cap ((off.toNat - 0x4000) / 4)
  else
    match regAt off.toNat with
    | some r => .reg r
    | none => .reserved

/-- What a register reads as (R24 to R38): reserved and write-only bits read 0. -/
def readReg (s : State) : Reg → Word
  | .ctrl => 0#28 ++ BitVec.ofBool s.regs.ieCap ++ BitVec.ofBool s.regs.ieDone ++ BitVec.ofBool s.regs.gapend ++ 0#1
  | .status => s.status
  | .cmd => 0
  | .result => s.result
  | .hdrmark => s.regs.hdrmark.setWidth 32
  | .hdrspace => s.regs.hdrspace.setWidth 32
  | .onemark => s.regs.onemark.setWidth 32
  | .onespace => s.regs.onespace.setWidth 32
  | .zeromark => s.regs.zeromark.setWidth 32
  | .zerospace => s.regs.zerospace.setWidth 32
  | .ftrmark => s.regs.ftrmark.setWidth 32
  | .gap => s.regs.gap.setWidth 32
  | .defgap => s.regs.defgap.setWidth 32
  | .carrier => s.regs.carrier.setWidth 32
  | .framing => 0#31 ++ BitVec.ofBool s.regs.markfirst
  | .tol => s.regs.tol.setWidth 32
  | .minlen => s.regs.minlen.setWidth 32
  | .lencfg => 0#15 ++ BitVec.ofBool s.regs.lenen ++ s.regs.lenofs ++ s.regs.lenidx
  | .pairlen => s.regs.pairlen.setWidth 32
  | .sbc0 => s.regs.sbc0.setWidth 32
  | .sbc1 => s.regs.sbc1.setWidth 32
  | .sbc2 => s.regs.sbc2.setWidth 32
  | .caplen => BitVec.ofNat 32 s.regs.caplen.val

/-- R64: the word at 0x0100 + 4k, little-endian. -/
def readBufWord (s : State) (k : Nat) : Word :=
  bufRead s (4 * k + 3) ++ bufRead s (4 * k + 2) ++ bufRead s (4 * k + 1) ++ bufRead s (4 * k)

/-- MemRead(off, 4) (R60): the word that the host reads. Nothing changes (R68). -/
def busRead (s : State) (off : Offset) : Word :=
  match target off with
  | .reg r => readReg s r
  | .buf k => readBufWord s k
  | .cap k => capRead s k
  | .reserved => 0

/-- A write to CTRL (R25): with SRST = 1 a soft reset that discards the other bits, else the three RW bits. -/
def writeCtrl (s : State) (v : Word) : State :=
  if v.getLsbD 0 then softReset s
  else { s with regs := { s.regs with gapend := v.getLsbD 1, ieDone := v.getLsbD 2, ieCap := v.getLsbD 3 } }

/-- A write to STATUS (R26): DONE, OVR and CAPRDY are cleared by a 1; every other bit is read-only. -/
def writeStatus (s : State) (v : Word) : State :=
  { s with
    done := s.done && !v.getLsbD 1
    ovr := s.ovr && !v.getLsbD 3
    caprdy := s.caprdy && !v.getLsbD 4 }

/-- R39: CAPLEN stores min(v, 4096) of the bits [12:0] written. -/
def clampCaplen (v : Word) : Fin 4097 :=
  ⟨min (v.extractLsb 12 0).toNat 4096, by omega⟩

/-- A write to a register while the block is idle (R24 to R39): the field's bits are stored, the others are ignored. -/
def writeReg (s : State) (v : Word) : Reg → State
  | .ctrl => writeCtrl s v
  | .status => writeStatus s v
  | .cmd => accept v s
  | .result => s
  | .hdrmark => { s with regs := { s.regs with hdrmark := v.extractLsb 30 0 } }
  | .hdrspace => { s with regs := { s.regs with hdrspace := v.extractLsb 30 0 } }
  | .onemark => { s with regs := { s.regs with onemark := v.extractLsb 30 0 } }
  | .onespace => { s with regs := { s.regs with onespace := v.extractLsb 30 0 } }
  | .zeromark => { s with regs := { s.regs with zeromark := v.extractLsb 30 0 } }
  | .zerospace => { s with regs := { s.regs with zerospace := v.extractLsb 30 0 } }
  | .ftrmark => { s with regs := { s.regs with ftrmark := v.extractLsb 30 0 } }
  | .gap => { s with regs := { s.regs with gap := v.extractLsb 30 0 } }
  | .defgap => { s with regs := { s.regs with defgap := v.extractLsb 30 0 } }
  | .carrier => { s with regs := { s.regs with carrier := v.extractLsb 23 0 } }
  | .framing => { s with regs := { s.regs with markfirst := v.getLsbD 0 } }
  | .tol => { s with regs := { s.regs with tol := v.extractLsb 7 0 } }
  | .minlen => { s with regs := { s.regs with minlen := v.extractLsb 7 0 } }
  | .lencfg =>
    { s with regs := { s.regs with lenidx := v.extractLsb 7 0, lenofs := v.extractLsb 15 8, lenen := v.getLsbD 16 } }
  | .pairlen => { s with regs := { s.regs with pairlen := v.extractLsb 7 0 } }
  | .sbc0 => { s with regs := { s.regs with sbc0 := v.extractLsb 11 0 } }
  | .sbc1 => { s with regs := { s.regs with sbc1 := v.extractLsb 11 0 } }
  | .sbc2 => { s with regs := { s.regs with sbc2 := v.extractLsb 11 0 } }
  | .caplen => { s with regs := { s.regs with caplen := clampCaplen v } }

/-- R64: the four bytes of a written word, BUF[4k] from bits [7:0]. -/
def wordBytes (v : Word) : List Byte :=
  [v.extractLsb 7 0, v.extractLsb 15 8, v.extractLsb 23 16, v.extractLsb 31 24]

/-- MemWrite(off, 4, v) while the block is idle. -/
def writeTarget (s : State) (v : Word) : Target → State
  | .reg r => writeReg s v r
  | .buf k => bufWriteAll s (4 * k) (wordBytes v)
  | .cap k => capWrite s k v
  | .reserved => s

/-- MemWrite(off, 4, v) (R60, R101): STATUS takes a write in every phase; while BUSY = 1 any other write is dropped whole and
sets OVR. -/
def busWrite (s : State) (off : Offset) (v : Word) : State :=
  if target off = .reg .status then writeStatus s v
  else if s.phase ≠ .idle then { s with ovr := true }
  else writeTarget s v (target off)

/-- The host's address of an offset (R62, R91). -/
def busAddress (off : Offset) : Nat :=
  Config.ircodecBase + off.toNat

/-- The offset that a host address names, if the address lies in the 64 KiB window; any other is not addressed to IRCODEC
(R62, R256). -/
def windowOffset (a : Nat) : Option Offset :=
  if Config.ircodecBase ≤ a ∧ a < Config.ircodecBase + 0x10000 then some (BitVec.ofNat 16 (a - Config.ircodecBase)) else none

end Sys2Proof.Machine
end

