-- ==== Sys2Proof/Machine/Operands.lean ====
section
/-! DEFINITION. What commands compute from their operands, the profile registers and the RAMs: bit-field geometry (R120), bytes
and bits of a frame (R13, R162, R189), the effective gap (R160), capture entries (R180) and the tolerance tests (R181,
R182). All arithmetic is exact (R10). -/

namespace Sys2Proof.Machine

/-- `ceil8(n)`: the bytes that `n` bits take (R10). -/
def ceil8 (n : Nat) : Nat :=
  (n + 7) / 8

/-- R120: the effective width `w' = min(w, 8 - o)`. -/
def effWidth (o w : Nat) : Nat :=
  min w (8 - o)

/-- R120: `mask = ((1 << w') - 1) << o`, bits o to o+w'-1. -/
def fieldMask (o w : Nat) : Byte :=
  BitVec.ofNat 8 (((1 <<< effWidth o w) - 1) <<< o)

/-- R121: the widths outside [1, 8]. -/
def badWidth (w : Nat) : Bool :=
  decide (w = 0 ∨ 8 < w)

/-- R13: bit `k` of a frame, most-significant bit of byte 0 first. -/
def frameBit (s : State) (k : Nat) : Bool :=
  (bufRead s (k / 8)).getLsbD (7 - k % 8)

/-- R160: GAP, or DEFGAP where GAP is 0 ("until next frame"). -/
def gapEff (r : Regs) : Dur :=
  if r.gap ≠ 0 then r.gap else r.defgap

/-- The mark that stands for a bit (R163, R187). -/
def bitMark (r : Regs) (b : Bool) : Dur :=
  if b then r.onemark else r.zeromark

/-- The space that stands for a bit (R163). -/
def bitSpace (r : Regs) (b : Bool) : Dur :=
  if b then r.onespace else r.zerospace

/-- The seven durations that must be positive are so (R161, R183). -/
def durationsPositive (r : Regs) : Bool :=
  [r.hdrmark, r.hdrspace, r.onemark, r.onespace, r.zeromark, r.zerospace, r.ftrmark].all fun d => decide (d ≠ 0)

/-- R180: the level of capture entry `i`. -/
def entryLevel (s : State) (i : Nat) : Level :=
  if (capRead s i).getLsbD 31 then .mark else .space

/-- R180: the duration of capture entry `i`. -/
def entryDur (s : State) (i : Nat) : Nat :=
  ((capRead s i).extractLsb 30 0).toNat

/-- R182: `100·d ≥ ref·(100 - TOL)` in the integers. -/
def atLeast (r : Regs) (d : Nat) (ref : Dur) : Bool :=
  decide ((ref.toNat : Int) * (100 - (r.tol.toNat : Int)) ≤ 100 * (d : Int))

/-- R181: `match(d, ref)`, both bounds inclusive, in the integers. -/
def durMatch (r : Regs) (d : Nat) (ref : Dur) : Bool :=
  atLeast r d ref && decide (100 * (d : Int) ≤ (ref.toNat : Int) * (100 + (r.tol.toNat : Int)))

/-- R189: byte `j` of the candidate, from the bits in capture order, most-significant bit first; absent bits are 0. -/
def candByte (bits : List Bool) (j : Nat) : Byte :=
  BitVec.ofNat 8 (((List.range 8).map fun t => (bits.getD (8 * j + t) false).toNat <<< (7 - t)).sum)

/-- R189: the candidate bytes of a decoded frame. -/
def candBytes (bits : List Bool) : List Byte :=
  (List.range (ceil8 bits.length)).map (candByte bits)

end Sys2Proof.Machine
end

