-- ==== Sys2Proof/Machine/Bitfield.lean ====
section
/-! DEFINITION. The bit-field accessor: GETBITS (R122) and SETBITS (R123). -/

namespace Sys2Proof.Machine

/-- The field of a byte: `(b >> o) & ((1 << w') - 1)` (R122). -/
def getField (b : Byte) (o w : Nat) : Nat :=
  (b.toNat >>> o) &&& ((1 <<< effWidth o w) - 1)

/-- The byte with its field replaced: `(b & (0xFF ⊕ mask)) | ((val << o) & mask)` (R123). -/
def setField (b : Byte) (o w : Nat) (val : Byte) : Byte :=
  (b &&& (0xFF#8 ^^^ fieldMask o w)) ||| ((val <<< o) &&& fieldMask o w)

/-- R122. -/
def execGetbits (byte : BitVec 8) (ofs : BitVec 3) (wid : BitVec 4) (s : State) : Host.Outcome State Fault Refusal :=
  if badWidth wid.toNat then .next (complete .arg 0 s)
  else .next (complete .none (BitVec.ofNat 32 (getField (bufRead s byte.toNat) ofs.toNat wid.toNat)) s)

/-- R123: RESULT is the byte after the write. -/
def execSetbits (byte : BitVec 8) (ofs : BitVec 3) (wid : BitVec 4) (val : BitVec 8) (s : State) :
    Host.Outcome State Fault Refusal :=
  if badWidth wid.toNat then .next (complete .arg 0 s)
  else
    let b := setField (bufRead s byte.toNat) ofs.toNat wid.toNat val
    .next (complete .none (b.setWidth 32) (bufWrite s byte.toNat b))

end Sys2Proof.Machine
end

