-- ==== Sys2Proof/Machine/Checksum.lean ====
section
/-! DEFINITION. The checksum/parity engine: CALCCHK (R137), VALIDCHK (R139), INVPAIRS (R141) and FINALIZE (R143). -/

namespace Sys2Proof.Machine

/-- R136: the XOR of BUF[0] to BUF[L-2], 0 where L ≤ 1. -/
def calcSum (s : State) (len : Nat) : Byte :=
  ((List.range (len - 1)).map (bufRead s)).foldl (· ^^^ ·) 0

/-- R135: the pairs (2i, 2i+1) with 2i + 1 < P are those with i < P div 2. -/
def pairsOK (s : State) (p : Nat) : Bool :=
  (List.range (p / 2)).all fun i => decide (bufRead s (2 * i + 1) = ~~~ bufRead s (2 * i))

/-- R140: BUF[2i+1] <- ~BUF[2i] for each pair below P. -/
def invPairs (s : State) (p : Nat) : State :=
  (List.range (p / 2)).foldl (fun t i => bufWrite t (2 * i + 1) (~~~ bufRead t (2 * i))) s

/-- The length-indicator term of R138: with LENEN = 1 the indicator lies in the checksummed range and declares L. -/
def lengthOK (s : State) (len : Nat) : Bool :=
  !s.regs.lenen ||
    (decide (s.regs.lenidx.toNat + 1 < len) &&
      decide ((bufRead s s.regs.lenidx.toNat).toNat + s.regs.lenofs.toNat = len))

/-- R138: `valid(L)`. `PAIRLEN ≤ L - 1` is written `PAIRLEN + 1 ≤ L`, which is the same in the integers. -/
def valid (s : State) (len : Nat) : Bool :=
  decide (1 ≤ len) && decide (s.regs.minlen.toNat ≤ len) && decide (bufRead s (len - 1) = calcSum s len) &&
    (decide (s.regs.pairlen.toNat + 1 ≤ len) && pairsOK s s.regs.pairlen.toNat) && lengthOK s len

/-- R137. -/
def execCalcchk (len : BitVec 9) (s : State) : Host.Outcome State Fault Refusal :=
  if 256 < len.toNat then .next (complete .arg 0 s)
  else .next (complete .none ((calcSum s len.toNat).setWidth 32) s)

/-- R139: an invalid checksum is a result, not an error. -/
def execValidchk (len : BitVec 9) (s : State) : Host.Outcome State Fault Refusal :=
  if 256 < len.toNat then .next (complete .arg 0 s)
  else .next (complete .none (if valid s len.toNat then 1 else 0) s)

/-- R141. -/
def execInvpairs (len : BitVec 9) (s : State) : Host.Outcome State Fault Refusal :=
  if 256 < len.toNat then .next (complete .arg 0 s)
  else .next (complete .none 0 (invPairs s len.toNat))

/-- R143: FINALIZE's argument checks, all ERR_ARG: the length, the pair region, the length indicator. -/
def finalizeOK (r : Regs) (len : Nat) : Bool :=
  !decide (256 < len ∨ len = 0) && !decide (len - 1 < r.pairlen.toNat) &&
    !(r.lenen && decide (len - 1 ≤ r.lenidx.toNat))

/-- Step 1 of R142: with LENEN = 1, BUF[LENIDX] <- (L - LENOFS) mod 256. -/
def writeLength (s : State) (len : Nat) : State :=
  if s.regs.lenen then
    bufWrite s s.regs.lenidx.toNat (BitVec.ofInt 8 ((len : Int) - (s.regs.lenofs.toNat : Int)))
  else s

/-- Steps 1 and 2 of R142: the length indicator, then the pairs of the PAIRLEN region. -/
def prepare (s : State) (len : Nat) : State :=
  invPairs (writeLength s len) s.regs.pairlen.toNat

/-- R143: the three steps of R142 in order; RESULT is the checksum byte written. -/
def execFinalize (len : BitVec 9) (s : State) : Host.Outcome State Fault Refusal :=
  if finalizeOK s.regs len.toNat then
    let t := prepare s len.toNat
    let c := calcSum t len.toNat
    .next (complete .none (c.setWidth 32) (bufWrite t (len.toNat - 1) c))
  else .next (complete .arg 0 s)

end Sys2Proof.Machine
end

