-- ==== Sys2Proof/Machine/Decoder.lean ====
section
/-! DEFINITION. The generic pulse decoder/matcher: DECODE (R190). A check that fails names the error that ends the command. -/

namespace Sys2Proof.Machine

/-- R183: the decoder's profile check. -/
def decProfileOK (r : Regs) : Bool :=
  r.markfirst && durationsPositive r && decide (r.onespace ≠ r.zerospace)

/-- R184: the sanctioned strict-mode bit counts; a register of 0 is an empty slot. -/
def sanctioned (r : Regs) (n : Nat) : Bool :=
  decide (n ≠ 0) && (decide (n = r.sbc0.toNat) || decide (n = r.sbc1.toNat) || decide (n = r.sbc2.toNat))

/-- The distance of a duration from a reference (R185). -/
def distance (d : Nat) (ref : Dur) : Nat :=
  ((d : Int) - (ref.toNat : Int)).natAbs

/-- R185: the bit that a space stands for, if any. -/
def classify (r : Regs) (d : Nat) : Option Bool :=
  match durMatch r d r.onespace, durMatch r d r.zerospace with
  | true, false => some true
  | false, true => some false
  | true, true =>
    if distance d r.onespace < distance d r.zerospace then some true
    else if distance d r.zerospace < distance d r.onespace then some false
    else none
  | false, false => none

/-- One consumed entry: its level first (R186), then its duration. -/
def checkEntry (s : State) (i : Nat) (l : Level) (ok : Bool) (e : Err) : Except Err Unit :=
  if entryLevel s i ≠ l then .error .level
  else if ok then .ok () else .error e

/-- R187, R190: the data bit whose mark is entry `i`. -/
def decodeBit (s : State) (i : Nat) : Except Err Bool :=
  match checkEntry s i .mark
      (durMatch s.regs (entryDur s i) s.regs.onemark || durMatch s.regs (entryDur s i) s.regs.zeromark) .bitmark with
  | .error e => .error e
  | .ok _ =>
    if entryLevel s (i + 1) ≠ .space then .error .level
    else
      match classify s.regs (entryDur s (i + 1)) with
      | none => .error .bitspace
      | some b => if durMatch s.regs (entryDur s i) (bitMark s.regs b) then .ok b else .error .bitmark

/-- R190: `n` data bits from entry `i` on. -/
def decodeBits (s : State) : Nat → Nat → Except Err (List Bool)
  | _, 0 => .ok []
  | i, n + 1 =>
    match decodeBit s i with
    | .error e => .error e
    | .ok b =>
      match decodeBits s (i + 2) n with
      | .error e => .error e
      | .ok bs => .ok (b :: bs)

/-- R188: the gap after the footer mark, at index `i`; answers the index after the last entry consumed. -/
def decodeGap (s : State) (i : Nat) : Except Err Nat :=
  if i < s.regs.caplen.val then
    match checkEntry s i .space (atLeast s.regs (entryDur s i) (gapEff s.regs)) .gap with
    | .error e => .error e
    | .ok _ => .ok (i + 1)
  else if s.regs.gapend then .ok i
  else .error .trunc

/-- The entries of a frame of `n` bits from index `o` on, in capture order (R190): the bits, and the index after the last entry
consumed. -/
def decodeEntries (s : State) (n o : Nat) : Except Err (List Bool × Nat) :=
  match checkEntry s o .mark (durMatch s.regs (entryDur s o) s.regs.hdrmark) .hdrmark with
  | .error e => .error e
  | .ok _ =>
    match checkEntry s (o + 1) .space (durMatch s.regs (entryDur s (o + 1)) s.regs.hdrspace) .hdrspace with
    | .error e => .error e
    | .ok _ =>
      match decodeBits s (o + 2) n with
      | .error e => .error e
      | .ok bits =>
        match checkEntry s (o + 2 + 2 * n) .mark
            (durMatch s.regs (entryDur s (o + 2 + 2 * n)) s.regs.ftrmark) .ftrmark with
        | .error e => .error e
        | .ok _ =>
          match decodeGap s (o + 2 + 2 * n + 1) with
          | .error e => .error e
          | .ok i => .ok (bits, i)

/-- R190: the whole frame, its checks in the rule's order: the candidate bytes and the number of entries consumed. The strict
checksum is `valid` on BUF with the candidate in place (R191). -/
def decodeFrame (s : State) (n o : Nat) (strict : Bool) : Except Err (List Byte × Nat) :=
  if 2048 < n then .error .arg
  else if !decProfileOK s.regs then .error .profile
  else if strict && !sanctioned s.regs n then .error .bitcount
  else if s.regs.caplen.val < o + 2 + 2 * n + 1 then .error .trunc
  else
    match decodeEntries s n o with
    | .error e => .error e
    | .ok (bits, i) =>
      if strict && !valid (bufWriteAll s 0 (candBytes bits)) (ceil8 n) then .error .checksum
      else .ok (candBytes bits, i - o)

/-- R190, R192: BUF is written only when every check has passed. -/
def execDecode (nbits offset : BitVec 12) (strict : Bool) (s : State) : Host.Outcome State Fault Refusal :=
  match decodeFrame s nbits.toNat offset.toNat strict with
  | .error e => .next (complete e 0 s)
  | .ok (cand, used) => .next (complete .none (BitVec.ofNat 32 used) (bufWriteAll s 0 cand))

end Sys2Proof.Machine
end

