-- ==== Sys2Proof/Machine/Encoder.lean ====
section
/-! DEFINITION. The generic pulse encoder: ENCODE (R165). -/

namespace Sys2Proof.Machine

/-- R161: the encoder's profile check for a repeat count. -/
def encProfileOK (r : Regs) (rep : Nat) : Bool :=
  r.markfirst && durationsPositive r && (decide (rep = 0) || decide (gapEff r ≠ 0))

/-- The two pulses of one data bit (R163). -/
def bitPulses (r : Regs) (b : Bool) : List Pulse :=
  [⟨.mark, bitMark r b⟩, ⟨.space, bitSpace r b⟩]

/-- The trailing space of a frame: none where the effective gap is 0 (R163). -/
def gapPulses (r : Regs) : List Pulse :=
  if gapEff r ≠ 0 then [⟨.space, gapEff r⟩] else []

/-- R163: one frame of `n` data bits. -/
def frame (s : State) (n : Nat) : List Pulse :=
  [⟨.mark, s.regs.hdrmark⟩, ⟨.space, s.regs.hdrspace⟩]
    ++ (List.range n).flatMap (fun k => bitPulses s.regs (frameBit s k))
    ++ [⟨.mark, s.regs.ftrmark⟩]
    ++ gapPulses s.regs

/-- R164: the frame and its repeats, end to end. -/
def transmission (s : State) (n rep : Nat) : List Pulse :=
  (List.replicate (rep + 1) (frame s n)).flatten

/-- R165: the checks in order, then the hand-off; the command completes when the transmission does (R167). -/
def execEncode (nbits : BitVec 12) (rep : BitVec 8) (s : State) : Host.Outcome State Fault Refusal :=
  if 2048 < nbits.toNat then .next (complete .arg 0 s)
  else if !encProfileOK s.regs rep.toNat then .next (complete .profile 0 s)
  else if ceil8 nbits.toNat < s.regs.minlen.toNat then .next (complete .short 0 s)
  else .next (handoff ⟨s.regs.carrier, transmission s nbits.toNat rep.toNat⟩ s)

end Sys2Proof.Machine
end

