-- ==== Sys2Proof/Machine/System.lean ====
section
/-! DEFINITION. NOP (R105), and what the engine does with a word that is no command (R104). -/

namespace Sys2Proof.Machine

/-- R105: NOP completes with no error and RESULT 0. -/
def execNop (s : State) : Host.Outcome State Fault Refusal :=
  .next (complete .none 0 s)

/-- R104: an ILLEGAL word completes with ERR_ILLEGAL and changes nothing else. -/
def execIllegal (s : State) : Host.Outcome State Fault Refusal :=
  .next (complete .illegal 0 s)

end Sys2Proof.Machine
end

