-- ==== Sys2Proof/Machine/Dispatch.lean ====
section
/-! DEFINITION. One arm per command: what the engine's atomic step does with it (R102). -/

namespace Sys2Proof.Machine

def exec (i : Instr) (s : State) : Host.Outcome State Fault Refusal :=
  match i with
  | .nop => Sys2Proof.Machine.execNop s
  | .getbits byte ofs wid => Sys2Proof.Machine.execGetbits byte ofs wid s
  | .setbits byte ofs wid val => Sys2Proof.Machine.execSetbits byte ofs wid val s
  | .calcchk len => Sys2Proof.Machine.execCalcchk len s
  | .validchk len => Sys2Proof.Machine.execValidchk len s
  | .invpairs len => Sys2Proof.Machine.execInvpairs len s
  | .finalize len => Sys2Proof.Machine.execFinalize len s
  | .encode nbits rep => Sys2Proof.Machine.execEncode nbits rep s
  | .decode nbits offset strict => Sys2Proof.Machine.execDecode nbits offset strict s

end Sys2Proof.Machine
end

