-- ==== Sys2Proof/Machine/Agents.lean ====
section
/-! DEFINITION. The steps of the four agents (R6, R73), each atomic, and whose turn it is. An agent whose step is not enabled makes
no move: its turn passes and the state stays as it is (assumption log 4). -/

namespace Sys2Proof.Machine

/-- The ENGINE's step (R102): enabled in PENDING, it decodes PEND and performs the command's rule. -/
def engineStep (s : State) : Host.Outcome State Fault Refusal :=
  match s.phase with
  | .pending =>
    match decode s.pend with
    | .ok i => exec i s
    | .error _ => execIllegal s
  | .idle => .next s
  | .txwait => .next s

/-- TXP's step (R167): enabled in TXWAIT, the transmission has ended and the ENCODE completes. -/
def txpStep (s : State) : Host.Outcome State Fault Refusal :=
  match s.phase with
  | .txwait => .next (complete .none s.txresult { s with txslot := none })
  | .idle => .next s
  | .pending => .next s

/-- CAPP's step (R71): enabled in IDLE where a capture is offered; while the engine is busy the capture is held, not dropped. -/
def cappStep (s : State) : Host.Outcome State Fault Refusal :=
  match s.phase, s.env.offers with
  | .idle, entries :: rest => .next (deliver entries { s with env := { s.env with offers := rest } })
  | _, _ => .next s

/-- The host program goes on with `rest`. -/
def setProgram (s : State) (rest : List HostOp) : State :=
  { s with env := { s.env with program := rest } }

/-- The host has read the word at an offset: the observation records it and the block stays as it is (R68). -/
def recordRead (s : State) (off : Offset) : State :=
  { s with env := { s.env with readlog := s.env.readlog ++ [(off, busRead s off)] } }

/-- R61: the offset bits [1:0] do not exist on the bus. -/
def aligned (off : Offset) : Bool :=
  decide (off.toNat % 4 = 0)

/-- HOST's step (R256): the next operation of the host program. A loop that waits polls once a step (R91). -/
def hostStep (s : State) : Host.Outcome State Fault Refusal :=
  match s.env.program with
  | [] => .next s
  | .write off v :: rest =>
    if aligned off then .next (busWrite (setProgram s rest) off v) else .refused (.misalignedAccess off)
  | .read off :: rest =>
    if aligned off then .next (recordRead (setProgram s rest) off) else .refused (.misalignedAccess off)
  | .poll mask want :: rest =>
    .next (recordRead (if s.status &&& mask = want then setProgram s rest else s) 0x0004)
  | .waitIrq :: rest => .next (if s.irq then setProgram s rest else s)

/-- The step of an agent. -/
def agentStep (a : Agent) (s : State) : Host.Outcome State Fault Refusal :=
  match a with
  | .host => hostStep s
  | .engine => engineStep s
  | .txp => txpStep s
  | .capp => cappStep s

/-- Whose turn it is: the schedule's next agent, and where the schedule ends a free one (R73, R254). -/
def turn (s : State) : Agent :=
  match s.env.schedule with
  | a :: _ => a
  | [] => Config.pick s.env.tick

/-- The turn is taken. -/
def spendTurn (s : State) : State :=
  match s.env.schedule with
  | _ :: rest => { s with env := { s.env with schedule := rest } }
  | [] => { s with env := { s.env with tick := s.env.tick + 1 } }

end Sys2Proof.Machine
end

