-- ==== Sys2Proof/Machine/Step.lean ====
section
/-! DEFINITION. One step of the machine: one atomic transition of one agent on the single State record (R73). -/

namespace Sys2Proof.Machine

/-- The agent whose turn it is takes its step. -/
def step (s : State) : Host.Outcome State Fault Refusal :=
  agentStep (turn s) (spendTurn s)

/-- `s` with the word of an instruction as the accepted command that the engine executes next: the word in PEND, PHASE = PENDING,
and the ENGINE first in the schedule. It stands for the host's CMD write (R100); assumption log 5. -/
def State.withFetchWord (s : State) (nbits w : Nat) : State :=
  { s with
    pend := BitVec.ofNat 32 (w % 2 ^ nbits)
    phase := .pending
    env := { s.env with schedule := .engine :: s.env.schedule } }

end Sys2Proof.Machine
end

