-- ==== Sys2Proof/Machine/Run.lean ====
section
/-! DEFINITION. A run (R254): its launch, its end, and what is observed there. `step` is the machine, which knows nothing of
runs; the end of a run is here, and past it no step is taken. -/

namespace Sys2Proof.Machine

/-- A launch (R254): a start state, a host program, the captures that will be offered, and a schedule. The start state is
power-on or any given state that meets the invariant of R241. -/
def launchFrom (start : State) (program : List HostOp) (offers : List (List Pulse)) (schedule : List Agent) : State :=
  { start with env := { Env.reset with program := program, offers := offers, schedule := schedule } }

/-- A launch from power-on (R240, R254). -/
def launch (program : List HostOp) (offers : List (List Pulse)) (schedule : List Agent) : State :=
  launchFrom State.reset program offers schedule

/-- Where a run ends (R254): the host program has performed its last operation and PHASE = IDLE. -/
def State.runEnded (s : State) : Bool :=
  s.env.program.isEmpty && decide (s.phase = .idle)

/-- The record of R51, `txlog` included: the state with nothing outside the block. It is what a run's end shows (R254). -/
def State.record (s : State) : State :=
  { s with env := Env.reset }

/-- How a run stands within a number of steps. -/
inductive RunResult where
  /-- The run has ended; the observation is the record at the FIRST state in which both conditions of R254 hold. -/
  | ended (observation : State)
  /-- The run has not ended yet. A run that hangs (R249) stands so for every number of steps. -/
  | running (s : State)
  /-- A step was refused: the host program makes an access that the host has no move for (R61). -/
  | refused (r : Refusal)
  deriving DecidableEq, Repr

/-- A run for at most `n` steps (R254). It ends at the first state in which both conditions hold, and takes no step there: a
capture offered but not delivered by then is not delivered in this run. -/
def runWithin : Nat → State → RunResult
  | 0, s => if s.runEnded then .ended s.record else .running s
  | n + 1, s =>
    if s.runEnded then .ended s.record
    else
      match step s with
      | .next t => runWithin n t
      | .fault r => nomatch r
      | .refused r => .refused r

end Sys2Proof.Machine
end

