-- ==== Sys2Proof/Safety.lean ====
section
/-! DEFINITION. What claims are stated in: the invariant of R241 with what the rules imply of STATUS and of the transmission in
flight, the shape of a transaction (R166), the frame of the commands, and the rounds of a fair schedule (R255). -/

namespace Sys2Proof.Machine

/-- Levels that alternate, the first being `l`. -/
def alternates : Level → List Pulse → Bool
  | _, [] => true
  | .mark, p :: ps => decide (p.level = .mark) && alternates .space ps
  | .space, p :: ps => decide (p.level = .space) && alternates .mark ps

/-- R166: every pulse of a transaction has a duration of at least 1, and its levels alternate, starting with MARK. -/
def Txn.wellShaped (t : Txn) : Prop :=
  (∀ p ∈ t.pulses, 1 ≤ p.dur.toNat) ∧ alternates .mark t.pulses = true ∧ t.pulses ≠ []

/-- The invariant of the block. `slot` and the RAMs' forms are R241's; the others follow from the rules: DONE is cleared by an
accepted command (R100) and set only by a completion (R103); OK, ERR and RESULT are written together (R103, R210); the
transaction in flight is the last one logged and TXRESULT counts its pulses (R166). -/
structure State.Inv (s : State) : Prop where
  slot : s.txslot.isSome = true ↔ s.phase = .txwait
  bufWf : Ram.wf 256 s.buf = true
  capWf : Ram.wf 4096 s.cap = true
  doneIdle : s.done = true → s.phase = .idle
  okErr : s.ok = true → s.err = 0
  errKnown : ∃ e : Err, s.err = e.code
  errResult : s.err ≠ 0 → s.result = 0
  inFlight : ∀ t, s.txslot = some t →
    s.txlog.getLast? = some t ∧ s.txresult = BitVec.ofNat 32 t.pulses.length

/-- Every transaction handed to the transmit primitive has the shape of R166. -/
def State.LogWellShaped (s : State) : Prop :=
  ∀ t ∈ s.txlog, t.wellShaped

/-- Two states that differ at most in what a command may write: STATUS.DONE, OK and ERR, RESULT, PHASE, BUF, and the TX port's
TXSLOT, TXRESULT and txlog. Every register, the other STATUS bits, CAP, CAPLEN, PEND and everything outside the block are
the same. -/
def SameOutsideCommand (s t : State) : Prop :=
  t.regs = s.regs ∧ t.ovr = s.ovr ∧ t.caprdy = s.caprdy ∧ t.cap = s.cap ∧ t.pend = s.pend ∧ t.env = s.env

/-- The TX port is untouched: no transaction handed over. -/
def SameTxPort (s t : State) : Prop :=
  t.txslot = s.txslot ∧ t.txresult = s.txresult ∧ t.txlog = s.txlog

/-- How a command's success ends it (R103): ERR 0, OK, its RESULT, DONE, PHASE = IDLE. -/
def SucceededWith (result : Word) (t : State) : Prop :=
  t.err = 0 ∧ t.ok = true ∧ t.result = result ∧ t.done = true ∧ t.phase = .idle

/-- All that a command that ends in error changes (R103, R106): ERR is its code, OK is 0, RESULT is 0, DONE is set, PHASE = IDLE. -/
def failedWith (code : BitVec 8) (s : State) : State :=
  { s with err := code, ok := false, result := 0, done := true, phase := .idle }

/-- A round: a stretch of the schedule in which HOST, ENGINE and TXP each have a turn. A turn in which the agent cannot move passes,
so a schedule that is fair to these agents (R255) is one round after another. Rounds are assumed by a statement, never by the
machine. -/
def IsRound (r : List Agent) : Prop :=
  Agent.host ∈ r ∧ Agent.engine ∈ r ∧ Agent.txp ∈ r

/-- The host program makes only moves that the host has: every access is aligned (R61, R256). -/
def ProgramAligned (p : List HostOp) : Prop :=
  ∀ op ∈ p, ∀ off, (op = .read off ∨ ∃ v, op = .write off v) → off.toNat % 4 = 0

end Sys2Proof.Machine
end

