-- ==== Sys2Proof/Certificates/Slice0/Obligations.lean ====
section
/-! DEFINITION. The statements about IRCODEC, from the numbered rules of spec/. The definitions under Sys2Proof.Claims say what
the rules say in terms of their own (bit by bit, index by index, in the integers), apart from the meanings of the
commands. -/

open Sys2Proof Sys2Proof.Machine

/-! ## Vocabulary -/

namespace Sys2Proof.Claims

/-- R85: match and mask of each command. -/
def rows : List (String × Word × Word) :=
  [("NOP", 0x00000000, 0xFFFFFFFF), ("GETBITS", 0x00000001, 0xFFF8000F), ("SETBITS", 0x00000002, 0xF800000F),
   ("CALCCHK", 0x00000003, 0xFFFFE00F), ("VALIDCHK", 0x00000004, 0xFFFFE00F), ("INVPAIRS", 0x00000005, 0xFFFFE00F),
   ("FINALIZE", 0x00000006, 0xFFFFE00F), ("ENCODE", 0x00000007, 0xFF00000F), ("DECODE", 0x00000008, 0xE000000F)]

/-- The mnemonic of a command (R84). -/
def mnemonic : Instr → String
  | .nop => "NOP"
  | .getbits _ _ _ => "GETBITS"
  | .setbits _ _ _ _ => "SETBITS"
  | .calcchk _ => "CALCCHK"
  | .validchk _ => "VALIDCHK"
  | .invpairs _ => "INVPAIRS"
  | .finalize _ => "FINALIZE"
  | .encode _ _ => "ENCODE"
  | .decode _ _ _ => "DECODE"

/-- R81: in each format the rz bits that must be zero are the bits from this one up; OP 0x9 to 0xF has no format. -/
def rzFrom : Nat → Nat
  | 0 => 4
  | 1 => 19
  | 2 => 27
  | 7 => 24
  | 8 => 29
  | _ => 13

/-- R87: "the opcodes 0x9 to 0xF and any word with a nonzero rz bit". -/
def IllegalWord (w : Word) : Prop :=
  9 ≤ w.toNat % 16 ∨ 2 ^ rzFrom (w.toNat % 16) ≤ w.toNat

/-- ERR_ILLEGAL of one command: a word with its opcode and a bit set at or above `lo` is no command. -/
def RzRefused (op lo : Nat) : Prop :=
  ∀ w : Word, w.toNat % 16 = op → 2 ^ lo ≤ w.toNat → ∃ e, decode w = .error e

/-- A line whose operands fit their fields assembles to a number, any other is refused (R89). -/
def AssemblesTo (l : Line) (fits : Prop) (value : Nat) : Prop :=
  (fits → value < 2 ^ 32 ∧ assemble l = some (BitVec.ofNat 32 value)) ∧ (¬fits → assemble l = none)

/-- The width w' of a bit field (R120). -/
def width' (o w : Nat) : Nat :=
  if o + w ≤ 8 then w else 8 - o

/-- The XOR of the bytes below an index. -/
def xorBelow (rd : Nat → Byte) : Nat → Byte
  | 0 => 0
  | n + 1 => xorBelow rd n ^^^ rd n

/-- R136. -/
def checksum (rd : Nat → Byte) (len : Nat) : Byte :=
  xorBelow rd (len - 1)

/-- R135: the pairs of a region hold complements. -/
def PairsOK (rd : Nat → Byte) (p : Nat) : Prop :=
  ∀ i, 2 * i + 1 < p → rd (2 * i + 1) = ~~~ rd (2 * i)

/-- R138, term by term, in the integers. -/
def Valid (rd : Nat → Byte) (r : Regs) (len : Nat) : Prop :=
  1 ≤ len ∧ r.minlen.toNat ≤ len ∧ rd (len - 1) = checksum rd len ∧
    ((r.pairlen.toNat : Int) ≤ (len : Int) - 1 ∧ PairsOK rd r.pairlen.toNat) ∧
    (r.lenen = false ∨
      ((r.lenidx.toNat : Int) < (len : Int) - 1 ∧ (rd r.lenidx.toNat).toNat + r.lenofs.toNat = len))

/-- R140: the bytes after the pair transform. -/
def inverted (rd : Nat → Byte) (p : Nat) (j : Nat) : Byte :=
  if j % 2 = 1 ∧ j < p then ~~~ rd (j - 1) else rd j

/-- Step 1 of R142: the bytes after the length indicator is written. -/
def withLength (rd : Nat → Byte) (r : Regs) (len : Nat) (j : Nat) : Byte :=
  if r.lenen = true ∧ j = r.lenidx.toNat then BitVec.ofNat 8 (len + 256 - r.lenofs.toNat) else rd j

/-- R160. -/
def gapOf (r : Regs) : Nat :=
  if r.gap.toNat = 0 then r.defgap.toNat else r.gap.toNat

/-- 1 where a frame ends with a gap space, 0 where it does not (R169). -/
def gapCount (r : Regs) : Nat :=
  if gapOf r = 0 then 0 else 1

/-- The number of pulses of one frame of `n` bits (R169). -/
def frameLen (r : Regs) (n : Nat) : Nat :=
  2 + 2 * n + 1 + gapCount r

/-- R13: bit `k` of a frame. -/
def lineBit (rd : Nat → Byte) (k : Nat) : Bool :=
  (rd (k / 8)).toNat.testBit (7 - k % 8)

/-- R163: pulse `p` of a frame of `n` bits, by its position: (MARK?, duration). -/
def framePulse (rd : Nat → Byte) (r : Regs) (n p : Nat) : Level × Nat :=
  if p = 0 then (.mark, r.hdrmark.toNat)
  else if p = 1 then (.space, r.hdrspace.toNat)
  else if p < 2 + 2 * n then
    (if p % 2 = 0 then (.mark, if lineBit rd ((p - 2) / 2) then r.onemark.toNat else r.zeromark.toNat)
     else (.space, if lineBit rd ((p - 2) / 2) then r.onespace.toNat else r.zerospace.toNat))
  else if p = 2 + 2 * n then (.mark, r.ftrmark.toNat)
  else (.space, gapOf r)

/-- R164: `ps` is the frame of `n` bits sent `rep + 1` times, end to end. -/
def IsTransmission (rd : Nat → Byte) (r : Regs) (n rep : Nat) (ps : List Pulse) : Prop :=
  ps.length = (rep + 1) * frameLen r n ∧
    ∀ q, q ≤ rep → ∀ p, p < frameLen r n →
      (ps[q * frameLen r n + p]?).map (fun x => (x.level, x.dur.toNat)) = some (framePulse rd r n p)

/-- R161, R183: the seven durations are positive. -/
def DurationsPositive (r : Regs) : Prop :=
  0 < r.hdrmark.toNat ∧ 0 < r.hdrspace.toNat ∧ 0 < r.onemark.toNat ∧ 0 < r.onespace.toNat ∧ 0 < r.zeromark.toNat ∧
    0 < r.zerospace.toNat ∧ 0 < r.ftrmark.toNat

/-- R161. -/
def EncProfileOK (r : Regs) (rep : Nat) : Prop :=
  r.markfirst = true ∧ DurationsPositive r ∧ (rep = 0 ∨ 0 < gapOf r)

/-- R183. -/
def DecProfileOK (r : Regs) : Prop :=
  r.markfirst = true ∧ DurationsPositive r ∧ r.onespace.toNat ≠ r.zerospace.toNat

/-- R184. -/
def Sanctioned (r : Regs) (n : Nat) : Prop :=
  n ≠ 0 ∧ (n = r.sbc0.toNat ∨ n = r.sbc1.toNat ∨ n = r.sbc2.toNat)

/-- R182, in the integers. -/
def AtLeast (tol d ref : Nat) : Prop :=
  (100 : Int) * d ≥ (ref : Int) * (100 - (tol : Int))

/-- R181, in the integers. -/
def Match (tol d ref : Nat) : Prop :=
  (100 : Int) * d ≥ (ref : Int) * (100 - (tol : Int)) ∧ (100 : Int) * d ≤ (ref : Int) * (100 + (tol : Int))

/-- The distance of two durations (R185). -/
def durDist (a b : Nat) : Nat :=
  (a - b) + (b - a)

/-- R185: a space of duration `d` stands for the bit `b`. -/
def SpaceIs (r : Regs) (d : Nat) (b : Bool) : Prop :=
  let m1 := Match r.tol.toNat d r.onespace.toNat
  let m0 := Match r.tol.toNat d r.zerospace.toNat
  let d1 := durDist d r.onespace.toNat
  let d0 := durDist d r.zerospace.toNat
  if b = true then m1 ∧ (¬m0 ∨ d1 < d0) else m0 ∧ (¬m1 ∨ d0 < d1)

/-- R180: capture entry `i` is a MARK. -/
def IsMark (s : State) (i : Nat) : Prop :=
  2 ^ 31 ≤ (capRead s i).toNat

/-- R180: the duration of capture entry `i`. -/
def durAt (s : State) (i : Nat) : Nat :=
  (capRead s i).toNat % 2 ^ 31

/-- The checks of data bit `k` of a frame at index `o` in the order of R190, each with the error code it ends with. -/
def bitChecks (s : State) (o k : Nat) : List (Prop × BitVec 8) :=
  let r := s.regs
  let i := o + 2 + 2 * k
  [(IsMark s i, 0x12),
   (Match r.tol.toNat (durAt s i) r.onemark.toNat ∨ Match r.tol.toNat (durAt s i) r.zeromark.toNat, 0x15),
   (¬IsMark s (i + 1), 0x12),
   (∃ b, SpaceIs r (durAt s (i + 1)) b, 0x16),
   (∀ b, SpaceIs r (durAt s (i + 1)) b →
      Match r.tol.toNat (durAt s i) (if b = true then r.onemark.toNat else r.zeromark.toNat), 0x15)]

/-- The checks of the gap at index `g` (R188). -/
def gapChecks (s : State) (g : Nat) : List (Prop × BitVec 8) :=
  [(g < s.regs.caplen.val → ¬IsMark s g, 0x12),
   (g < s.regs.caplen.val → AtLeast s.regs.tol.toNat (durAt s g) (gapOf s.regs), 0x18),
   (g < s.regs.caplen.val ∨ s.regs.gapend = true, 0x11)]

/-- The data bits that the capture holds (R187, R190). -/
def BitsAre (s : State) (n o : Nat) (bits : Nat → Bool) : Prop :=
  ∀ k, k < n → SpaceIs s.regs (durAt s (o + 2 + 2 * k + 1)) (bits k)

/-- R189: candidate byte `j` of `n` bits, most-significant bit first, absent bits 0. -/
def candidate (bits : Nat → Bool) (n j : Nat) : Byte :=
  BitVec.ofFnLE (n := 8) fun t => decide (8 * j + (7 - t.val) < n) && bits (8 * j + (7 - t.val))

/-- R191: BUF with the candidate in place. -/
def withCandidate (s : State) (bits : Nat → Bool) (n j : Nat) : Byte :=
  if j < (n + 7) / 8 then candidate bits n j else bufRead s j

/-- All the checks of DECODE in the order of R190 and R213, each with the error code it ends with (R210). -/
def decodeChecks (s : State) (n o : Nat) (strict : Bool) : List (Prop × BitVec 8) :=
  let r := s.regs
  [(n ≤ 2048, 0x02), (DecProfileOK r, 0x03), (strict = true → Sanctioned r n, 0x10),
   (o + 2 * n + 3 ≤ r.caplen.val, 0x11),
   (IsMark s o, 0x12), (Match r.tol.toNat (durAt s o) r.hdrmark.toNat, 0x13),
   (¬IsMark s (o + 1), 0x12), (Match r.tol.toNat (durAt s (o + 1)) r.hdrspace.toNat, 0x14)]
  ++ (List.range n).flatMap (bitChecks s o)
  ++ [(IsMark s (o + 2 + 2 * n), 0x12), (Match r.tol.toNat (durAt s (o + 2 + 2 * n)) r.ftrmark.toNat, 0x17)]
  ++ gapChecks s (o + 2 + 2 * n + 1)
  ++ [(strict = true → ∀ bits, BitsAre s n o bits → Valid (withCandidate s bits n) r ((n + 7) / 8), 0x19)]

/-- The code of the first check that fails, 0 where all pass (R213). -/
def FirstFailed : List (Prop × BitVec 8) → BitVec 8 → Prop
  | [], code => code = 0
  | (p, c) :: rest, code => (¬p ∧ code = c) ∨ (p ∧ FirstFailed rest code)

/-- The timing profile registers hold the same values (§4 of 10_state.md; CARRIER and TOL may differ). -/
def SameProfile (r r' : Regs) : Prop :=
  r'.hdrmark = r.hdrmark ∧ r'.hdrspace = r.hdrspace ∧ r'.onemark = r.onemark ∧ r'.onespace = r.onespace ∧
    r'.zeromark = r.zeromark ∧ r'.zerospace = r.zerospace ∧ r'.ftrmark = r.ftrmark ∧ r'.gap = r.gap ∧
    r'.defgap = r.defgap ∧ r'.markfirst = r.markfirst

/-- The indices of BUF that a command stores to when it ends with no error: the bytes its rule writes, computed from its operands
and the registers as its meaning computes them. -/
def Stores (s : State) : Instr → Nat → Prop
  | .setbits b _ _ _, j => j = b.toNat
  | .invpairs l, j => j % 2 = 1 ∧ j < l.toNat
  | .finalize l, j =>
    (s.regs.lenen = true ∧ j = s.regs.lenidx.toNat) ∨ (j % 2 = 1 ∧ j < s.regs.pairlen.toNat) ∨ j = l.toNat - 1
  | .decode n _ _, j => j < (n.toNat + 7) / 8
  | .nop, _ => False
  | .getbits _ _ _, _ => False
  | .calcchk _, _ => False
  | .validchk _, _ => False
  | .encode _ _, _ => False

/-- The RW registers whose fields are stored as written, each with its offset and the bits it stores (R25, R29 to R37). -/
def storedBits : List (Offset × Word) :=
  [(0x0000, 0x0000000E), (0x0010, 0x7FFFFFFF), (0x0014, 0x7FFFFFFF), (0x0018, 0x7FFFFFFF), (0x001C, 0x7FFFFFFF),
   (0x0020, 0x7FFFFFFF), (0x0024, 0x7FFFFFFF), (0x0028, 0x7FFFFFFF), (0x002C, 0x7FFFFFFF), (0x0030, 0x7FFFFFFF),
   (0x0034, 0x00FFFFFF), (0x0038, 0x00000001), (0x003C, 0x000000FF), (0x0040, 0x000000FF), (0x0044, 0x0001FFFF),
   (0x0048, 0x000000FF), (0x004C, 0x00000FFF), (0x0050, 0x00000FFF), (0x0054, 0x00000FFF)]

/-- What each register of `storedBits`, and CAPLEN, reads as, in its fields (R23, R25, R29 to R38). -/
def fieldsRead (r : Regs) : List (Offset × Nat) :=
  [(0x0000, r.gapend.toNat <<< 1 + r.ieDone.toNat <<< 2 + r.ieCap.toNat <<< 3),
   (0x0010, r.hdrmark.toNat), (0x0014, r.hdrspace.toNat), (0x0018, r.onemark.toNat), (0x001C, r.onespace.toNat),
   (0x0020, r.zeromark.toNat), (0x0024, r.zerospace.toNat), (0x0028, r.ftrmark.toNat), (0x002C, r.gap.toNat),
   (0x0030, r.defgap.toNat), (0x0034, r.carrier.toNat), (0x0038, r.markfirst.toNat), (0x003C, r.tol.toNat),
   (0x0040, r.minlen.toNat), (0x0044, r.lenidx.toNat + r.lenofs.toNat <<< 8 + r.lenen.toNat <<< 16),
   (0x0048, r.pairlen.toNat), (0x004C, r.sbc0.toNat), (0x0050, r.sbc1.toNat), (0x0054, r.sbc2.toNat),
   (0x0058, r.caplen.val)]

/-- The registers after a write of `v` to each of these offsets, field by field (R23, R25, R29 to R37). -/
def fieldsWritten (r : Regs) (v : Nat) : List (Offset × Regs) :=
  [(0x0000, { r with gapend := v.testBit 1, ieDone := v.testBit 2, ieCap := v.testBit 3 }),
   (0x0010, { r with hdrmark := BitVec.ofNat 31 v }), (0x0014, { r with hdrspace := BitVec.ofNat 31 v }),
   (0x0018, { r with onemark := BitVec.ofNat 31 v }), (0x001C, { r with onespace := BitVec.ofNat 31 v }),
   (0x0020, { r with zeromark := BitVec.ofNat 31 v }), (0x0024, { r with zerospace := BitVec.ofNat 31 v }),
   (0x0028, { r with ftrmark := BitVec.ofNat 31 v }), (0x002C, { r with gap := BitVec.ofNat 31 v }),
   (0x0030, { r with defgap := BitVec.ofNat 31 v }), (0x0034, { r with carrier := BitVec.ofNat 24 v }),
   (0x0038, { r with markfirst := v.testBit 0 }), (0x003C, { r with tol := BitVec.ofNat 8 v }),
   (0x0040, { r with minlen := BitVec.ofNat 8 v }),
   (0x0044, { r with lenidx := BitVec.ofNat 8 v, lenofs := BitVec.ofNat 8 (v >>> 8), lenen := v.testBit 16 }),
   (0x0048, { r with pairlen := BitVec.ofNat 8 v }), (0x004C, { r with sbc0 := BitVec.ofNat 12 v }),
   (0x0050, { r with sbc1 := BitVec.ofNat 12 v }), (0x0054, { r with sbc2 := BitVec.ofNat 12 v })]

/-- R23: the reserved offsets. -/
def ReservedOffset (off : Offset) : Prop :=
  (0x005C ≤ off.toNat ∧ off.toNat ≤ 0x00FC) ∨ (0x0200 ≤ off.toNat ∧ off.toNat ≤ 0x3FFC) ∨
    (0x8000 ≤ off.toNat ∧ off.toNat ≤ 0xFFFC)

/-- The sum of a list's durations. -/
def totalDur (ps : List Pulse) : Nat :=
  (ps.map fun p => p.dur.toNat).sum

/-- The duration of one frame (R169). -/
def frameDur (rd : Nat → Byte) (r : Regs) (n : Nat) : Nat :=
  r.hdrmark.toNat + r.hdrspace.toNat + r.ftrmark.toNat + gapCount r * gapOf r +
    ((List.range n).map fun k =>
      if lineBit rd k then r.onemark.toNat + r.onespace.toNat else r.zeromark.toNat + r.zerospace.toNat).sum

/-- The next access of the host program is misaligned (R61). -/
def NextAccessMisaligned (s : State) (off : Offset) : Prop :=
  off.toNat % 4 ≠ 0 ∧ ∃ rest, s.env.program = .read off :: rest ∨ ∃ v, s.env.program = .write off v :: rest

/-- A host program that waits for nothing that cannot come: aligned accesses; WAIT; a wait for DONE only where a command has been issued
since DONE was last cleared; a wait for the IRQ only where moreover IE_DONE is set. The three flags say what holds before the
program's next operation: the block is idle; DONE is set or a command is in progress; IE_DONE is set. A write to CTRL takes effect
only where the block is idle (R101), so it sets IE_DONE for certain only after a WAIT, or where IE_DONE was set before. -/
def WaitsEnd : (idle issued enabled : Bool) → List HostOp → Prop
  | _, _, _, [] => True
  | idle, issued, enabled, .read off :: rest => off.toNat % 4 = 0 ∧ WaitsEnd idle issued enabled rest
  | idle, issued, enabled, .write off v :: rest =>
    off.toNat % 4 = 0 ∧
      WaitsEnd (idle && off != 0x0008)
        (off == 0x0008 || (issued && !(off == 0x0004 && v.getLsbD 1) && !(off == 0x0000 && v.getLsbD 0)))
        (if off = 0x0000 then (idle || enabled) && v.getLsbD 2 && !v.getLsbD 0 else enabled) rest
  | idle, issued, enabled, .poll mask want :: rest =>
    (mask = 1 ∧ want = 0 ∧ WaitsEnd true issued enabled rest) ∨
      (mask = 2 ∧ want = 2 ∧ issued = true ∧ WaitsEnd idle issued enabled rest)
  | idle, issued, enabled, .waitIrq :: rest => issued = true ∧ enabled = true ∧ WaitsEnd idle issued enabled rest

/-- `WaitsEnd` with the flags that the state itself shows. -/
def ProgramEnds (s : State) : Prop :=
  WaitsEnd (decide (s.phase = .idle)) (s.done || decide (s.phase ≠ .idle)) s.regs.ieDone s.env.program

end Sys2Proof.Claims

open Sys2Proof.Claims

/-! ## Encoding (30_encoding.md) -/

/-- R81, R86: decoding the word of any command gives that command back, with every operand at every value of its field. -/
def Obligations.DecodeOfEncode : Prop :=
  ∀ i : Instr, decode (encode i) = .ok i

/-- R81, R86, R88: a command has one word. -/
def Obligations.EncodeOfDecode : Prop :=
  ∀ (w : Word) (i : Instr), decode w = .ok i → encode i = w

/-- R85: a word decodes to a command of a row exactly when it matches the row under its mask. -/
def Obligations.DecodeSelectsTableRow : Prop :=
  ∀ (w : Word) (name : String),
    (∃ i, decode w = .ok i ∧ mnemonic i = name) ↔ ∃ row ∈ rows, row.1 = name ∧ w &&& row.2.2 = row.2.1

/-- R87, R104: which words are ILLEGAL; CMD accepts them like any other; and all that the engine changes when it executes one. -/
def Obligations.IllegalWordsCompleteWithError : Prop :=
  (∀ w : Word, (∃ e, decode w = .error e) ↔ IllegalWord w) ∧
  (∀ (s : State) (w : Word), s.phase = .idle → IllegalWord w →
    busWrite s 0x0008 w = { s with pend := w, phase := .pending, done := false }) ∧
  (∀ s : State, s.phase = .pending → IllegalWord s.pend → engineStep s = .next (failedWith 0x01 s))

/-- R89: the encodings that the assembler syntax gives, and the operands an assembler refuses. -/
def Obligations.AssemblerWords : Prop :=
  AssemblesTo .nop True 0x0 ∧
  (∀ b o w, AssemblesTo (.getbits b o w) (b ≤ 255 ∧ o ≤ 7 ∧ w ≤ 15) (0x1 + b <<< 4 + o <<< 12 + w <<< 15)) ∧
  (∀ b o w v, AssemblesTo (.setbits b o w v) (b ≤ 255 ∧ o ≤ 7 ∧ w ≤ 15 ∧ v ≤ 255)
    (0x2 + b <<< 4 + o <<< 12 + w <<< 15 + v <<< 19)) ∧
  (∀ l, AssemblesTo (.calcchk l) (l ≤ 511) (0x3 + l <<< 4)) ∧
  (∀ l, AssemblesTo (.validchk l) (l ≤ 511) (0x4 + l <<< 4)) ∧
  (∀ l, AssemblesTo (.invpairs l) (l ≤ 511) (0x5 + l <<< 4)) ∧
  (∀ l, AssemblesTo (.finalize l) (l ≤ 511) (0x6 + l <<< 4)) ∧
  (∀ n r, AssemblesTo (.encode n r) (n ≤ 4095 ∧ r ≤ 255) (0x7 + n <<< 4 + r <<< 16)) ∧
  (∀ n o st, AssemblesTo (.decode n o st) (n ≤ 4095 ∧ o ≤ 4095)
    (0x8 + n <<< 4 + o <<< 16 + (if st = true then 1 else 0) <<< 28))

/-- R90: the eight pseudo-instructions and their expansions. -/
def Obligations.PseudoInstructionsExpand : Prop :=
  (∀ b o, assemble (.getbit b o) = assemble (.getbits b o 1)) ∧
  (∀ b o, assemble (.setbit b o) = assemble (.setbits b o 1 1)) ∧
  (∀ b o, assemble (.clrbit b o) = assemble (.setbits b o 1 0)) ∧
  (∀ b o w, assemble (.clrbits b o w) = assemble (.setbits b o w 0)) ∧
  (∀ b, assemble (.getbyte b) = assemble (.getbits b 0 8)) ∧
  (∀ b v, assemble (.putbyte b v) = assemble (.setbits b 0 8 v)) ∧
  (∀ n, assemble (.send n) = assemble (.encode n 0)) ∧
  (∀ n o, assemble (.decodes n o) = assemble (.decode n o true))

/-- R89 and §2.1 of 95_test_vectors.md: words written out from the encodings decode to the commands they stand for. -/
def Obligations.WorkedWordsDecode : Prop :=
  decode 0x00000000 = .ok .nop ∧
  decode 0x00019001 = .ok (.getbits 0 1 3) ∧
  decode 0x07FC7FF2 = .ok (.setbits 255 7 8 255) ∧
  decode 0x00001003 = .ok (.calcchk 256) ∧
  decode 0x00000054 = .ok (.validchk 5) ∧
  decode 0x00000045 = .ok (.invpairs 4) ∧
  decode 0x00000056 = .ok (.finalize 5) ∧
  decode 0x00010287 = .ok (.encode 40 1) ∧
  decode 0x10000288 = .ok (.decode 40 0 true) ∧
  decode 0x00140088 = .ok (.decode 8 20 false)

/-! ## Steps, agents, lifecycle (00_scope.md, 20_memory.md, 40_command.md) -/

/-- R102, R73: where the ENGINE has the turn and a command is pending, the step is `exec` of the decoded command at the state whose turn
has been taken. The turn is the schedule's next, and where the schedule ends a free one (assumption log 2). The last clause is the
model's choice (assumption log 5): withFetchWord stands for the acceptance of R100, and unlike it keeps DONE. -/
def Obligations.StepRunsPendingCommand : Prop :=
  (∀ (s : State) (i : Instr) (rest : List Agent), s.env.schedule = .engine :: rest → s.phase = .pending →
    decode s.pend = .ok i → step s = exec i { s with env := { s.env with schedule := rest } }) ∧
  (∀ (s : State) (a : Agent) (rest : List Agent), s.env.schedule = a :: rest →
    step s = agentStep a { s with env := { s.env with schedule := rest } }) ∧
  (∀ s : State, s.env.schedule = [] →
    step s = agentStep (Config.pick s.env.tick) { s with env := { s.env with tick := s.env.tick + 1 } }) ∧
  (∀ (s : State) (i : Instr), s.phase = .pending → decode s.pend = .ok i → agentStep .engine s = exec i s) ∧
  (∀ (s : State) (i : Instr) (w : Nat), decodeTableWord 32 w = some i →
    step (s.withFetchWord 32 w) = exec i { s with pend := BitVec.ofNat 32 w, phase := .pending })

/-- R6, R71, R102, R167 and assumption log 4 (the model's choice): an agent whose step is not enabled makes no move. -/
def Obligations.DisabledAgentMakesNoMove : Prop :=
  (∀ s : State, s.phase ≠ .pending → agentStep .engine s = .next s) ∧
  (∀ s : State, s.phase ≠ .txwait → agentStep .txp s = .next s) ∧
  (∀ s : State, s.phase ≠ .idle ∨ s.env.offers = [] → agentStep .capp s = .next s) ∧
  (∀ s : State, s.env.program = [] → agentStep .host s = .next s)

/-- R61, R63, R217: a step is refused exactly where it is the host's turn and its next operation is a read or a write at a misaligned
offset, which is neither split nor rounded; every other step answers a next state, that of an agent that cannot move among them
(assumption log 4, the model's choice). -/
def Obligations.OnlyMisalignedAccessStops : Prop :=
  (∀ (s : State) (off : Offset), step s = .refused (.misalignedAccess off) ↔ turn s = .host ∧ NextAccessMisaligned s off) ∧
  (∀ s : State, (∃ t, step s = .next t) ∨ ∃ off, step s = .refused (.misalignedAccess off))

/-- R100: what a CMD write does while IDLE. Every 32-bit word is accepted, and nothing else changes. -/
def Obligations.IdleCmdWriteAccepted : Prop :=
  ∀ (s : State) (w : Word), s.phase = .idle →
    busWrite s 0x0008 w = { s with pend := w, phase := .pending, done := false } ∧
    (busWrite s 0x0008 w).busy = true

/-- R101: while busy a write to any offset other than STATUS is dropped whole and sets OVR; a write to STATUS is accepted in
every phase and only its W1C bits take effect. -/
def Obligations.BusyWriteDropped : Prop :=
  (∀ (s : State) (off : Offset) (v : Word), s.phase ≠ .idle → off ≠ 0x0004 →
    busWrite s off v = { s with ovr := true }) ∧
  (∀ (s : State) (v : Word), busWrite s 0x0004 v =
    { s with
      done := s.done && !v.toNat.testBit 1
      ovr := s.ovr && !v.toNat.testBit 3
      caprdy := s.caprdy && !v.toNat.testBit 4 })

/-- R102, R103, R166: every command answers a next state, on every state: it has completed, with ERR 0 and OK or with a known nonzero
ERR and RESULT 0; or it is an ENCODE whose transaction is now in TXSLOT, its completion still to come. -/
def Obligations.EveryCommandEndsItsStep : Prop :=
  ∀ (i : Instr) (s : State), ∃ t, exec i s = .next t ∧
    ((t.phase = .idle ∧ t.done = true ∧
        ((t.err = 0 ∧ t.ok = true) ∨
          (t.err ∈ [0x02, 0x03, 0x04, 0x10, 0x11, 0x12, 0x13, 0x14, 0x15, 0x16, 0x17, 0x18, 0x19] ∧ t.ok = false ∧
            t.result = 0))) ∨
      ((∃ n r, i = .encode n r) ∧ t.phase = .txwait ∧ t.txslot.isSome = true ∧ t.done = s.done ∧ t.ok = s.ok ∧
        t.err = s.err ∧ t.result = s.result))

/-- R106: a command that completes with an error changes only STATUS.ERR, OK, DONE, RESULT and PHASE. -/
def Obligations.FailingCommandChangesOnlyStatus : Prop :=
  ∀ (i : Instr) (s t : State), exec i s = .next t → t.phase = .idle → t.err ≠ 0 → t = failedWith t.err s

/-- The frame of every command (R103, R106, R190): no command writes a register, OVR, CAPRDY, CAP, CAPLEN or PEND, or anything outside
the block; only ENCODE touches the TX port. -/
def Obligations.CommandFrame : Prop :=
  ∀ (i : Instr) (s t : State), exec i s = .next t →
    SameOutsideCommand s t ∧ ((∀ n r, i ≠ .encode n r) → SameTxPort s t)

/-- The memory frame of every command: every byte of BUF outside the bytes the command stores to, and every entry of CAP, reads
as before; a command that stores nothing leaves all of BUF. -/
def Obligations.CommandMemoryFrame : Prop :=
  ∀ (i : Instr) (s t : State), exec i s = .next t →
    (∀ j, ¬Stores s i j → bufRead t j = bufRead s j) ∧ (∀ k, capRead t k = capRead s k)

/-- R105. -/
def Obligations.NopResult : Prop :=
  (∀ s : State, exec .nop s = .next { s with err := 0, ok := true, result := 0, done := true, phase := .idle }) ∧
  (∀ w : Word, decode w = .ok .nop ↔ w = 0) ∧ RzRefused 0 4

/-! ## Bit-field accessor (41_bitfield.md) -/

/-- R122, R120: RESULT is bits o to o+w'-1 of BUF[b]; nothing but the completion changes. -/
def Obligations.GetbitsResult : Prop :=
  (∀ (b : BitVec 8) (o : BitVec 3) (w : BitVec 4) (s : State), 1 ≤ w.toNat → w.toNat ≤ 8 →
    ∃ r : Word, exec (.getbits b o w) s = .next { s with err := 0, ok := true, result := r, done := true, phase := .idle } ∧
      ∀ j, r.getLsbD j =
        (decide (j < width' o.toNat w.toNat) && (bufRead s b.toNat).getLsbD (o.toNat + j))) ∧
  (∀ (b : BitVec 8) (o : BitVec 3) (w : BitVec 4) (s : State), w.toNat = 0 ∨ 8 < w.toNat →
    exec (.getbits b o w) s = .next (failedWith 0x02 s)) ∧
  RzRefused 1 19

/-- R123, R120: BUF[b] takes val in bits o to o+w'-1 and keeps its other bits; RESULT is the new byte; no other byte changes. -/
def Obligations.SetbitsResult : Prop :=
  (∀ (b : BitVec 8) (o : BitVec 3) (w : BitVec 4) (v : BitVec 8) (s : State), 1 ≤ w.toNat → w.toNat ≤ 8 →
    ∃ t, exec (.setbits b o w v) s = .next t ∧ SucceededWith ((bufRead t b.toNat).setWidth 32) t ∧
      (∀ j, j < 8 → (bufRead t b.toNat).getLsbD j =
        if o.toNat ≤ j ∧ j < o.toNat + width' o.toNat w.toNat then v.getLsbD (j - o.toNat)
        else (bufRead s b.toNat).getLsbD j) ∧
      (∀ j, j ≠ b.toNat → bufRead t j = bufRead s j)) ∧
  (∀ (b : BitVec 8) (o : BitVec 3) (w : BitVec 4) (v : BitVec 8) (s : State), w.toNat = 0 ∨ 8 < w.toNat →
    exec (.setbits b o w v) s = .next (failedWith 0x02 s)) ∧
  RzRefused 2 27

/-- R124: the laws of the accessor, as commands. -/
def Obligations.BitfieldLaws : Prop :=
  (∀ (b : BitVec 8) (o : BitVec 3) (w : BitVec 4) (v : BitVec 8) (s : State), 1 ≤ w.toNat → w.toNat ≤ 8 →
    ∃ t u, exec (.setbits b o w v) s = .next t ∧ exec (.getbits b o w) t = .next u ∧
      u.result.toNat = v.toNat % 2 ^ width' o.toNat w.toNat ∧
      bufRead t b.toNat &&& ~~~ fieldMask o.toNat w.toNat = bufRead s b.toNat &&& ~~~ fieldMask o.toNat w.toNat ∧
      (∀ j, j ≠ b.toNat → bufRead t j = bufRead s j) ∧ (∀ j, bufRead u j = bufRead t j)) ∧
  (∀ (b v : BitVec 8) (s : State), ∃ t, exec (.setbits b 0 8 v) s = .next t ∧ bufRead t b.toNat = v) ∧
  (∀ (b : BitVec 8) (o o' : BitVec 3) (w w' : BitVec 4) (v v' : BitVec 8) (s : State),
    1 ≤ w.toNat → w.toNat ≤ 8 → 1 ≤ w'.toNat → w'.toNat ≤ 8 →
    fieldMask o.toNat w.toNat &&& fieldMask o'.toNat w'.toNat = 0 →
    ∃ t u t' u', exec (.setbits b o w v) s = .next t ∧ exec (.setbits b o' w' v') t = .next u ∧
      exec (.setbits b o' w' v') s = .next t' ∧ exec (.setbits b o w v) t' = .next u' ∧
      ∀ j, bufRead u j = bufRead u' j) ∧
  (∀ (b : BitVec 8) (o : BitVec 3) (w : BitVec 4) (s : State), ∃ t, exec (.getbits b o w) s = .next t ∧
    ∀ j, bufRead t j = bufRead s j)

/-! ## Checksum engine (42_checksum.md) -/

/-- R136, R137. -/
def Obligations.CalcchkResult : Prop :=
  (∀ (l : BitVec 9) (s : State), l.toNat ≤ 256 →
    exec (.calcchk l) s = .next { s with
      err := 0, ok := true, result := (checksum (bufRead s) l.toNat).setWidth 32, done := true, phase := .idle }) ∧
  (∀ (l : BitVec 9) (s : State), 256 < l.toNat → exec (.calcchk l) s = .next (failedWith 0x02 s)) ∧
  RzRefused 3 13

/-- R138, R139: RESULT is 1 exactly when the buffer is valid, 0 otherwise; an invalid buffer is no error. -/
def Obligations.ValidchkResult : Prop :=
  (∀ (l : BitVec 9) (s : State), l.toNat ≤ 256 →
    ∃ r : Word, exec (.validchk l) s = .next { s with err := 0, ok := true, result := r, done := true, phase := .idle } ∧
      (Valid (bufRead s) s.regs l.toNat → r = 1) ∧ (¬Valid (bufRead s) s.regs l.toNat → r = 0)) ∧
  (∀ (l : BitVec 9) (s : State), 256 < l.toNat → exec (.validchk l) s = .next (failedWith 0x02 s)) ∧
  RzRefused 4 13

/-- R140, R141: each odd byte below P becomes the complement of the byte before it, no other byte changes, and the pair check
holds afterwards. -/
def Obligations.InvpairsResult : Prop :=
  (∀ (l : BitVec 9) (s : State), l.toNat ≤ 256 →
    ∃ t, exec (.invpairs l) s = .next t ∧ SucceededWith 0 t ∧
      (∀ j, bufRead t j = inverted (bufRead s) l.toNat j) ∧ PairsOK (bufRead t) l.toNat) ∧
  (∀ (l : BitVec 9) (s : State), 256 < l.toNat → exec (.invpairs l) s = .next (failedWith 0x02 s)) ∧
  RzRefused 5 13

/-- R142, R143: the length indicator, then the pairs, then the checksum over the resulting bytes; RESULT is the checksum written;
the three ERR_ARG checks. -/
def Obligations.FinalizeResult : Prop :=
  (∀ (l : BitVec 9) (s : State), 1 ≤ l.toNat → l.toNat ≤ 256 → s.regs.pairlen.toNat ≤ l.toNat - 1 →
    (s.regs.lenen = true → s.regs.lenidx.toNat < l.toNat - 1) →
    let before := inverted (withLength (bufRead s) s.regs l.toNat) s.regs.pairlen.toNat
    ∃ t, exec (.finalize l) s = .next t ∧ SucceededWith ((checksum before l.toNat).setWidth 32) t ∧
      ∀ j, bufRead t j = if j = l.toNat - 1 then checksum before l.toNat else before j) ∧
  (∀ (l : BitVec 9) (s : State),
    l.toNat = 0 ∨ 256 < l.toNat ∨ l.toNat - 1 < s.regs.pairlen.toNat ∨
      (s.regs.lenen = true ∧ l.toNat - 1 ≤ s.regs.lenidx.toNat) →
    exec (.finalize l) s = .next (failedWith 0x02 s)) ∧
  RzRefused 6 13

/-- R144, the third law: after a FINALIZE that ends with OK = 1, the exact condition under which VALIDCHK returns 1, and the sufficient one. -/
def Obligations.FinalizeThenValidate : Prop :=
  ∀ (l : BitVec 9) (s t : State), exec (.finalize l) s = .next t → t.ok = true →
    let r := s.regs
    let overwritten := r.lenidx.toNat % 2 = 1 ∧ r.lenidx.toNat < r.pairlen.toNat
    let x := if overwritten then (~~~ bufRead s (r.lenidx.toNat - 1)).toNat else (l.toNat + 256 - r.lenofs.toNat) % 256
    ∃ u, exec (.validchk l) t = .next u ∧ u.err = 0 ∧
      (u.result = 1 ↔ r.minlen.toNat ≤ l.toNat ∧ (r.lenen = false ∨ x + r.lenofs.toNat = l.toNat)) ∧
      (r.minlen.toNat ≤ l.toNat →
        (r.lenen = false ∨ (r.lenofs.toNat ≤ l.toNat ∧ l.toNat ≤ r.lenofs.toNat + 255 ∧ ¬overwritten)) →
        u.result = 1)

/-- R144, the first, second and fourth law: CALCCHK twice gives the same value; a second INVPAIRS changes nothing, and INVPAIRS leaves a
buffer unchanged exactly when the pair check already holds; over an even region of pairs that hold, which INVPAIRS leaves, the
XOR is 0xFF where the number of pairs is odd and 0x00 where it is even. -/
def Obligations.ChecksumLaws : Prop :=
  (∀ (l : BitVec 9) (s : State), ∃ t u, exec (.calcchk l) s = .next t ∧ exec (.calcchk l) t = .next u ∧
    u.result = t.result) ∧
  (∀ (l : BitVec 9) (s : State), ∃ t u, exec (.invpairs l) s = .next t ∧ exec (.invpairs l) t = .next u ∧
    (∀ j, bufRead u j = bufRead t j) ∧
    (l.toNat ≤ 256 → ((∀ j, bufRead t j = bufRead s j) ↔ PairsOK (bufRead s) l.toNat)) ∧
    (l.toNat ≤ 256 → l.toNat % 2 = 0 →
      xorBelow (bufRead t) l.toNat = if (l.toNat / 2) % 2 = 1 then 0xFF else 0x00))

/-! ## Encoder (43_encoder.md) -/

/-- R162 to R167: the errors of ENCODE in the order of its checks, with nothing handed over; and the hand-off of an ENCODE that passes
them, the transaction given pulse by pulse, with nothing else changed, no flag either; and its completion by TXP. -/
def Obligations.EncodeResult : Prop :=
  (∀ (n : BitVec 12) (r : BitVec 8) (s : State), 2048 < n.toNat → exec (.encode n r) s = .next (failedWith 0x02 s)) ∧
  (∀ (n : BitVec 12) (r : BitVec 8) (s : State), n.toNat ≤ 2048 → ¬EncProfileOK s.regs r.toNat →
    exec (.encode n r) s = .next (failedWith 0x03 s)) ∧
  (∀ (n : BitVec 12) (r : BitVec 8) (s : State), n.toNat ≤ 2048 → EncProfileOK s.regs r.toNat →
    (n.toNat + 7) / 8 < s.regs.minlen.toNat → exec (.encode n r) s = .next (failedWith 0x04 s)) ∧
  (∀ (n : BitVec 12) (r : BitVec 8) (s : State), n.toNat ≤ 2048 → EncProfileOK s.regs r.toNat →
    s.regs.minlen.toNat ≤ (n.toNat + 7) / 8 →
    ∃ (ps : List Pulse) (t : State), IsTransmission (bufRead s) s.regs n.toNat r.toNat ps ∧
      exec (.encode n r) s = .next t ∧
      t = { s with
        txslot := some ⟨s.regs.carrier, ps⟩
        txlog := s.txlog ++ [⟨s.regs.carrier, ps⟩]
        txresult := BitVec.ofNat 32 ps.length
        phase := .txwait } ∧
      agentStep .txp t = .next { t with
        txslot := none, err := 0, ok := true, result := BitVec.ofNat 32 ps.length, done := true, phase := .idle }) ∧
  RzRefused 7 24

/-- R169, with R167: RESULT after the transmission is the pulse count, which never wraps, and the durations sum as the rule says. -/
def Obligations.PulseCountAndDuration : Prop :=
  ∀ (n : BitVec 12) (r : BitVec 8) (s t : State), exec (.encode n r) s = .next t → t.phase = .txwait →
    ∃ txn u, t.txslot = some txn ∧ txpStep t = .next u ∧ u.ok = true ∧
      u.result.toNat = (r.toNat + 1) * (2 + 2 * n.toNat + 1 + gapCount s.regs) ∧
      u.result.toNat ≤ 1049600 ∧
      totalDur txn.pulses = (r.toNat + 1) * frameDur (bufRead s) s.regs n.toNat

/-- R166 as an invariant of every step of every agent: the transactions in the log have durations of at least 1 and levels that
alternate, starting with MARK; and a step adds at most one transaction to the log and removes none. -/
def Obligations.TxLogKeepsShapeAndGrows : Prop :=
  ∀ s t : State, step s = .next t →
    (s.LogWellShaped → t.LogWellShaped) ∧ ∃ more, t.txlog = s.txlog ++ more ∧ more.length ≤ 1

/-- R167: TXP's step in TXWAIT empties TXSLOT and completes the ENCODE with RESULT = TXRESULT. -/
def Obligations.TransmissionCompletes : Prop :=
  ∀ s : State, s.phase = .txwait →
    agentStep .txp s = .next { s with
      txslot := none, err := 0, ok := true, result := s.txresult, done := true, phase := .idle }

/-- R168: nothing ends TXWAIT except TXP's completion step, whatever the host writes, SRST included. -/
def Obligations.NothingElseEndsTransmission : Prop :=
  ∀ s t : State, step s = .next t → s.phase = .txwait → turn s ≠ .txp →
    t.phase = .txwait ∧ t.txslot = s.txslot ∧ t.txresult = s.txresult ∧ t.txlog = s.txlog ∧ t.regs = s.regs

/-! ## Decoder (44_decoder.md) -/

/-- R185 to R191: DECODE answers a next state whose ERR is the code of the first check that fails, in the order of the rule, and 0 where
all pass; a failure changes nothing but the completion. Where all pass, each space reads as exactly one bit, BUF holds these bits
in capture order, most-significant bit first, and RESULT is the number of entries consumed. -/
def Obligations.DecodeResult : Prop :=
  (∀ (n o : BitVec 12) (st : Bool) (s : State), ∃ t, exec (.decode n o st) s = .next t ∧
    FirstFailed (decodeChecks s n.toNat o.toNat st) t.err ∧ t.phase = .idle ∧ t.done = true ∧
    (t.err ≠ 0 → t = failedWith t.err s)) ∧
  (∀ (n o : BitVec 12) (st : Bool) (s : State), FirstFailed (decodeChecks s n.toNat o.toNat st) 0 →
    ∃ t bits, exec (.decode n o st) s = .next t ∧ BitsAre s n.toNat o.toNat bits ∧
      (∀ bits', BitsAre s n.toNat o.toNat bits' → ∀ k, k < n.toNat → bits' k = bits k) ∧
      SucceededWith (BitVec.ofNat 32
        (2 * n.toNat + 3 + if o.toNat + 2 * n.toNat + 3 < s.regs.caplen.val then 1 else 0)) t ∧
      ∀ j, bufRead t j = withCandidate s bits n.toNat j) ∧
  RzRefused 8 29

/-- R192: BUF is written only when every check has passed, and then only BUF[0] to BUF[ceil8(N)-1]. -/
def Obligations.DecodeCommitsOnSuccessOnly : Prop :=
  ∀ (n o : BitVec 12) (st : Bool) (s t : State), exec (.decode n o st) s = .next t →
    (t.ok = false → t.buf = s.buf) ∧ (t.ok = true → ∀ j, (n.toNat + 7) / 8 ≤ j → bufRead t j = bufRead s j)

/-- R194. -/
def Obligations.StrictRejectsUnsanctioned : Prop :=
  ∀ (n o : BitVec 12) (s : State), n.toNat ≤ 2048 → DecProfileOK s.regs → ¬Sanctioned s.regs n.toNat →
    exec (.decode n o true) s = .next (failedWith 0x10 s)

/-- R193: the round trip. A frame copy of a transmission, captured as it was sent, decodes to the bytes it was sent from, for every
tolerance and whatever BUF holds by then; with STRICT = 1 where the bit count is sanctioned and the bytes are valid, taken as
DECODE gives them, with the bits beyond the last one 0. The capture ends with the copy, or goes on behind its gap space. Where the
effective gap is 0 the capture ends at the footer mark, or goes on behind it with a SPACE: a MARK there, which R193 does not
exclude, is ERR_LEVEL by R188 and R190, and the model follows these (assumption log 21). -/
def Obligations.RoundTrip : Prop :=
  ∀ (n off : BitVec 12) (r : BitVec 8) (st : Bool) (s t s' : State) (ps : List Pulse) (q : Nat),
    exec (.encode n r) s = .next t → t.phase = .txwait → t.txslot = some ⟨s.regs.carrier, ps⟩ →
    SameProfile s.regs s'.regs →
    DecProfileOK s.regs → q ≤ r.toNat → off.toNat = q * frameLen s.regs n.toNat →
    (∀ p, p < frameLen s.regs n.toNat → off.toNat + p < s'.regs.caplen.val →
      some (capRead s' (off.toNat + p)) = (ps[off.toNat + p]?).map Pulse.entry) →
    ((off.toNat + frameLen s.regs n.toNat ≤ s'.regs.caplen.val ∧ 0 < gapOf s.regs) ∨
      (off.toNat + 2 * n.toNat + 3 = s'.regs.caplen.val ∧ s'.regs.gapend = true) ∨
      (off.toNat + 2 * n.toNat + 3 < s'.regs.caplen.val ∧ gapOf s.regs = 0 ∧ ¬IsMark s' (off.toNat + 2 * n.toNat + 3))) →
    (st = true → Sanctioned s'.regs n.toNat ∧
      Valid (candidate (lineBit (bufRead s)) n.toNat) s'.regs ((n.toNat + 7) / 8)) →
    ∃ u, exec (.decode n off st) s' = .next u ∧ u.ok = true ∧ u.err = 0 ∧
      ∀ j, j < (n.toNat + 7) / 8 → ∀ b, b < 8 →
        (bufRead u j).getLsbD b = (decide (8 * j + (7 - b) < n.toNat) && (bufRead s j).getLsbD b)

/-! ## The host bus (10_state.md, 20_memory.md) -/

/-- R64: the BUF window is little-endian, and a word write writes its four bytes, no other, and nothing outside BUF. -/
def Obligations.BufWindowLittleEndian : Prop :=
  ∀ (s : State) (k : Nat), k < 64 →
    (busRead s (BitVec.ofNat 16 (0x0100 + 4 * k))).toNat =
      (bufRead s (4 * k)).toNat + (bufRead s (4 * k + 1)).toNat <<< 8 + (bufRead s (4 * k + 2)).toNat <<< 16 +
        (bufRead s (4 * k + 3)).toNat <<< 24 ∧
    (s.phase = .idle → ∀ v : Word,
      (∀ j, bufRead (busWrite s (BitVec.ofNat 16 (0x0100 + 4 * k)) v) j =
        if j / 4 = k then BitVec.ofNat 8 (v.toNat >>> (8 * (j % 4))) else bufRead s j) ∧
      busWrite s (BitVec.ofNat 16 (0x0100 + 4 * k)) v =
        { s with buf := (busWrite s (BitVec.ofNat 16 (0x0100 + 4 * k)) v).buf })

/-- R65, R47: the CAP window holds one entry a word, all 32 bits stored as written; a write changes nothing outside CAP. -/
def Obligations.CapWindow : Prop :=
  ∀ (s : State) (k : Nat), k < 4096 →
    busRead s (BitVec.ofNat 16 (0x4000 + 4 * k)) = capRead s k ∧
    (s.phase = .idle → ∀ v : Word,
      (∀ j, capRead (busWrite s (BitVec.ofNat 16 (0x4000 + 4 * k)) v) j = if j = k then v else capRead s j) ∧
      busWrite s (BitVec.ofNat 16 (0x4000 + 4 * k)) v =
        { s with cap := (busWrite s (BitVec.ofNat 16 (0x4000 + 4 * k)) v).cap })

/-- R63: reserved offsets read 0 and ignore writes; no aligned access stops the machine. -/
def Obligations.ReservedOffsetsInert : Prop :=
  (∀ (s : State) (off : Offset) (v : Word), ReservedOffset off →
    busRead s off = 0 ∧ (s.phase = .idle → busWrite s off v = s)) ∧
  (∀ (s : State) (op : HostOp) (rest : List HostOp), s.env.program = op :: rest → ProgramAligned [op] →
    ∃ t, hostStep s = .next t)

/-- R73, R91, R246: HOST's step performs the next operation of its program: a write takes effect on the block; a waiting loop reads STATUS
once, and goes on exactly where the masked value is the wanted one; a wait for the IRQ goes on exactly where the line is asserted. -/
def Obligations.HostStepPerformsOperation : Prop :=
  (∀ (s : State) (off : Offset) (v : Word) (rest : List HostOp), s.env.program = .write off v :: rest → off.toNat % 4 = 0 →
    agentStep .host s = .next (busWrite { s with env := { s.env with program := rest } } off v)) ∧
  (∀ (s : State) (mask want : Word) (rest : List HostOp), s.env.program = .poll mask want :: rest →
    agentStep .host s = .next { s with env := { s.env with
      program := if busRead s 0x0004 &&& mask = want then rest else s.env.program
      readlog := s.env.readlog ++ [(0x0004, busRead s 0x0004)] } }) ∧
  (∀ (s : State) (rest : List HostOp), s.env.program = .waitIrq :: rest →
    agentStep .host s = .next { s with env := { s.env with program := if s.irq = true then rest else s.env.program } })

/-- R68: a read returns the word and changes nothing in the block; only the host's own record goes on. -/
def Obligations.ReadsHaveNoSideEffect : Prop :=
  ∀ (s : State) (off : Offset) (rest : List HostOp), s.env.program = .read off :: rest → off.toNat % 4 = 0 →
    hostStep s = .next { s with env := { s.env with
      program := rest, readlog := s.env.readlog ++ [(off, busRead s off)] } }

/-- R24, R25, R29 to R38: which field each register's offset reads as; and each register reads back the bits of its fields as written,
and reserved bits as 0. -/
def Obligations.RegisterReadback : Prop :=
  (∀ s : State, ∀ x ∈ fieldsRead s.regs, (busRead s x.1).toNat = x.2) ∧
  (∀ (s : State) (v : Word) (off : Offset) (mask : Word), s.phase = .idle → (off, mask) ∈ storedBits →
    (off = 0x0000 → v.getLsbD 0 = false) → busRead (busWrite s off v) off = v &&& mask)

/-- R23 to R25, R29 to R37: which fields a write to each register sets and to what; nothing else in the state changes, and every
other aligned offset reads as before. -/
def Obligations.RegisterWriteFrame : Prop :=
  (∀ (s : State) (v : Word), s.phase = .idle → ∀ x ∈ fieldsWritten s.regs v.toNat,
    (x.1 = 0x0000 → v.getLsbD 0 = false) → busWrite s x.1 v = { s with regs := x.2 }) ∧
  (∀ (s : State) (v : Word) (off off' : Offset) (mask : Word), s.phase = .idle → (off, mask) ∈ storedBits →
    (off = 0x0000 → v.getLsbD 0 = false) → off' ≠ off → off'.toNat % 4 = 0 →
    busRead (busWrite s off v) off' = busRead s off')

/-- R26: what STATUS reads as, field by field; and R28, R27: RESULT and CMD as the host reads and writes them. -/
def Obligations.StatusResultCmdAccess : Prop :=
  (∀ s : State, (busRead s 0x0004).toNat =
    (if s.phase = .idle then 0 else 1) + s.done.toNat <<< 1 + s.ok.toNat <<< 2 + s.ovr.toNat <<< 3 +
      s.caprdy.toNat <<< 4 + s.err.toNat <<< 8) ∧
  (∀ s : State, busRead s 0x0008 = 0 ∧ busRead s 0x000C = s.result) ∧
  (∀ (s : State) (v : Word), s.phase = .idle → busWrite s 0x000C v = s)

/-- R39: CAPLEN stores min(v, 4096), and reads back what it stores; nothing else changes. -/
def Obligations.CaplenWriteClamps : Prop :=
  ∀ (s : State) (v : Word), s.phase = .idle →
    (∃ c : Fin 4097, c.val = min (v.toNat % 2 ^ 13) 4096 ∧
      busWrite s 0x0058 v = { s with regs := { s.regs with caplen := c } }) ∧
    (busRead (busWrite s 0x0058 v) 0x0058).toNat = min (v.toNat % 2 ^ 13) 4096

/-- R242: a soft reset: what it resets, what it keeps, and that a busy block drops it. -/
def Obligations.SoftResetEffect : Prop :=
  (∀ (s : State) (v : Word), s.phase = .idle → v.getLsbD 0 = true →
    busWrite s 0x0000 v = { State.reset with
      buf := s.buf, cap := s.cap, txslot := s.txslot, txlog := s.txlog, env := s.env }) ∧
  (∀ (s : State) (v : Word), s.phase ≠ .idle → busWrite s 0x0000 v = { s with ovr := true })

/-- R52, R240: what the host reads after power-on: the register values of the table, and a draw in every place of BUF and CAP. That
nothing outside the block is loaded is the model's choice (assumption log 3) and no part of this statement. -/
def Obligations.PowerOnState : Prop :=
  (∀ off : Offset, off.toNat % 4 = 0 → off.toNat < 0x0100 →
    busRead State.reset off = if off = 0x0000 then 2 else if off = 0x0038 then 1 else 0) ∧
  State.reset.phase = .idle ∧ State.reset.pend = 0 ∧ State.reset.txslot = none ∧ State.reset.txresult = 0 ∧
  State.reset.txlog = [] ∧ State.reset.irq = false ∧
  (∀ i, bufRead State.reset i = Config.bufDraw i) ∧ (∀ k, capRead State.reset k = Config.capDraw k)

/-- R62: a host address names an offset exactly where it is IRCODEC_BASE plus that offset; so an address outside the window names none. -/
def Obligations.WindowAddresses : Prop :=
  (∀ off : Offset, busAddress off = Config.ircodecBase + off.toNat) ∧
  (∀ (a : Nat) (off : Offset), windowOffset a = some off ↔ a = Config.ircodecBase + off.toNat) ∧
  (∀ a : Nat, windowOffset a = none ↔ ∀ off : Offset, a ≠ Config.ircodecBase + off.toNat)

/-- R71: capture delivery, entry by entry; while the engine is busy the capture is held. -/
def Obligations.CaptureDelivery : Prop :=
  (∀ (s : State) (es : List Pulse) (rest : List (List Pulse)), s.phase = .idle → s.env.offers = es :: rest →
    ∃ t, agentStep .capp s = .next t ∧ t.regs.caplen.val = min es.length 4096 ∧ t.caprdy = true ∧
      (∀ i, i < min es.length 4096 → ∃ e, es[i]? = some e ∧
        (capRead t i).toNat = (if e.level = .mark then 1 else 0) <<< 31 + e.dur.toNat) ∧
      (∀ i, min es.length 4096 ≤ i → capRead t i = capRead s i) ∧
      t = { s with regs := t.regs, cap := t.cap, caprdy := true, env := { s.env with offers := rest } } ∧
      { t.regs with caplen := s.regs.caplen } = s.regs) ∧
  (∀ s : State, s.phase ≠ .idle → agentStep .capp s = .next s)

/-- R75: a read of any offset while PENDING races with the engine step: with the host first it returns the value before the command, with
the engine first the value after it. -/
def Obligations.PendingReadRaces : Prop :=
  ∀ (s t : State) (off : Offset) (rest : List HostOp) (i : Instr), s.phase = .pending → decode s.pend = .ok i →
    s.env.program = .read off :: rest → off.toNat % 4 = 0 →
    exec i { s with env := { s.env with schedule := [.host] } } = .next t →
    (∃ u : State, Host.Core.run core 2 { s with env := { s.env with schedule := [.host, .engine] } } = .next u ∧
      u.env.readlog = s.env.readlog ++ [(off, busRead s off)]) ∧
    (∃ u : State, Host.Core.run core 2 { s with env := { s.env with schedule := [.engine, .host] } } = .next u ∧
      u.env.readlog = s.env.readlog ++ [(off, busRead t off)])

/-! ## Interrupts, errors, whole-machine rules (60_exceptions.md, 70_reset_and_hazards.md) -/

/-- R50, R215: the IRQ line is the OR of the two sources, each STATUS bit gated by its CTRL bit, as the host reads them. -/
def Obligations.IrqIsGatedOr : Prop :=
  ∀ s : State, s.irq =
    ((busRead s 0x0004).getLsbD 1 && (busRead s 0x0000).getLsbD 2 ||
      (busRead s 0x0004).getLsbD 4 && (busRead s 0x0000).getLsbD 3)

/-- R41: PHASE is IDLE after reset, and STATUS.BUSY tells whether it is not; and how it moves, over all agents. It leaves IDLE only for
PENDING, by the host's accepted CMD write; it leaves PENDING only by the engine step, for TXWAIT only by an ENCODE that hands a
transaction over; it leaves TXWAIT only for IDLE, by TXP. -/
def Obligations.PhaseTransitions : Prop :=
  State.reset.phase = .idle ∧
  (∀ s : State, (busRead s 0x0004).getLsbD 0 = true ↔ s.phase ≠ .idle) ∧
  (∀ s t : State, step s = .next t → t.phase ≠ s.phase →
    (s.phase = .idle ∧ t.phase = .pending ∧ turn s = .host ∧
      ∃ w rest, s.env.program = .write 0x0008 w :: rest ∧ t.pend = w ∧ t.done = false) ∨
    (s.phase = .pending ∧ turn s = .engine ∧
      (t.phase = .idle ∨
        (t.phase = .txwait ∧ t.txslot.isSome = true ∧ ∃ n r, decode s.pend = .ok (.encode n r)))) ∨
    (s.phase = .txwait ∧ t.phase = .idle ∧ turn s = .txp))

/-- R76, R245: while a command is in progress no step changes a register, CAP or PEND, and until the engine's step none changes BUF: the
command executes on the state at its acceptance. -/
def Obligations.CommandSeesStateAtAcceptance : Prop :=
  ∀ s t : State, step s = .next t → s.phase ≠ .idle →
    t.regs = s.regs ∧ t.cap = s.cap ∧ t.pend = s.pend ∧
    (turn s ≠ .engine → t.buf = s.buf ∧ (s.phase = .pending → t.err = s.err ∧ t.ok = s.ok ∧ t.result = s.result))

/-- R212: OVR is sticky. Once set, only a host write clears it: a 1 in STATUS bit 3, or a soft reset; and only a host write while busy
sets it. -/
def Obligations.OvrSticky : Prop :=
  ∀ s t : State, step s = .next t → t.ovr ≠ s.ovr →
    turn s = .host ∧ ∃ off v rest, s.env.program = .write off v :: rest ∧
      ((s.ovr = true ∧ ((off = 0x0004 ∧ v.getLsbD 3 = true) ∨
          (off = 0x0000 ∧ v.getLsbD 0 = true ∧ s.phase = .idle))) ∨
        (s.ovr = false ∧ off ≠ 0x0004 ∧ s.phase ≠ .idle))

/-- The invariant holds after power-on (R240, R241). -/
def Obligations.PowerOnMeetsInvariant : Prop :=
  State.reset.Inv

/-- R41, R42, R38, R24 as R241 lists them, with what follows of STATUS and of the transmission in flight: every step of every agent keeps
the invariant, from every state that meets it. -/
def Obligations.StepKeepsInvariant : Prop :=
  ∀ s t : State, s.Inv → step s = .next t → t.Inv

/-- R255: a PENDING command is executed when the ENGINE gets its turn, whatever the other agents do before, and on the registers, BUF
and CAP of now. That the turn comes is assumed of the schedule, not of the machine. That a turn before it whose agent cannot move
passes is the model's choice (assumption log 4). -/
def Obligations.PendingCommandExecutes : Prop :=
  ∀ (s : State) (before after : List Agent), s.env.schedule = before ++ .engine :: after → Agent.engine ∉ before →
    s.phase = .pending → ProgramAligned s.env.program →
    ∃ s' t : State, Host.Core.run core before.length s = .next s' ∧ s'.phase = .pending ∧ s'.pend = s.pend ∧
      s'.regs = s.regs ∧ s'.buf = s.buf ∧ s'.cap = s.cap ∧ turn s' = .engine ∧ step s' = .next t ∧ t.phase ≠ .pending ∧
      ∀ i, decode s.pend = .ok i → exec i (spendTurn s') = .next t

/-- R255: a transaction in TXSLOT is completed when TXP gets its turn, whatever the other agents do before. That a turn
before it whose agent cannot move passes is the model's choice (assumption log 4). -/
def Obligations.TransmissionEnds : Prop :=
  ∀ (s : State) (before after : List Agent), s.env.schedule = before ++ .txp :: after → Agent.txp ∉ before →
    s.phase = .txwait → ProgramAligned s.env.program →
    ∃ t : State, Host.Core.run core (before.length + 1) s = .next t ∧ t.phase = .idle ∧ t.ok = true ∧ t.err = 0 ∧
      t.done = true ∧ t.result = s.txresult ∧ t.txslot = none ∧ t.txlog = s.txlog

/-- R249: without that fairness the block can hang: a schedule that never names TXP leaves TXWAIT as it is for any number of steps.
That a turn whose agent cannot move passes is the model's choice (assumption log 4). -/
def Obligations.TransmissionCanHang : Prop :=
  ∀ (s : State) (sched : List Agent), s.phase = .txwait → ProgramAligned s.env.program → s.env.schedule = sched →
    Agent.txp ∉ sched →
    ∃ t : State, Host.Core.run core sched.length s = .next t ∧ t.phase = .txwait ∧ t.txslot = s.txslot

/-- R255, R254: under a fair schedule a run ends whose host program waits for nothing that cannot come: for BUSY = 0, for DONE of a
command issued, or for the IRQ that IE_DONE lets it raise, and never for CAPRDY. It ends within three rounds of the schedule for each
host operation and two more, whatever the captures and the commands are. The model's choices in it: a turn whose agent cannot
move passes, so a round counts passing turns (assumption log 4), and WAIT is `poll 1 0`, the wait for DONE `poll 2 2`
(assumption log 7). -/
def Obligations.FairRunEnds : Prop :=
  ∀ (s : State) (rounds : List (List Agent)), ProgramEnds s → s.env.schedule = rounds.flatten →
    (∀ r ∈ rounds, IsRound r) → 3 * s.env.program.length + 2 ≤ rounds.length →
    ∃ o : State, runWithin s.env.schedule.length s = .ended o

/-- R254: a run ends at the first state in which the host program has performed its last operation and PHASE = IDLE, and what is
observed is the record of that state, all of R51 with txlog included; what the agents could still do there, such as deliver a
capture, is no part of it. -/
def Obligations.RunEndsAtFirstEnd : Prop :=
  ∀ (n : Nat) (s o : State), runWithin n s = .ended o ↔
    ∃ (k : Nat) (t : State), k ≤ n ∧ Host.Core.run core k s = .next t ∧ t.env.program = [] ∧ t.phase = .idle ∧
      o = { t with env := Env.reset } ∧
      ∀ (j : Nat) (u : State), j < k → Host.Core.run core j s = .next u → ¬(u.env.program = [] ∧ u.phase = .idle)
end

