-- ==== Sys2Proof/Laws/Ram.lean ====
section
/-! SUPPORT. What the RAM operations do: a read after a write, and the canonical form, which every write keeps. -/

namespace Sys2Proof.Machine

variable {w : Nat}

@[simp] theorem Ram.lookup_nil (a : Nat) : Ram.lookup ([] : List (Nat × BitVec w)) a = none := rfl

/-- A list whose indices all lie at or above `lo` holds nothing below `lo`. -/
theorem Ram.lookup_below {n lo : Nat} {m : List (Nat × BitVec w)} (h : Ram.risingFrom n lo m = true) {a : Nat}
    (ha : a < lo) : Ram.lookup m a = none := by
  induction m generalizing lo with
  | nil => rfl
  | cons e rest ih =>
    obtain ⟨k, x⟩ := e
    simp only [Ram.risingFrom, Bool.and_eq_true, decide_eq_true_eq] at h
    have hk : k ≠ a := by omega
    simp only [Ram.lookup, hk, if_false]
    exact ih h.2 (by omega)

theorem Ram.lookup_store_same (m : List (Nat × BitVec w)) (a : Nat) (v : BitVec w) :
    Ram.lookup (Ram.store m a v) a = some v := by
  induction m with
  | nil => simp [Ram.store, Ram.lookup]
  | cons e rest ih =>
    obtain ⟨k, x⟩ := e
    unfold Ram.store
    split
    · simp [Ram.lookup]
    · split
      · simp [Ram.lookup]
      · rename_i h
        have hk : k ≠ a := fun hk => h hk.symm
        simp [Ram.lookup, hk, ih]

theorem Ram.lookup_store_other (m : List (Nat × BitVec w)) {a b : Nat} (v : BitVec w) (h : b ≠ a) :
    Ram.lookup (Ram.store m a v) b = Ram.lookup m b := by
  induction m with
  | nil => simp [Ram.store, Ram.lookup, h.symm]
  | cons e rest ih =>
    obtain ⟨k, x⟩ := e
    unfold Ram.store
    split
    · simp [Ram.lookup, h.symm]
    · split
      · rename_i hk
        subst hk
        simp [Ram.lookup, h.symm]
      · simp [Ram.lookup, ih]

/-- A read after a write. -/
theorem Ram.lookup_store (m : List (Nat × BitVec w)) (a b : Nat) (v : BitVec w) :
    Ram.lookup (Ram.store m a v) b = if b = a then some v else Ram.lookup m b := by
  split
  · rename_i h
    rw [h, Ram.lookup_store_same]
  · rename_i h
    rw [Ram.lookup_store_other _ _ h]

/-- A read after a run of writes. -/
theorem Ram.lookup_storeAll (vs : List (BitVec w)) (m : List (Nat × BitVec w)) (a b : Nat) :
    Ram.lookup (Ram.storeAll m a vs) b = if a ≤ b ∧ b < a + vs.length then vs[b - a]? else Ram.lookup m b := by
  induction vs generalizing m a with
  | nil => simp [Ram.storeAll]
  | cons v vs ih =>
    simp only [Ram.storeAll, ih, Ram.lookup_store, List.length_cons]
    by_cases hb : b = a
    · subst hb
      simp
    · by_cases h : a + 1 ≤ b ∧ b < a + 1 + vs.length
      · have h' : a ≤ b ∧ b < a + (vs.length + 1) := by omega
        have hs : b - a = (b - (a + 1)) + 1 := by omega
        rw [if_pos h, if_pos h', hs, List.getElem?_cons_succ]
      · have h' : ¬(a ≤ b ∧ b < a + (vs.length + 1)) := by omega
        rw [if_neg h, if_neg h', if_neg hb]

theorem Ram.risingFrom_mono {n lo lo' : Nat} {m : List (Nat × BitVec w)} (h : Ram.risingFrom n lo m = true)
    (hlo : lo' ≤ lo) : Ram.risingFrom n lo' m = true := by
  cases m with
  | nil => rfl
  | cons e rest =>
    obtain ⟨k, x⟩ := e
    simp only [Ram.risingFrom, Bool.and_eq_true, decide_eq_true_eq] at h ⊢
    exact ⟨⟨by omega, h.1.2⟩, h.2⟩

theorem Ram.risingFrom_store {n lo : Nat} {m : List (Nat × BitVec w)} (h : Ram.risingFrom n lo m = true) {a : Nat}
    (v : BitVec w) (hlo : lo ≤ a) (hn : a < n) : Ram.risingFrom n lo (Ram.store m a v) = true := by
  induction m generalizing lo with
  | nil => simp [Ram.store, Ram.risingFrom, hlo, hn]
  | cons e rest ih =>
    obtain ⟨k, x⟩ := e
    simp only [Ram.risingFrom, Bool.and_eq_true, decide_eq_true_eq] at h
    obtain ⟨⟨h1, h2⟩, h3⟩ := h
    unfold Ram.store
    split
    · simp only [Ram.risingFrom, Bool.and_eq_true, decide_eq_true_eq]
      exact ⟨⟨hlo, hn⟩, ⟨by omega, h2⟩, h3⟩
    · split
      · rename_i hk
        subst hk
        simp only [Ram.risingFrom, Bool.and_eq_true, decide_eq_true_eq]
        exact ⟨⟨hlo, hn⟩, h3⟩
      · simp only [Ram.risingFrom, Bool.and_eq_true, decide_eq_true_eq]
        exact ⟨⟨h1, h2⟩, ih h3 (by omega)⟩

/-- A write keeps the canonical form. -/
theorem Ram.wf_store {n : Nat} {m : List (Nat × BitVec w)} (h : Ram.wf n m = true) {a : Nat} (v : BitVec w)
    (hn : a < n) : Ram.wf n (Ram.store m a v) = true :=
  Ram.risingFrom_store h v (Nat.zero_le a) hn

/-- A run of writes keeps the canonical form. -/
theorem Ram.wf_storeAll {n : Nat} (vs : List (BitVec w)) {m : List (Nat × BitVec w)} (h : Ram.wf n m = true) {a : Nat}
    (hn : a + vs.length ≤ n) : Ram.wf n (Ram.storeAll m a vs) = true := by
  induction vs generalizing m a with
  | nil => exact h
  | cons v vs ih =>
    simp only [List.length_cons] at hn
    exact ih (Ram.wf_store h v (by omega)) (by omega)

/-- Two lists in canonical form that hold the same at every index are the same list. -/
theorem Ram.ext {n lo : Nat} {m m' : List (Nat × BitVec w)} (h : Ram.risingFrom n lo m = true)
    (h' : Ram.risingFrom n lo m' = true) (heq : ∀ a, Ram.lookup m a = Ram.lookup m' a) : m = m' := by
  induction m generalizing lo m' with
  | nil =>
    cases m' with
    | nil => rfl
    | cons e rest =>
      have := heq e.1
      simp [Ram.lookup] at this
  | cons e rest ih =>
    obtain ⟨k, x⟩ := e
    cases m' with
    | nil =>
      have := heq k
      simp [Ram.lookup] at this
    | cons e' rest' =>
      obtain ⟨k', x'⟩ := e'
      simp only [Ram.risingFrom, Bool.and_eq_true, decide_eq_true_eq] at h h'
      have hk : k = k' := by
        rcases Nat.lt_trichotomy k k' with hlt | heq' | hgt
        · have := heq k
          rw [Ram.lookup, if_pos rfl, Ram.lookup, if_neg (by omega), Ram.lookup_below h'.2 (by omega)] at this
          cases this
        · exact heq'
        · have := heq k'
          rw [Ram.lookup, if_neg (by omega), Ram.lookup_below h.2 (by omega), Ram.lookup, if_pos rfl] at this
          cases this
      subst hk
      have hx : x = x' := by
        have := heq k
        simpa [Ram.lookup] using this
      subst hx
      congr 1
      refine ih h.2 h'.2 fun a => ?_
      by_cases ha : a = k
      · subst ha
        rw [Ram.lookup_below h.2 (by omega), Ram.lookup_below h'.2 (by omega)]
      · have := heq a
        simpa [Ram.lookup, Ne.symm ha] using this

end Sys2Proof.Machine
end

