-- ==== Sys2Proof/Laws/State.lean ====
section
/-! SUPPORT. One lemma per field and operation on the state, each true by rfl, so that no proof unfolds a record update. -/

namespace Sys2Proof.Machine

@[simp] theorem complete_regs (e : Err) (r : Word) (s : State) : (complete e r s).regs = s.regs := rfl
@[simp] theorem complete_done (e : Err) (r : Word) (s : State) : (complete e r s).done = true := rfl
@[simp] theorem complete_ok (e : Err) (r : Word) (s : State) : (complete e r s).ok = decide (e = .none) := rfl
@[simp] theorem complete_ovr (e : Err) (r : Word) (s : State) : (complete e r s).ovr = s.ovr := rfl
@[simp] theorem complete_caprdy (e : Err) (r : Word) (s : State) : (complete e r s).caprdy = s.caprdy := rfl
@[simp] theorem complete_err (e : Err) (r : Word) (s : State) : (complete e r s).err = e.code := rfl
@[simp] theorem complete_result (e : Err) (r : Word) (s : State) : (complete e r s).result = (if e = .none then r else 0) := rfl
@[simp] theorem complete_buf (e : Err) (r : Word) (s : State) : (complete e r s).buf = s.buf := rfl
@[simp] theorem complete_cap (e : Err) (r : Word) (s : State) : (complete e r s).cap = s.cap := rfl
@[simp] theorem complete_phase (e : Err) (r : Word) (s : State) : (complete e r s).phase = .idle := rfl
@[simp] theorem complete_pend (e : Err) (r : Word) (s : State) : (complete e r s).pend = s.pend := rfl
@[simp] theorem complete_txslot (e : Err) (r : Word) (s : State) : (complete e r s).txslot = s.txslot := rfl
@[simp] theorem complete_txresult (e : Err) (r : Word) (s : State) : (complete e r s).txresult = s.txresult := rfl
@[simp] theorem complete_txlog (e : Err) (r : Word) (s : State) : (complete e r s).txlog = s.txlog := rfl
@[simp] theorem complete_env (e : Err) (r : Word) (s : State) : (complete e r s).env = s.env := rfl

@[simp] theorem accept_regs (v : Word) (s : State) : (accept v s).regs = s.regs := rfl
@[simp] theorem accept_done (v : Word) (s : State) : (accept v s).done = false := rfl
@[simp] theorem accept_ok (v : Word) (s : State) : (accept v s).ok = s.ok := rfl
@[simp] theorem accept_ovr (v : Word) (s : State) : (accept v s).ovr = s.ovr := rfl
@[simp] theorem accept_caprdy (v : Word) (s : State) : (accept v s).caprdy = s.caprdy := rfl
@[simp] theorem accept_err (v : Word) (s : State) : (accept v s).err = s.err := rfl
@[simp] theorem accept_result (v : Word) (s : State) : (accept v s).result = s.result := rfl
@[simp] theorem accept_buf (v : Word) (s : State) : (accept v s).buf = s.buf := rfl
@[simp] theorem accept_cap (v : Word) (s : State) : (accept v s).cap = s.cap := rfl
@[simp] theorem accept_phase (v : Word) (s : State) : (accept v s).phase = .pending := rfl
@[simp] theorem accept_pend (v : Word) (s : State) : (accept v s).pend = v := rfl
@[simp] theorem accept_txslot (v : Word) (s : State) : (accept v s).txslot = s.txslot := rfl
@[simp] theorem accept_txresult (v : Word) (s : State) : (accept v s).txresult = s.txresult := rfl
@[simp] theorem accept_txlog (v : Word) (s : State) : (accept v s).txlog = s.txlog := rfl
@[simp] theorem accept_env (v : Word) (s : State) : (accept v s).env = s.env := rfl

@[simp] theorem handoff_regs (t : Txn) (s : State) : (handoff t s).regs = s.regs := rfl
@[simp] theorem handoff_done (t : Txn) (s : State) : (handoff t s).done = s.done := rfl
@[simp] theorem handoff_ok (t : Txn) (s : State) : (handoff t s).ok = s.ok := rfl
@[simp] theorem handoff_ovr (t : Txn) (s : State) : (handoff t s).ovr = s.ovr := rfl
@[simp] theorem handoff_caprdy (t : Txn) (s : State) : (handoff t s).caprdy = s.caprdy := rfl
@[simp] theorem handoff_err (t : Txn) (s : State) : (handoff t s).err = s.err := rfl
@[simp] theorem handoff_result (t : Txn) (s : State) : (handoff t s).result = s.result := rfl
@[simp] theorem handoff_buf (t : Txn) (s : State) : (handoff t s).buf = s.buf := rfl
@[simp] theorem handoff_cap (t : Txn) (s : State) : (handoff t s).cap = s.cap := rfl
@[simp] theorem handoff_phase (t : Txn) (s : State) : (handoff t s).phase = .txwait := rfl
@[simp] theorem handoff_pend (t : Txn) (s : State) : (handoff t s).pend = s.pend := rfl
@[simp] theorem handoff_txslot (t : Txn) (s : State) : (handoff t s).txslot = some t := rfl
@[simp] theorem handoff_txresult (t : Txn) (s : State) : (handoff t s).txresult = BitVec.ofNat 32 t.pulses.length := rfl
@[simp] theorem handoff_txlog (t : Txn) (s : State) : (handoff t s).txlog = s.txlog ++ [t] := rfl
@[simp] theorem handoff_env (t : Txn) (s : State) : (handoff t s).env = s.env := rfl

@[simp] theorem softReset_regs (s : State) : (softReset s).regs = Regs.reset := rfl
@[simp] theorem softReset_done (s : State) : (softReset s).done = false := rfl
@[simp] theorem softReset_ok (s : State) : (softReset s).ok = false := rfl
@[simp] theorem softReset_ovr (s : State) : (softReset s).ovr = false := rfl
@[simp] theorem softReset_caprdy (s : State) : (softReset s).caprdy = false := rfl
@[simp] theorem softReset_err (s : State) : (softReset s).err = 0 := rfl
@[simp] theorem softReset_result (s : State) : (softReset s).result = 0 := rfl
@[simp] theorem softReset_buf (s : State) : (softReset s).buf = s.buf := rfl
@[simp] theorem softReset_cap (s : State) : (softReset s).cap = s.cap := rfl
@[simp] theorem softReset_phase (s : State) : (softReset s).phase = s.phase := rfl
@[simp] theorem softReset_pend (s : State) : (softReset s).pend = 0 := rfl
@[simp] theorem softReset_txslot (s : State) : (softReset s).txslot = s.txslot := rfl
@[simp] theorem softReset_txresult (s : State) : (softReset s).txresult = 0 := rfl
@[simp] theorem softReset_txlog (s : State) : (softReset s).txlog = s.txlog := rfl
@[simp] theorem softReset_env (s : State) : (softReset s).env = s.env := rfl

@[simp] theorem bufWrite_regs (s : State) (i : Nat) (v : Byte) : (bufWrite s i v).regs = s.regs := rfl
@[simp] theorem bufWrite_done (s : State) (i : Nat) (v : Byte) : (bufWrite s i v).done = s.done := rfl
@[simp] theorem bufWrite_ok (s : State) (i : Nat) (v : Byte) : (bufWrite s i v).ok = s.ok := rfl
@[simp] theorem bufWrite_ovr (s : State) (i : Nat) (v : Byte) : (bufWrite s i v).ovr = s.ovr := rfl
@[simp] theorem bufWrite_caprdy (s : State) (i : Nat) (v : Byte) : (bufWrite s i v).caprdy = s.caprdy := rfl
@[simp] theorem bufWrite_err (s : State) (i : Nat) (v : Byte) : (bufWrite s i v).err = s.err := rfl
@[simp] theorem bufWrite_result (s : State) (i : Nat) (v : Byte) : (bufWrite s i v).result = s.result := rfl
@[simp] theorem bufWrite_buf (s : State) (i : Nat) (v : Byte) : (bufWrite s i v).buf = Ram.store s.buf i v := rfl
@[simp] theorem bufWrite_cap (s : State) (i : Nat) (v : Byte) : (bufWrite s i v).cap = s.cap := rfl
@[simp] theorem bufWrite_phase (s : State) (i : Nat) (v : Byte) : (bufWrite s i v).phase = s.phase := rfl
@[simp] theorem bufWrite_pend (s : State) (i : Nat) (v : Byte) : (bufWrite s i v).pend = s.pend := rfl
@[simp] theorem bufWrite_txslot (s : State) (i : Nat) (v : Byte) : (bufWrite s i v).txslot = s.txslot := rfl
@[simp] theorem bufWrite_txresult (s : State) (i : Nat) (v : Byte) : (bufWrite s i v).txresult = s.txresult := rfl
@[simp] theorem bufWrite_txlog (s : State) (i : Nat) (v : Byte) : (bufWrite s i v).txlog = s.txlog := rfl
@[simp] theorem bufWrite_env (s : State) (i : Nat) (v : Byte) : (bufWrite s i v).env = s.env := rfl

@[simp] theorem bufWriteAll_regs (s : State) (i : Nat) (vs : List Byte) : (bufWriteAll s i vs).regs = s.regs := rfl
@[simp] theorem bufWriteAll_done (s : State) (i : Nat) (vs : List Byte) : (bufWriteAll s i vs).done = s.done := rfl
@[simp] theorem bufWriteAll_ok (s : State) (i : Nat) (vs : List Byte) : (bufWriteAll s i vs).ok = s.ok := rfl
@[simp] theorem bufWriteAll_ovr (s : State) (i : Nat) (vs : List Byte) : (bufWriteAll s i vs).ovr = s.ovr := rfl
@[simp] theorem bufWriteAll_caprdy (s : State) (i : Nat) (vs : List Byte) : (bufWriteAll s i vs).caprdy = s.caprdy := rfl
@[simp] theorem bufWriteAll_err (s : State) (i : Nat) (vs : List Byte) : (bufWriteAll s i vs).err = s.err := rfl
@[simp] theorem bufWriteAll_result (s : State) (i : Nat) (vs : List Byte) : (bufWriteAll s i vs).result = s.result := rfl
@[simp] theorem bufWriteAll_buf (s : State) (i : Nat) (vs : List Byte) : (bufWriteAll s i vs).buf = Ram.storeAll s.buf i vs := rfl
@[simp] theorem bufWriteAll_cap (s : State) (i : Nat) (vs : List Byte) : (bufWriteAll s i vs).cap = s.cap := rfl
@[simp] theorem bufWriteAll_phase (s : State) (i : Nat) (vs : List Byte) : (bufWriteAll s i vs).phase = s.phase := rfl
@[simp] theorem bufWriteAll_pend (s : State) (i : Nat) (vs : List Byte) : (bufWriteAll s i vs).pend = s.pend := rfl
@[simp] theorem bufWriteAll_txslot (s : State) (i : Nat) (vs : List Byte) : (bufWriteAll s i vs).txslot = s.txslot := rfl
@[simp] theorem bufWriteAll_txresult (s : State) (i : Nat) (vs : List Byte) : (bufWriteAll s i vs).txresult = s.txresult := rfl
@[simp] theorem bufWriteAll_txlog (s : State) (i : Nat) (vs : List Byte) : (bufWriteAll s i vs).txlog = s.txlog := rfl
@[simp] theorem bufWriteAll_env (s : State) (i : Nat) (vs : List Byte) : (bufWriteAll s i vs).env = s.env := rfl

@[simp] theorem capWrite_regs (s : State) (i : Nat) (v : Word) : (capWrite s i v).regs = s.regs := rfl
@[simp] theorem capWrite_done (s : State) (i : Nat) (v : Word) : (capWrite s i v).done = s.done := rfl
@[simp] theorem capWrite_ok (s : State) (i : Nat) (v : Word) : (capWrite s i v).ok = s.ok := rfl
@[simp] theorem capWrite_ovr (s : State) (i : Nat) (v : Word) : (capWrite s i v).ovr = s.ovr := rfl
@[simp] theorem capWrite_caprdy (s : State) (i : Nat) (v : Word) : (capWrite s i v).caprdy = s.caprdy := rfl
@[simp] theorem capWrite_err (s : State) (i : Nat) (v : Word) : (capWrite s i v).err = s.err := rfl
@[simp] theorem capWrite_result (s : State) (i : Nat) (v : Word) : (capWrite s i v).result = s.result := rfl
@[simp] theorem capWrite_buf (s : State) (i : Nat) (v : Word) : (capWrite s i v).buf = s.buf := rfl
@[simp] theorem capWrite_cap (s : State) (i : Nat) (v : Word) : (capWrite s i v).cap = Ram.store s.cap i v := rfl
@[simp] theorem capWrite_phase (s : State) (i : Nat) (v : Word) : (capWrite s i v).phase = s.phase := rfl
@[simp] theorem capWrite_pend (s : State) (i : Nat) (v : Word) : (capWrite s i v).pend = s.pend := rfl
@[simp] theorem capWrite_txslot (s : State) (i : Nat) (v : Word) : (capWrite s i v).txslot = s.txslot := rfl
@[simp] theorem capWrite_txresult (s : State) (i : Nat) (v : Word) : (capWrite s i v).txresult = s.txresult := rfl
@[simp] theorem capWrite_txlog (s : State) (i : Nat) (v : Word) : (capWrite s i v).txlog = s.txlog := rfl
@[simp] theorem capWrite_env (s : State) (i : Nat) (v : Word) : (capWrite s i v).env = s.env := rfl

@[simp] theorem deliver_regs (es : List Pulse) (s : State) : (deliver es s).regs = { s.regs with caplen := ⟨min es.length 4096, by omega⟩ } := rfl
@[simp] theorem deliver_done (es : List Pulse) (s : State) : (deliver es s).done = s.done := rfl
@[simp] theorem deliver_ok (es : List Pulse) (s : State) : (deliver es s).ok = s.ok := rfl
@[simp] theorem deliver_ovr (es : List Pulse) (s : State) : (deliver es s).ovr = s.ovr := rfl
@[simp] theorem deliver_caprdy (es : List Pulse) (s : State) : (deliver es s).caprdy = true := rfl
@[simp] theorem deliver_err (es : List Pulse) (s : State) : (deliver es s).err = s.err := rfl
@[simp] theorem deliver_result (es : List Pulse) (s : State) : (deliver es s).result = s.result := rfl
@[simp] theorem deliver_buf (es : List Pulse) (s : State) : (deliver es s).buf = s.buf := rfl
@[simp] theorem deliver_cap (es : List Pulse) (s : State) : (deliver es s).cap = Ram.storeAll s.cap 0 ((es.take 4096).map Pulse.entry) := rfl
@[simp] theorem deliver_phase (es : List Pulse) (s : State) : (deliver es s).phase = s.phase := rfl
@[simp] theorem deliver_pend (es : List Pulse) (s : State) : (deliver es s).pend = s.pend := rfl
@[simp] theorem deliver_txslot (es : List Pulse) (s : State) : (deliver es s).txslot = s.txslot := rfl
@[simp] theorem deliver_txresult (es : List Pulse) (s : State) : (deliver es s).txresult = s.txresult := rfl
@[simp] theorem deliver_txlog (es : List Pulse) (s : State) : (deliver es s).txlog = s.txlog := rfl
@[simp] theorem deliver_env (es : List Pulse) (s : State) : (deliver es s).env = s.env := rfl

@[simp] theorem setProgram_regs (s : State) (p : List HostOp) : (setProgram s p).regs = s.regs := rfl
@[simp] theorem setProgram_done (s : State) (p : List HostOp) : (setProgram s p).done = s.done := rfl
@[simp] theorem setProgram_ok (s : State) (p : List HostOp) : (setProgram s p).ok = s.ok := rfl
@[simp] theorem setProgram_ovr (s : State) (p : List HostOp) : (setProgram s p).ovr = s.ovr := rfl
@[simp] theorem setProgram_caprdy (s : State) (p : List HostOp) : (setProgram s p).caprdy = s.caprdy := rfl
@[simp] theorem setProgram_err (s : State) (p : List HostOp) : (setProgram s p).err = s.err := rfl
@[simp] theorem setProgram_result (s : State) (p : List HostOp) : (setProgram s p).result = s.result := rfl
@[simp] theorem setProgram_buf (s : State) (p : List HostOp) : (setProgram s p).buf = s.buf := rfl
@[simp] theorem setProgram_cap (s : State) (p : List HostOp) : (setProgram s p).cap = s.cap := rfl
@[simp] theorem setProgram_phase (s : State) (p : List HostOp) : (setProgram s p).phase = s.phase := rfl
@[simp] theorem setProgram_pend (s : State) (p : List HostOp) : (setProgram s p).pend = s.pend := rfl
@[simp] theorem setProgram_txslot (s : State) (p : List HostOp) : (setProgram s p).txslot = s.txslot := rfl
@[simp] theorem setProgram_txresult (s : State) (p : List HostOp) : (setProgram s p).txresult = s.txresult := rfl
@[simp] theorem setProgram_txlog (s : State) (p : List HostOp) : (setProgram s p).txlog = s.txlog := rfl
@[simp] theorem setProgram_env (s : State) (p : List HostOp) : (setProgram s p).env = { s.env with program := p } := rfl

@[simp] theorem recordRead_regs (s : State) (off : Offset) : (recordRead s off).regs = s.regs := rfl
@[simp] theorem recordRead_done (s : State) (off : Offset) : (recordRead s off).done = s.done := rfl
@[simp] theorem recordRead_ok (s : State) (off : Offset) : (recordRead s off).ok = s.ok := rfl
@[simp] theorem recordRead_ovr (s : State) (off : Offset) : (recordRead s off).ovr = s.ovr := rfl
@[simp] theorem recordRead_caprdy (s : State) (off : Offset) : (recordRead s off).caprdy = s.caprdy := rfl
@[simp] theorem recordRead_err (s : State) (off : Offset) : (recordRead s off).err = s.err := rfl
@[simp] theorem recordRead_result (s : State) (off : Offset) : (recordRead s off).result = s.result := rfl
@[simp] theorem recordRead_buf (s : State) (off : Offset) : (recordRead s off).buf = s.buf := rfl
@[simp] theorem recordRead_cap (s : State) (off : Offset) : (recordRead s off).cap = s.cap := rfl
@[simp] theorem recordRead_phase (s : State) (off : Offset) : (recordRead s off).phase = s.phase := rfl
@[simp] theorem recordRead_pend (s : State) (off : Offset) : (recordRead s off).pend = s.pend := rfl
@[simp] theorem recordRead_txslot (s : State) (off : Offset) : (recordRead s off).txslot = s.txslot := rfl
@[simp] theorem recordRead_txresult (s : State) (off : Offset) : (recordRead s off).txresult = s.txresult := rfl
@[simp] theorem recordRead_txlog (s : State) (off : Offset) : (recordRead s off).txlog = s.txlog := rfl
@[simp] theorem recordRead_env (s : State) (off : Offset) : (recordRead s off).env = { s.env with readlog := s.env.readlog ++ [(off, busRead s off)] } := rfl

end Sys2Proof.Machine
end

