-- ==== Sys2Proof/Laws/Ops.lean ====
section
/-! SUPPORT. What the shared operations do: reads of BUF and CAP after writes, the pair transform, the checksum, the frame of
an ENCODE, and once and for all what a command can do to the state. -/

namespace Sys2Proof.Machine

/-! Reads after writes. -/

theorem bufRead_congr {s t : State} (h : t.buf = s.buf) (i : Nat) : bufRead t i = bufRead s i := by
  simp [bufRead, h]

theorem capRead_congr {s t : State} (h : t.cap = s.cap) (i : Nat) : capRead t i = capRead s i := by
  simp [capRead, h]

@[simp] theorem bufRead_complete (e : Err) (r : Word) (s : State) (i : Nat) :
    bufRead (complete e r s) i = bufRead s i := rfl

@[simp] theorem capRead_complete (e : Err) (r : Word) (s : State) (i : Nat) :
    capRead (complete e r s) i = capRead s i := rfl

@[simp] theorem bufRead_handoff (x : Txn) (s : State) (i : Nat) : bufRead (handoff x s) i = bufRead s i := rfl

theorem bufRead_bufWrite (s : State) (i j : Nat) (v : Byte) :
    bufRead (bufWrite s i v) j = if j = i then v else bufRead s j := by
  simp only [bufRead, bufWrite_buf, Ram.lookup_store]
  split <;> rfl

theorem bufRead_bufWriteAll (s : State) (i j : Nat) (vs : List Byte) :
    bufRead (bufWriteAll s i vs) j = if i ≤ j ∧ j < i + vs.length then vs.getD (j - i) 0 else bufRead s j := by
  simp only [bufRead, bufWriteAll_buf, Ram.lookup_storeAll]
  split
  · rename_i h
    have hj : j - i < vs.length := by omega
    simp [List.getElem?_eq_getElem hj]
  · rfl

theorem capRead_capWrite (s : State) (i j : Nat) (v : Word) :
    capRead (capWrite s i v) j = if j = i then v else capRead s j := by
  simp only [capRead, capWrite_cap, Ram.lookup_store]
  split <;> rfl

theorem capRead_deliver (es : List Pulse) (s : State) (j : Nat) :
    capRead (deliver es s) j =
      if j < min es.length 4096 then ((es.take 4096).map Pulse.entry).getD j 0 else capRead s j := by
  simp only [capRead, deliver_cap, Ram.lookup_storeAll, List.length_map, List.length_take]
  by_cases h : j < min 4096 es.length
  · have h1 : 0 ≤ j ∧ j < 0 + min 4096 es.length := by omega
    have h2 : j < min es.length 4096 := by omega
    rw [if_pos h1, if_pos h2]
    have hj : j < ((es.take 4096).map Pulse.entry).length := by simp; omega
    simp only [Nat.sub_zero]
    rw [List.getElem?_eq_getElem hj, List.getD_eq_getElem?_getD, List.getElem?_eq_getElem hj]
    rfl
  · have h1 : ¬(0 ≤ j ∧ j < 0 + min 4096 es.length) := by omega
    have h2 : ¬j < min es.length 4096 := by omega
    rw [if_neg h1, if_neg h2]

/-! The pair transform (R140). -/

/-- The pair transform changes BUF alone. -/
theorem foldl_bufWrite_frame (l : List Nat) (f : Nat → Nat) (g : State → Nat → Byte) (s : State) :
    ∃ b, l.foldl (fun t i => bufWrite t (f i) (g t i)) s = { s with buf := b } := by
  induction l generalizing s with
  | nil => exact ⟨s.buf, rfl⟩
  | cons i l ih =>
    obtain ⟨b, hb⟩ := ih (bufWrite s (f i) (g s i))
    exact ⟨b, hb⟩

theorem invPairs_frame (s : State) (p : Nat) : ∃ b, invPairs s p = { s with buf := b } :=
  foldl_bufWrite_frame _ _ _ s

theorem invPairs_wf {n : Nat} {s : State} (p : Nat) (h : Ram.wf n s.buf = true) (hp : p ≤ n) :
    Ram.wf n (invPairs s p).buf = true := by
  unfold invPairs
  suffices H : ∀ (l : List Nat) (t : State), (∀ i ∈ l, 2 * i + 1 < n) → Ram.wf n t.buf = true →
      Ram.wf n (l.foldl (fun t i => bufWrite t (2 * i + 1) (~~~ bufRead t (2 * i))) t).buf = true by
    refine H _ s (fun i hi => ?_) h
    have := List.mem_range.mp hi
    omega
  intro l
  induction l with
  | nil => exact fun _ _ h => h
  | cons i l ih =>
    intro t hl ht
    exact ih _ (fun j hj => hl j (List.mem_cons_of_mem _ hj)) (Ram.wf_store ht _ (hl i List.mem_cons_self))

/-- What each byte is after the pair transform: an odd index below P holds the complement of its even partner. -/
theorem bufRead_invPairs (s : State) (p j : Nat) :
    bufRead (invPairs s p) j = if j % 2 = 1 ∧ j < p then ~~~ bufRead s (j - 1) else bufRead s j := by
  suffices H : ∀ m, bufRead ((List.range m).foldl (fun t i => bufWrite t (2 * i + 1) (~~~ bufRead t (2 * i))) s) j =
      if j % 2 = 1 ∧ j < 2 * m then ~~~ bufRead s (j - 1) else bufRead s j by
    rw [invPairs, H]
    by_cases h : j % 2 = 1
    · have : (j < 2 * (p / 2)) ↔ j < p := by omega
      simp [h, this]
    · simp [h]
  intro m
  induction m generalizing j with
  | zero => simp
  | succ m ih =>
    rw [List.range_succ, List.foldl_append, List.foldl_cons, List.foldl_nil, bufRead_bufWrite]
    by_cases hj : j = 2 * m + 1
    · subst hj
      rw [if_pos rfl, if_pos (by omega), ih, if_neg (by omega)]
      rfl
    · rw [if_neg hj, ih]
      by_cases h : j % 2 = 1 ∧ j < 2 * m
      · rw [if_pos h, if_pos (by omega)]
      · rw [if_neg h, if_neg (by omega)]

theorem pairsOK_iff (s : State) (p : Nat) :
    pairsOK s p = true ↔ ∀ j, j % 2 = 1 → j < p → bufRead s j = ~~~ bufRead s (j - 1) := by
  simp only [pairsOK, List.all_eq_true, List.mem_range, decide_eq_true_eq]
  constructor
  · intro h j h1 h2
    have := h (j / 2) (by omega)
    have e1 : 2 * (j / 2) + 1 = j := by omega
    have e2 : 2 * (j / 2) = j - 1 := by omega
    rwa [e1, e2] at this
  · intro h i hi
    exact h (2 * i + 1) (by omega) (by omega)

/-! The checksum (R136). -/

theorem calcSum_congr {s t : State} {len : Nat} (h : ∀ j, j + 1 < len → bufRead t j = bufRead s j) :
    calcSum t len = calcSum s len := by
  unfold calcSum
  congr 1
  refine List.map_congr_left fun j hj => h j ?_
  have := List.mem_range.mp hj
  omega

theorem calcSum_succ (s : State) (len : Nat) (h : 1 ≤ len) :
    calcSum s (len + 1) = calcSum s len ^^^ bufRead s (len - 1) := by
  unfold calcSum
  have e : len + 1 - 1 = (len - 1) + 1 := by omega
  rw [e, List.range_succ, List.map_append, List.foldl_append]
  rfl

theorem calcSum_one (s : State) : calcSum s 1 = 0 := rfl

theorem calcSum_zero (s : State) : calcSum s 0 = 0 := rfl

/-! The candidate of a decode (R189). -/

@[simp] theorem candBytes_length (bits : List Bool) : (candBytes bits).length = ceil8 bits.length := by
  simp [candBytes]

theorem ceil8_le {n : Nat} (h : n ≤ 2048) : ceil8 n ≤ 256 := by
  unfold ceil8
  omega

theorem decodeBits_length {s : State} {i n : Nat} {bits : List Bool} (h : decodeBits s i n = .ok bits) :
    bits.length = n := by
  induction n generalizing i bits with
  | zero =>
    simp only [decodeBits, Except.ok.injEq] at h
    subst h
    rfl
  | succ n ih =>
    rw [decodeBits] at h
    split at h
    · cases h
    · split at h
      · cases h
      · rename_i bs hbs
        cases h
        simp [ih hbs]

theorem decodeEntries_length {s : State} {n o i : Nat} {bits : List Bool} (h : decodeEntries s n o = .ok (bits, i)) :
    bits.length = n := by
  unfold decodeEntries at h
  repeat (split at h; · cases h)
  cases h
  exact decodeBits_length (by assumption)

/-- A decode whose checks pass has at most 2048 bits, and its candidate fills the frame's bytes. -/
theorem decodeFrame_ok {s : State} {n o used : Nat} {strict : Bool} {cand : List Byte}
    (h : decodeFrame s n o strict = .ok (cand, used)) : n ≤ 2048 ∧ cand.length = ceil8 n := by
  unfold decodeFrame at h
  split at h
  · cases h
  · rename_i hn
    repeat (split at h; · cases h)
    cases h
    exact ⟨by omega, by rw [candBytes_length, decodeEntries_length (by assumption)]⟩

/-- An error that a command reports of itself: neither success nor ERR_ILLEGAL, which the decoder of command words gives. -/
abbrev Err.IsFailure (e : Err) : Prop :=
  e ≠ .none ∧ e ≠ .illegal

theorem checkEntry_failure {s : State} {i : Nat} {l : Level} {b : Bool} {e e' : Err} (he : e.IsFailure)
    (h : checkEntry s i l b e = .error e') : e'.IsFailure := by
  unfold checkEntry at h
  split at h
  · cases h
    decide
  · split at h
    · cases h
    · cases h
      exact he

theorem decodeBit_failure {s : State} {i : Nat} {e : Err} (h : decodeBit s i = .error e) : e.IsFailure := by
  unfold decodeBit at h
  split at h
  · rename_i hc
    cases h
    exact checkEntry_failure (by decide) hc
  · split at h
    · cases h
      decide
    · split at h
      · cases h
        decide
      · split at h
        · cases h
        · cases h
          decide

theorem decodeBits_failure {s : State} {i n : Nat} {e : Err} (h : decodeBits s i n = .error e) : e.IsFailure := by
  induction n generalizing i with
  | zero => cases h
  | succ n ih =>
    rw [decodeBits] at h
    split at h
    · rename_i hb
      cases h
      exact decodeBit_failure hb
    · split at h
      · rename_i hb
        cases h
        exact ih hb
      · cases h

theorem decodeGap_failure {s : State} {i : Nat} {e : Err} (h : decodeGap s i = .error e) : e.IsFailure := by
  unfold decodeGap at h
  split at h
  · split at h
    · rename_i hc
      cases h
      exact checkEntry_failure (by decide) hc
    · cases h
  · split at h
    · cases h
    · cases h
      decide

theorem decodeEntries_failure {s : State} {n o : Nat} {e : Err} (h : decodeEntries s n o = .error e) : e.IsFailure := by
  unfold decodeEntries at h
  split at h
  · rename_i hc
    cases h
    exact checkEntry_failure (by decide) hc
  · split at h
    · rename_i hc
      cases h
      exact checkEntry_failure (by decide) hc
    · split at h
      · rename_i hb
        cases h
        exact decodeBits_failure hb
      · split at h
        · rename_i hc
          cases h
          exact checkEntry_failure (by decide) hc
        · split at h
          · rename_i hg
            cases h
            exact decodeGap_failure hg
          · cases h

/-- A decode that fails names an error. -/
theorem decodeFrame_failure {s : State} {n o : Nat} {strict : Bool} {e : Err}
    (h : decodeFrame s n o strict = .error e) : e.IsFailure := by
  unfold decodeFrame at h
  repeat
    split at h
    · cases h
      decide
  split at h
  · rename_i he
    cases h
    exact decodeEntries_failure he
  · split at h
    · cases h
      decide
    · cases h

/-! What a command can do. -/

/-- The step of a command has three forms. It ends in error and writes nothing. Or it succeeds, writing at most BUF, whose
canonical form it keeps. Or it is an ENCODE that hands over a transaction. -/
inductive Effect (i : Instr) (s : State) : State → Prop where
  | failed (e : Err) (he : e.IsFailure) : Effect i s (complete e 0 s)
  | succeeded (r : Word) (b : List Host.Cell) (hb : Ram.wf 256 s.buf = true → Ram.wf 256 b = true) :
      Effect i s (complete .none r { s with buf := b })
  | handedOff (nbits : BitVec 12) (rep : BitVec 8) (hi : i = .encode nbits rep)
      (hp : encProfileOK s.regs rep.toNat = true) :
      Effect i s (handoff ⟨s.regs.carrier, transmission s nbits.toNat rep.toNat⟩ s)

/-- Every command answers a next state, of one of the three forms. -/
theorem exec_effect (i : Instr) (s : State) : ∃ t, exec i s = .next t ∧ Effect i s t := by
  have keep : ∀ r, Effect i s (complete .none r s) := fun r => .succeeded r s.buf id
  cases i with
  | nop => exact ⟨_, rfl, keep _⟩
  | getbits b o w =>
    simp only [exec, execGetbits]
    split
    · exact ⟨_, rfl, .failed .arg (by decide)⟩
    · exact ⟨_, rfl, keep _⟩
  | setbits b o w v =>
    simp only [exec, execSetbits]
    split
    · exact ⟨_, rfl, .failed .arg (by decide)⟩
    · exact ⟨_, rfl, .succeeded _ _ fun h => Ram.wf_store h _ b.isLt⟩
  | calcchk l =>
    simp only [exec, execCalcchk]
    split
    · exact ⟨_, rfl, .failed .arg (by decide)⟩
    · exact ⟨_, rfl, keep _⟩
  | validchk l =>
    simp only [exec, execValidchk]
    split
    · exact ⟨_, rfl, .failed .arg (by decide)⟩
    · exact ⟨_, rfl, keep _⟩
  | invpairs l =>
    simp only [exec, execInvpairs]
    split
    · exact ⟨_, rfl, .failed .arg (by decide)⟩
    · rename_i hl
      obtain ⟨b, hb⟩ := invPairs_frame s l.toNat
      refine ⟨_, rfl, ?_⟩
      have hw := fun h => invPairs_wf (n := 256) (s := s) l.toNat h (by omega)
      rw [hb] at hw ⊢
      exact .succeeded _ b hw
  | finalize l =>
    simp only [exec, execFinalize]
    split
    · rename_i hf
      simp only [finalizeOK, Bool.and_eq_true, Bool.not_eq_true', decide_eq_false_iff_not, Bool.and_eq_false_imp] at hf
      refine ⟨_, rfl, ?_⟩
      have hwl : ∃ b, writeLength s l.toNat = { s with buf := b } ∧
          (Ram.wf 256 s.buf = true → Ram.wf 256 b = true) := by
        unfold writeLength
        split
        · exact ⟨_, rfl, fun h => Ram.wf_store h _ s.regs.lenidx.isLt⟩
        · exact ⟨s.buf, rfl, id⟩
      obtain ⟨b, hb, hbw⟩ := hwl
      have hw : Ram.wf 256 s.buf = true → Ram.wf 256 (prepare s l.toNat).buf = true := fun h => by
        refine invPairs_wf _ ?_ s.regs.pairlen.isLt.le
        rw [hb]
        exact hbw h
      have hframe : ∃ b, prepare s l.toNat = { s with buf := b } := by
        obtain ⟨b', hb'⟩ := invPairs_frame (writeLength s l.toNat) s.regs.pairlen.toNat
        exact ⟨b', by rw [prepare, hb', hb]⟩
      obtain ⟨b', hb'⟩ := hframe
      rw [hb'] at hw ⊢
      exact .succeeded _ _ fun h => Ram.wf_store (hw h) _ (by omega)
    · exact ⟨_, rfl, .failed .arg (by decide)⟩
  | encode n r =>
    simp only [exec, execEncode]
    split
    · exact ⟨_, rfl, .failed .arg (by decide)⟩
    · split
      · exact ⟨_, rfl, .failed .profile (by decide)⟩
      · split
        · exact ⟨_, rfl, .failed .short (by decide)⟩
        · rename_i hp _
          exact ⟨_, rfl, .handedOff n r rfl (by simpa using hp)⟩
  | decode n o st =>
    simp only [exec, execDecode]
    split
    · rename_i e he
      exact ⟨_, rfl, .failed e (decodeFrame_failure he)⟩
    · rename_i cand used hc
      obtain ⟨hn, hl⟩ := decodeFrame_ok hc
      have := ceil8_le hn
      exact ⟨_, rfl, .succeeded _ _ fun h => Ram.wf_storeAll _ h (by omega)⟩

theorem effect_of_exec {i : Instr} {s t : State} (h : exec i s = .next t) : Effect i s t := by
  obtain ⟨t', ht', he⟩ := exec_effect i s
  rw [ht'] at h
  cases h
  exact he

end Sys2Proof.Machine
end

