-- ==== Sys2Proof/Laws/Bus.lean ====
section
/-! SUPPORT. The register map by offset, and what a bus access can do. -/

namespace Sys2Proof.Machine

theorem regAt_high {n : Nat} (h : 0x005C ≤ n) : regAt n = none := by
  unfold regAt
  split <;> first | omega | rfl

/-- An offset addresses a register exactly where the map has one. -/
theorem target_reg {off : Offset} {r : Reg} : target off = .reg r ↔ regAt off.toNat = some r := by
  unfold target
  split
  · rw [regAt_high (by omega)]
    simp
  · split
    · rw [regAt_high (by omega)]
      simp
    · split <;> simp_all

theorem target_status {off : Offset} : target off = .reg .status ↔ off = 0x0004 := by
  rw [target_reg, ← BitVec.toNat_inj]
  constructor
  · intro h
    unfold regAt at h
    split at h <;> first | (cases h; done) | (simp; omega)
  · intro h
    rw [h]
    rfl

theorem target_cmd {off : Offset} : target off = .reg .cmd ↔ off = 0x0008 := by
  rw [target_reg, ← BitVec.toNat_inj]
  constructor
  · intro h
    unfold regAt at h
    split at h <;> first | (cases h; done) | (simp; omega)
  · intro h
    rw [h]
    rfl

theorem target_ctrl {off : Offset} : target off = .reg .ctrl ↔ off = 0x0000 := by
  rw [target_reg, ← BitVec.toNat_inj]
  constructor
  · intro h
    unfold regAt at h
    split at h <;> first | (cases h; done) | (simp; omega)
  · intro h
    rw [h]
    rfl

/-- Two offsets of one register are the same offset. -/
theorem regAt_injective {m n : Nat} {r : Reg} (hm : regAt m = some r) (hn : regAt n = some r) : m = n := by
  unfold regAt at hm hn
  split at hm <;> first | (cases hm; done) | (split at hn <;> first | rfl | (cases hm; cases hn))

theorem target_buf {k : Nat} (h : k < 64) : target (BitVec.ofNat 16 (0x0100 + 4 * k)) = .buf k := by
  unfold target
  simp only [BitVec.toNat_ofNat]
  rw [Nat.mod_eq_of_lt (by omega), if_pos (by omega)]
  congr 1
  omega

theorem target_cap {k : Nat} (h : k < 4096) : target (BitVec.ofNat 16 (0x4000 + 4 * k)) = .cap k := by
  unfold target
  simp only [BitVec.toNat_ofNat]
  rw [Nat.mod_eq_of_lt (by omega), if_neg (by omega), if_pos (by omega)]
  congr 1
  omega

/-- The words of the two windows lie inside the RAMs. -/
theorem target_buf_lt {off : Offset} {k : Nat} (h : target off = .buf k) : k < 64 := by
  unfold target at h
  split at h
  · cases h
    omega
  · split at h
    · cases h
    · split at h <;> cases h

theorem target_cap_lt {off : Offset} {k : Nat} (h : target off = .cap k) : k < 4096 := by
  unfold target at h
  split at h
  · cases h
  · split at h
    · cases h
      omega
    · split at h <;> cases h

/-- What the host reads does not depend on what stands outside the block. -/
theorem busRead_env (s : State) (e : Env) (off : Offset) : busRead { s with env := e } off = busRead s off := by
  unfold busRead
  split <;> rfl

/-- A write to STATUS, a write dropped while busy, or a write while idle: there is no other. -/
theorem busWrite_cases (s : State) (off : Offset) (v : Word) :
    (off = 0x0004 ∧ busWrite s off v = writeStatus s v) ∨
    (off ≠ 0x0004 ∧ s.phase ≠ .idle ∧ busWrite s off v = { s with ovr := true }) ∨
    (off ≠ 0x0004 ∧ s.phase = .idle ∧ busWrite s off v = writeTarget s v (target off)) := by
  by_cases h : off = 0x0004
  · exact .inl ⟨h, by rw [busWrite, if_pos (target_status.mpr h)]⟩
  · have h' : target off ≠ .reg .status := fun hc => h (target_status.mp hc)
    by_cases hp : s.phase = .idle
    · exact .inr (.inr ⟨h, hp, by rw [busWrite, if_neg h', if_neg (by simp [hp])]⟩)
    · exact .inr (.inl ⟨h, hp, by rw [busWrite, if_neg h', if_pos hp]⟩)

/-- The four effects of a write while idle on what is not a plain register: an accepted command, a soft reset, a word of BUF,
an entry of CAP; any other write changes at most the registers and clears STATUS bits. -/
theorem writeTarget_cases (s : State) (v : Word) (off : Offset) (h4 : off ≠ 0x0004) :
    (off = 0x0008 ∧ writeTarget s v (target off) = accept v s) ∨
    (off = 0x0000 ∧ v.getLsbD 0 = true ∧ writeTarget s v (target off) = softReset s) ∨
    (∃ k, k < 64 ∧ writeTarget s v (target off) = bufWriteAll s (4 * k) (wordBytes v)) ∨
    (∃ k, k < 4096 ∧ writeTarget s v (target off) = capWrite s k v) ∨
    (∃ r, writeTarget s v (target off) = { s with regs := r }) := by
  cases ht : target off with
  | buf k => exact .inr (.inr (.inl ⟨k, target_buf_lt ht, rfl⟩))
  | cap k => exact .inr (.inr (.inr (.inl ⟨k, target_cap_lt ht, rfl⟩)))
  | reserved => exact .inr (.inr (.inr (.inr ⟨s.regs, rfl⟩)))
  | reg r =>
    cases r
    case status => exact absurd (target_status.mp ht) h4
    case cmd => exact .inl ⟨target_cmd.mp ht, rfl⟩
    case ctrl =>
      simp only [writeTarget, writeReg, writeCtrl]
      split
      · rename_i hv
        exact .inr (.inl ⟨target_ctrl.mp ht, hv, rfl⟩)
      · exact .inr (.inr (.inr (.inr ⟨_, rfl⟩)))
    all_goals exact .inr (.inr (.inr (.inr ⟨_, rfl⟩)))

end Sys2Proof.Machine
end

