-- ==== Sys2Proof/Laws/Encoding.lean ====
section
/-! SUPPORT. Command words as numbers: joining and cutting fields, and the value of each encoded command. -/

namespace Sys2Proof

/-- Joining two fields, in numbers. -/
theorem toNat_append_add {m n : Nat} (x : BitVec m) (y : BitVec n) :
    (x ++ y).toNat = x.toNat * 2 ^ n + y.toNat := by
  rw [BitVec.toNat_append, ← Nat.shiftLeft_add_eq_or_of_lt y.isLt, Nat.shiftLeft_eq]

/-- Cutting a field out, in numbers. -/
theorem toNat_extractLsb_div {n : Nat} (hi lo : Nat) (x : BitVec n) :
    (x.extractLsb hi lo).toNat = x.toNat / 2 ^ lo % 2 ^ (hi - lo + 1) := by
  simp [BitVec.extractLsb, Nat.shiftRight_eq_div_pow]

/-- A field is zero, in numbers. -/
theorem extractLsb_eq_zero {n : Nat} (hi lo : Nat) (x : BitVec n) :
    x.extractLsb hi lo = 0 ↔ x.toNat / 2 ^ lo % 2 ^ (hi - lo + 1) = 0 := by
  rw [← BitVec.toNat_inj, toNat_extractLsb_div]
  rfl

/-- The opcode of a word, in numbers. -/
theorem opcode_eq {w : Word} {op : BitVec 4} : w.extractLsb 3 0 = op ↔ w.toNat % 16 = op.toNat := by
  rw [← BitVec.toNat_inj, toNat_extractLsb_div]
  simp

theorem toNat_ofBool (b : Bool) : (BitVec.ofBool b).toNat = b.toNat := by
  cases b <;> rfl

/-! The value of each encoded command (R89). -/

theorem encode_nop_toNat : (encode .nop).toNat = 0 := rfl

theorem encode_getbits_toNat (b : BitVec 8) (o : BitVec 3) (w : BitVec 4) :
    (encode (.getbits b o w)).toNat = 1 + b.toNat * 2 ^ 4 + o.toNat * 2 ^ 12 + w.toNat * 2 ^ 15 := by
  simp only [encode, toNat_append_add, BitVec.toNat_ofNat]
  omega

theorem encode_setbits_toNat (b : BitVec 8) (o : BitVec 3) (w : BitVec 4) (v : BitVec 8) :
    (encode (.setbits b o w v)).toNat =
      2 + b.toNat * 2 ^ 4 + o.toNat * 2 ^ 12 + w.toNat * 2 ^ 15 + v.toNat * 2 ^ 19 := by
  simp only [encode, toNat_append_add, BitVec.toNat_ofNat]
  omega

theorem encode_calcchk_toNat (l : BitVec 9) : (encode (.calcchk l)).toNat = 3 + l.toNat * 2 ^ 4 := by
  simp only [encode, toNat_append_add, BitVec.toNat_ofNat]
  omega

theorem encode_validchk_toNat (l : BitVec 9) : (encode (.validchk l)).toNat = 4 + l.toNat * 2 ^ 4 := by
  simp only [encode, toNat_append_add, BitVec.toNat_ofNat]
  omega

theorem encode_invpairs_toNat (l : BitVec 9) : (encode (.invpairs l)).toNat = 5 + l.toNat * 2 ^ 4 := by
  simp only [encode, toNat_append_add, BitVec.toNat_ofNat]
  omega

theorem encode_finalize_toNat (l : BitVec 9) : (encode (.finalize l)).toNat = 6 + l.toNat * 2 ^ 4 := by
  simp only [encode, toNat_append_add, BitVec.toNat_ofNat]
  omega

theorem encode_encode_toNat (n : BitVec 12) (r : BitVec 8) :
    (encode (.encode n r)).toNat = 7 + n.toNat * 2 ^ 4 + r.toNat * 2 ^ 16 := by
  simp only [encode, toNat_append_add, BitVec.toNat_ofNat]
  omega

theorem encode_decode_toNat (n o : BitVec 12) (st : Bool) :
    (encode (.decode n o st)).toNat = 8 + n.toNat * 2 ^ 4 + o.toNat * 2 ^ 16 + st.toNat * 2 ^ 28 := by
  simp only [encode, toNat_append_add, BitVec.toNat_ofNat, toNat_ofBool]
  omega

end Sys2Proof
end

