-- ==== Sys2Proof/Laws/Commands.lean ====
section
/-! SUPPORT. What the operations that a command computes with answer: bits of a field, the pulses of a transmission by position,
capture entries, the bits of a candidate byte. -/

namespace Sys2Proof.Machine

/-! Bit fields (R120, R122, R123). -/

theorem getField_testBit (b : Byte) (o w j : Nat) :
    (getField b o w).testBit j = (decide (j < effWidth o w) && b.getLsbD (o + j)) := by
  unfold getField
  rw [Nat.testBit_and, Nat.testBit_shiftRight, Nat.one_shiftLeft, Nat.testBit_two_pow_sub_one, Bool.and_comm]
  rfl

theorem getLsbD_fieldMask {o w j : Nat} (hj : j < 8) :
    (fieldMask o w).getLsbD j = (decide (o ≤ j) && decide (j < o + effWidth o w)) := by
  unfold fieldMask
  rw [BitVec.getLsbD_ofNat, Nat.testBit_shiftLeft, Nat.one_shiftLeft, Nat.testBit_two_pow_sub_one]
  by_cases h : o ≤ j
  · simp [h, hj]
    omega
  · simp [h]

theorem getLsbD_allOnes_byte {j : Nat} (hj : j < 8) : (0xFF#8).getLsbD j = true := by
  have : ∀ k : Fin 8, (0xFF#8).getLsbD k.val = true := by decide
  exact this ⟨j, hj⟩

theorem getLsbD_setField (b : Byte) {o j : Nat} (w : Nat) (v : Byte) (hj : j < 8) :
    (setField b o w v).getLsbD j = if o ≤ j ∧ j < o + effWidth o w then v.getLsbD (j - o) else b.getLsbD j := by
  unfold setField
  rw [BitVec.getLsbD_or, BitVec.getLsbD_and, BitVec.getLsbD_and, BitVec.getLsbD_xor, getLsbD_fieldMask hj,
    BitVec.getLsbD_shiftLeft, getLsbD_allOnes_byte hj]
  by_cases h1 : o ≤ j <;> by_cases h2 : j < o + effWidth o w <;> simp [h1, h2, hj]

/-! The pulses of a transmission (R163, R164). -/

theorem gapEff_ne_zero (r : Regs) : gapEff r ≠ 0 ↔ 0 < (gapEff r).toNat := by
  rw [Nat.pos_iff_ne_zero, ne_eq, ne_eq, ← BitVec.toNat_inj]
  rfl

theorem bits_length (s : State) (n : Nat) :
    ((List.range n).flatMap fun k => bitPulses s.regs (frameBit s k)).length = 2 * n := by
  induction n with
  | zero => rfl
  | succ n ih =>
    rw [List.range_succ, List.flatMap_append, List.length_append, ih]
    simp [bitPulses]
    omega

/-- The pulses of bit `k` stand at places `2k` and `2k + 1` of the data. -/
theorem bits_getElem? (s : State) {n k : Nat} (hk : k < n) :
    ((List.range n).flatMap fun k => bitPulses s.regs (frameBit s k))[2 * k]? =
        some ⟨.mark, bitMark s.regs (frameBit s k)⟩ ∧
      ((List.range n).flatMap fun k => bitPulses s.regs (frameBit s k))[2 * k + 1]? =
        some ⟨.space, bitSpace s.regs (frameBit s k)⟩ := by
  induction n with
  | zero => omega
  | succ n ih =>
    rw [List.range_succ, List.flatMap_append]
    by_cases h : k < n
    · rw [List.getElem?_append_left (by rw [bits_length]; omega), List.getElem?_append_left (by rw [bits_length]; omega)]
      exact ih h
    · obtain rfl : k = n := by omega
      rw [List.getElem?_append_right (by rw [bits_length]), List.getElem?_append_right (by rw [bits_length]; omega),
        bits_length]
      simp [bitPulses]

theorem frame_length (s : State) (n : Nat) :
    (frame s n).length = 2 + 2 * n + 1 + if gapEff s.regs ≠ 0 then 1 else 0 := by
  simp only [frame, List.length_append, bits_length, List.length_cons, List.length_nil, gapPulses]
  split <;> rfl

theorem transmission_length (s : State) (n rep : Nat) :
    (transmission s n rep).length = (rep + 1) * (frame s n).length := by
  simp [transmission]

/-- Place `p` of copy `q` of a list repeated end to end. -/
theorem flatten_replicate_getElem? {α : Type} (l : List α) {m q p : Nat} (hq : q < m) (hp : p < l.length) :
    (List.replicate m l).flatten[q * l.length + p]? = l[p]? := by
  induction m generalizing q with
  | zero => omega
  | succ m ih =>
    rw [List.replicate_succ, List.flatten_cons]
    cases q with
    | zero =>
      rw [List.getElem?_append_left (by omega)]
      simp
    | succ q =>
      have e : (q + 1) * l.length + p = l.length + (q * l.length + p) := by ring
      rw [e, List.getElem?_append_right (by omega), Nat.add_sub_cancel_left, ih (by omega)]

theorem transmission_getElem? (s : State) {n rep q p : Nat} (hq : q ≤ rep) (hp : p < (frame s n).length) :
    (transmission s n rep)[q * (frame s n).length + p]? = (frame s n)[p]? :=
  flatten_replicate_getElem? _ (by omega) hp

theorem toNat_entry (p : Pulse) : p.entry.toNat = (if p.level = .mark then 1 else 0) <<< 31 + p.dur.toNat := by
  simp only [Pulse.entry, toNat_append_add, toNat_ofBool, Nat.shiftLeft_eq]
  by_cases h : p.level = .mark <;> simp [h]

/-! Capture entries (R180, R186). -/

theorem entryLevel_mark (s : State) (i : Nat) : entryLevel s i = .mark ↔ 2 ^ 31 ≤ (capRead s i).toNat := by
  have hw := (capRead s i).isLt
  have : (capRead s i).getLsbD 31 = decide (2 ^ 31 ≤ (capRead s i).toNat) := by
    rw [BitVec.getLsbD, Nat.testBit_eq_decide_div_mod_eq]
    congr 1
    apply propext
    constructor <;> intro h <;> omega
  unfold entryLevel
  rw [this]
  by_cases h : 2 ^ 31 ≤ (capRead s i).toNat <;> simp

theorem entryDur_eq (s : State) (i : Nat) : entryDur s i = (capRead s i).toNat % 2 ^ 31 := by
  unfold entryDur
  rw [toNat_extractLsb_div]
  simp

theorem checkEntry_ok {s : State} {i : Nat} {l : Level} {b : Bool} {e : Err} {u : Unit}
    (h : checkEntry s i l b e = .ok u) : entryLevel s i = l ∧ b = true := by
  unfold checkEntry at h
  split at h
  · cases h
  · rename_i hl
    split at h
    · exact ⟨not_ne_iff.mp hl, by assumption⟩
    · cases h

theorem checkEntry_error {s : State} {i : Nat} {l : Level} {b : Bool} {e e' : Err}
    (h : checkEntry s i l b e = .error e') :
    (entryLevel s i ≠ l ∧ e' = .level) ∨ (entryLevel s i = l ∧ b = false ∧ e' = e) := by
  unfold checkEntry at h
  split at h
  · rename_i hl
    cases h
    exact .inl ⟨hl, rfl⟩
  · rename_i hl
    split at h
    · cases h
    · rename_i hb
      cases h
      exact .inr ⟨not_ne_iff.mp hl, by simpa using hb, rfl⟩

/-- A data bit that passes: its mark, its space, the value its space stands for, and the second look at the mark. -/
theorem decodeBit_ok {s : State} {i : Nat} {b : Bool} (h : decodeBit s i = .ok b) :
    entryLevel s i = .mark ∧
      (durMatch s.regs (entryDur s i) s.regs.onemark || durMatch s.regs (entryDur s i) s.regs.zeromark) = true ∧
      entryLevel s (i + 1) = .space ∧ classify s.regs (entryDur s (i + 1)) = some b ∧
      durMatch s.regs (entryDur s i) (bitMark s.regs b) = true := by
  unfold decodeBit at h
  split at h
  · cases h
  · rename_i hc
    obtain ⟨h1, h2⟩ := checkEntry_ok hc
    split at h
    · cases h
    · rename_i hl
      split at h
      · cases h
      · rename_i hcl
        split at h
        · rename_i hm
          cases h
          exact ⟨h1, h2, not_ne_iff.mp hl, hcl, hm⟩
        · cases h

/-- The data bits of a frame that passes, one by one. -/
theorem decodeBits_ok {s : State} {i n : Nat} {bits : List Bool} (h : decodeBits s i n = .ok bits) {k : Nat} (hk : k < n) :
    decodeBit s (i + 2 * k) = .ok (bits.getD k false) := by
  induction n generalizing i bits k with
  | zero => omega
  | succ n ih =>
    rw [decodeBits] at h
    split at h
    · cases h
    · rename_i b hb
      split at h
      · cases h
      · rename_i bs hbs
        cases h
        cases k with
        | zero => exact hb
        | succ k =>
          rw [show i + 2 * (k + 1) = i + 2 + 2 * k by ring]
          exact ih hbs (by omega)

/-! The candidate (R189). -/

theorem bits_sum_testBit (f : Nat → Bool) {b : Nat} (hb : b < 8) :
    (((List.range 8).map fun t => (f t).toNat <<< (7 - t)).sum).testBit b = f (7 - b) := by
  have e : ((List.range 8).map fun t => (f t).toNat <<< (7 - t)).sum =
      (f 0).toNat * 128 + (f 1).toNat * 64 + (f 2).toNat * 32 + (f 3).toNat * 16 + (f 4).toNat * 8 + (f 5).toNat * 4 +
        (f 6).toNat * 2 + (f 7).toNat := by
    simp [List.range_succ, Nat.shiftLeft_eq]
    ring
  have key : ∀ (a0 a1 a2 a3 a4 a5 a6 a7 : Bool) (b : Fin 8),
      (a0.toNat * 128 + a1.toNat * 64 + a2.toNat * 32 + a3.toNat * 16 + a4.toNat * 8 + a5.toNat * 4 +
        a6.toNat * 2 + a7.toNat).testBit b.val = [a7, a6, a5, a4, a3, a2, a1, a0].getD b.val false := by decide
  rw [e, key _ _ _ _ _ _ _ _ ⟨b, hb⟩]
  have : b = 0 ∨ b = 1 ∨ b = 2 ∨ b = 3 ∨ b = 4 ∨ b = 5 ∨ b = 6 ∨ b = 7 := by omega
  rcases this with h | h | h | h | h | h | h | h <;> subst h <;> rfl

theorem getLsbD_candByte (bits : List Bool) (j : Nat) {b : Nat} (hb : b < 8) :
    (candByte bits j).getLsbD b = bits.getD (8 * j + (7 - b)) false := by
  unfold candByte
  rw [BitVec.getLsbD_ofNat, bits_sum_testBit (fun t => bits.getD (8 * j + t) false) hb]
  simp [hb]

end Sys2Proof.Machine
end

