-- ==== Sys2Proof/Laws/PerInstr.lean ====
section
/-! SUPPORT. The statements made of every command, one lemma per constructor: the word of a command carries the opcode of its row of the
opcode map (R84) in bits [3:0] and lies below the rz bits of its format (R81, R88). -/

namespace Sys2Proof.Laws.OpcodeAndRz

/-- The opcode of a command and the lowest rz bit of its format (R81, R84). -/
def shape : Instr → Nat × Nat
  | .nop => (0x0, 4)
  | .getbits _ _ _ => (0x1, 19)
  | .setbits _ _ _ _ => (0x2, 27)
  | .calcchk _ => (0x3, 13)
  | .validchk _ => (0x4, 13)
  | .invpairs _ => (0x5, 13)
  | .finalize _ => (0x6, 13)
  | .encode _ _ => (0x7, 24)
  | .decode _ _ _ => (0x8, 29)

def Statement (i : Instr) : Prop :=
  (encode i).toNat % 16 = (shape i).1 ∧ (encode i).toNat < 2 ^ (shape i).2

theorem nop : Statement .nop :=
  ⟨rfl, by decide⟩

theorem getbits (b : BitVec 8) (o : BitVec 3) (w : BitVec 4) : Statement (.getbits b o w) := by
  simp only [Statement, shape, encode_getbits_toNat]
  omega

theorem setbits (b : BitVec 8) (o : BitVec 3) (w : BitVec 4) (v : BitVec 8) : Statement (.setbits b o w v) := by
  simp only [Statement, shape, encode_setbits_toNat]
  omega

theorem calcchk (l : BitVec 9) : Statement (.calcchk l) := by
  simp only [Statement, shape, encode_calcchk_toNat]
  omega

theorem validchk (l : BitVec 9) : Statement (.validchk l) := by
  simp only [Statement, shape, encode_validchk_toNat]
  omega

theorem invpairs (l : BitVec 9) : Statement (.invpairs l) := by
  simp only [Statement, shape, encode_invpairs_toNat]
  omega

theorem finalize (l : BitVec 9) : Statement (.finalize l) := by
  simp only [Statement, shape, encode_finalize_toNat]
  omega

theorem encode (n : BitVec 12) (r : BitVec 8) : Statement (.encode n r) := by
  simp only [Statement, shape, encode_encode_toNat]
  omega

theorem decode (n o : BitVec 12) (st : Bool) : Statement (.decode n o st) := by
  have h : st.toNat ≤ 1 := by cases st <;> decide
  simp only [Statement, shape, encode_decode_toNat]
  omega

end Sys2Proof.Laws.OpcodeAndRz
end

