-- ==== Sys2Proof/Laws/Run.lean ====
section
/-! SUPPORT. What is observed at the end of a run, and one step of a run. -/

namespace Sys2Proof.Machine

/-! The record keeps every field of the block (R51). -/

@[simp] theorem record_regs (s : State) : s.record.regs = s.regs := rfl
@[simp] theorem record_done (s : State) : s.record.done = s.done := rfl
@[simp] theorem record_ok (s : State) : s.record.ok = s.ok := rfl
@[simp] theorem record_ovr (s : State) : s.record.ovr = s.ovr := rfl
@[simp] theorem record_caprdy (s : State) : s.record.caprdy = s.caprdy := rfl
@[simp] theorem record_err (s : State) : s.record.err = s.err := rfl
@[simp] theorem record_result (s : State) : s.record.result = s.result := rfl
@[simp] theorem record_buf (s : State) : s.record.buf = s.buf := rfl
@[simp] theorem record_cap (s : State) : s.record.cap = s.cap := rfl
@[simp] theorem record_phase (s : State) : s.record.phase = s.phase := rfl
@[simp] theorem record_pend (s : State) : s.record.pend = s.pend := rfl
@[simp] theorem record_txslot (s : State) : s.record.txslot = s.txslot := rfl
@[simp] theorem record_txresult (s : State) : s.record.txresult = s.txresult := rfl
@[simp] theorem record_txlog (s : State) : s.record.txlog = s.txlog := rfl
@[simp] theorem record_env (s : State) : s.record.env = Env.reset := rfl

theorem runEnded_iff {s : State} : s.runEnded = true ↔ s.env.program = [] ∧ s.phase = .idle := by
  simp [State.runEnded]

/-- A run that has ended takes no step, however many are left. -/
theorem runWithin_of_runEnded {s : State} (h : s.runEnded = true) (n : Nat) : runWithin n s = .ended s.record := by
  cases n <;> simp [runWithin, h]

/-- A run that has not ended goes on with the next step. -/
theorem runWithin_succ_of_step {s t : State} (h : s.runEnded = false) (hs : step s = .next t) (n : Nat) :
    runWithin (n + 1) s = runWithin n t := by
  simp [runWithin, h, hs]

/-- With no step left, a run that has not ended stands where it is. -/
theorem runWithin_zero_of_not_runEnded {s : State} (h : s.runEnded = false) : runWithin 0 s = .running s := by
  simp [runWithin, h]

end Sys2Proof.Machine
end

