-- ==== Sys2Proof/Laws/Step.lean ====
section
/-! SUPPORT. What one step of each agent can do, said once. -/

namespace Sys2Proof.Machine

/-! Taking the turn touches the schedule alone. -/

theorem spendTurn_eq (s : State) : ∃ sched tick, spendTurn s = { s with env := { s.env with schedule := sched, tick := tick } } := by
  unfold spendTurn
  split
  · exact ⟨_, _, rfl⟩
  · exact ⟨s.env.schedule, _, rfl⟩

@[simp] theorem spendTurn_phase (s : State) : (spendTurn s).phase = s.phase := by unfold spendTurn; split <;> rfl
@[simp] theorem spendTurn_pend (s : State) : (spendTurn s).pend = s.pend := by unfold spendTurn; split <;> rfl
@[simp] theorem spendTurn_program (s : State) : (spendTurn s).env.program = s.env.program := by
  unfold spendTurn; split <;> rfl
@[simp] theorem spendTurn_offers (s : State) : (spendTurn s).env.offers = s.env.offers := by
  unfold spendTurn; split <;> rfl

/-! The engine, the transmit and the capture primitive. -/

theorem engineStep_pending {s : State} {i : Instr} (hp : s.phase = .pending) (hd : decode s.pend = .ok i) :
    engineStep s = exec i s := by
  unfold engineStep
  simp only [hp, hd]

theorem engineStep_illegal {s : State} {e : Illegal} (hp : s.phase = .pending) (hd : decode s.pend = .error e) :
    engineStep s = .next (complete .illegal 0 s) := by
  unfold engineStep
  simp only [hp, hd]
  rfl

theorem engineStep_cases {s t : State} (h : engineStep s = .next t) :
    (s.phase ≠ .pending ∧ t = s) ∨
    (s.phase = .pending ∧ ∃ i, decode s.pend = .ok i ∧ exec i s = .next t) ∨
    (s.phase = .pending ∧ ∃ e, decode s.pend = .error e ∧ t = complete .illegal 0 s) := by
  by_cases hp : s.phase = .pending
  · cases hd : decode s.pend with
    | ok i =>
      rw [engineStep_pending hp hd] at h
      exact .inr (.inl ⟨hp, i, rfl, h⟩)
    | error e =>
      rw [engineStep_illegal hp hd] at h
      cases h
      exact .inr (.inr ⟨hp, e, rfl, rfl⟩)
  · unfold engineStep at h
    split at h
    · exact absurd (by assumption) hp
    all_goals
      cases h
      exact .inl ⟨hp, rfl⟩

theorem txpStep_cases {s t : State} (h : txpStep s = .next t) :
    (s.phase ≠ .txwait ∧ t = s) ∨
    (s.phase = .txwait ∧ t = complete .none s.txresult { s with txslot := none }) := by
  unfold txpStep at h
  split at h <;> cases h <;> simp_all

theorem cappStep_cases {s t : State} (h : cappStep s = .next t) :
    (t = s ∧ (s.phase ≠ .idle ∨ s.env.offers = [])) ∨
    (s.phase = .idle ∧ ∃ entries rest, s.env.offers = entries :: rest ∧
      t = deliver entries { s with env := { s.env with offers := rest } }) := by
  unfold cappStep at h
  split at h
  · rename_i entries rest hp ho
    cases h
    exact .inr ⟨hp, entries, rest, ho, rfl⟩
  · rename_i hx
    cases h
    refine .inl ⟨rfl, ?_⟩
    by_cases hp : s.phase = .idle
    · refine .inr ?_
      cases ho : s.env.offers with
      | nil => rfl
      | cons a b => exact absurd ho (hx a b hp)
    · exact .inl hp

/-- The host's step changes nothing inside the block, or it is a write at an aligned offset. -/
theorem hostStep_cases {s t : State} (h : hostStep s = .next t) :
    (∃ e, t = { s with env := e }) ∨
    (∃ off v rest, s.env.program = .write off v :: rest ∧ off.toNat % 4 = 0 ∧
      t = busWrite (setProgram s rest) off v) := by
  unfold hostStep at h
  split at h
  · cases h
    exact .inl ⟨s.env, rfl⟩
  · rename_i off v rest hp
    split at h
    · rename_i ha
      cases h
      exact .inr ⟨off, v, rest, hp, by simpa [aligned] using ha, rfl⟩
    · cases h
  · split at h
    · cases h
      exact .inl ⟨_, rfl⟩
    · cases h
  · cases h
    split
    · exact .inl ⟨_, rfl⟩
    · exact .inl ⟨_, rfl⟩
  · cases h
    split
    · exact .inl ⟨_, rfl⟩
    · exact .inl ⟨s.env, rfl⟩

/-! Which agents move next does not depend on what a step does. -/

theorem writeTarget_env (s : State) (v : Word) (off : Offset) (h4 : off ≠ 0x0004) :
    (writeTarget s v (target off)).env = s.env := by
  rcases writeTarget_cases s v off h4 with ⟨_, h⟩ | ⟨_, _, h⟩ | ⟨_, _, h⟩ | ⟨_, _, h⟩ | ⟨_, h⟩ <;> rw [h] <;> simp

theorem busWrite_env (s : State) (off : Offset) (v : Word) : (busWrite s off v).env = s.env := by
  rcases busWrite_cases s off v with ⟨_, h⟩ | ⟨_, _, h⟩ | ⟨h4, _, h⟩ <;> rw [h]
  · rfl
  · exact writeTarget_env s v off h4

theorem exec_env {i : Instr} {s t : State} (h : exec i s = .next t) : t.env = s.env := by
  cases effect_of_exec h <;> rfl

theorem agentStep_schedule {a : Agent} {s t : State} (h : agentStep a s = .next t) :
    t.env.schedule = s.env.schedule ∧ t.env.tick = s.env.tick := by
  cases a with
  | host =>
    rw [agentStep, hostStep] at h
    split at h
    · cases h
      exact ⟨rfl, rfl⟩
    · split at h
      · cases h
        rw [busWrite_env]
        exact ⟨rfl, rfl⟩
      · cases h
    · split at h
      · cases h
        exact ⟨rfl, rfl⟩
      · cases h
    all_goals
      cases h
      split <;> exact ⟨rfl, rfl⟩
  | engine =>
    rcases engineStep_cases h with ⟨_, rfl⟩ | ⟨_, i, _, hx⟩ | ⟨_, _, _, rfl⟩
    · exact ⟨rfl, rfl⟩
    · rw [exec_env hx]
      exact ⟨rfl, rfl⟩
    · exact ⟨rfl, rfl⟩
  | txp => rcases txpStep_cases h with ⟨_, rfl⟩ | ⟨_, rfl⟩ <;> exact ⟨rfl, rfl⟩
  | capp => rcases cappStep_cases h with ⟨rfl, _⟩ | ⟨_, _, _, _, rfl⟩ <;> exact ⟨rfl, rfl⟩

end Sys2Proof.Machine
end

