-- ==== Sys2Proof/Tests/Slice0.lean ====
section
/-! SUPPORT. Tests. Every expected value comes from spec/95_test_vectors.md (its row is named) or from the rule cited, worked by
hand. After them, for each obligation with hypotheses, witnesses that meet them. -/

namespace Sys2Proof.Tests

open Sys2Proof Sys2Proof.Machine Sys2Proof.Claims

/-! ## Assembler lines: one ill-formed line for each check (R89) -/

theorem test_byte_too_big : Line.wellFormed (.getbits 256 0 1) = false := by decide
theorem test_ofs_too_big : Line.wellFormed (.getbits 0 8 1) = false := by decide
theorem test_wid_too_big : Line.wellFormed (.getbits 0 0 16) = false := by decide
theorem test_set_byte_too_big : Line.wellFormed (.setbits 256 0 1 0) = false := by decide
theorem test_set_ofs_too_big : Line.wellFormed (.setbits 0 8 1 0) = false := by decide
theorem test_set_wid_too_big : Line.wellFormed (.setbits 0 0 16 0) = false := by decide
theorem test_val_too_big : Line.wellFormed (.setbits 0 0 1 256) = false := by decide
theorem test_len_too_big :
    [Line.calcchk 512, .validchk 512, .invpairs 512, .finalize 512].all (fun l => !l.wellFormed) = true := by decide
theorem test_nbits_too_big :
    [Line.encode 4096 0, .decode 4096 0 false, .send 4096, .decodes 4096 0].all (fun l => !l.wellFormed) = true := by decide
theorem test_repeat_too_big : Line.wellFormed (.encode 8 256) = false := by decide
theorem test_offset_too_big :
    [Line.decode 8 4096 true, .decodes 8 4096].all (fun l => !l.wellFormed) = true := by decide
theorem test_pseudo_operand_too_big :
    [Line.getbit 256 0, .getbit 0 8, .setbit 256 0, .setbit 0 8, .clrbit 256 0, .clrbit 0 8, .clrbits 256 0 1,
      .clrbits 0 8 1, .clrbits 0 0 16, .getbyte 256, .putbyte 256 0, .putbyte 0 256].all (fun l => !l.wellFormed) = true := by
  decide

/-- A value that fits its field is assembled, in range or not (R83, R89). -/
theorem test_out_of_range_fits :
    assemble (.getbits 0 0 0) = some 0x00000001 ∧ assemble (.calcchk 257) = some 0x00001013 ∧
      assemble (.encode 2049 0) = some 0x00008017 ∧ assemble (.calcchk 512) = none := by decide

/-! ## Words written out bit by bit from the formats of R81, one for each row -/

/-- Format N: 28 zeros, OP 0000. -/
theorem test_decode_nop : decode 0b0000000000000000000000000000_0000#32 = .ok .nop := by decide
/-- Format B, SETBITS 0, 2, 3, 2: rz 00000, VAL 00000010, WID 0011, OFS 010, BYTE 00000000, OP 0010. -/
theorem test_decode_setbits : decode 0b00000_00000010_0011_010_00000000_0010#32 = .ok (.setbits 0 2 3 2) := by decide
/-- Format B, GETBITS 0, 1, 3: rz, VAL zero, WID 0011, OFS 001, BYTE 00000000, OP 0001. -/
theorem test_decode_getbits : decode 0b00000_00000000_0011_001_00000000_0001#32 = .ok (.getbits 0 1 3) := by decide
/-- Format L, CALCCHK 256: rz, LEN 100000000, OP 0011. -/
theorem test_decode_calcchk : decode 0b0000000000000000000_100000000_0011#32 = .ok (.calcchk 256) := by decide
/-- Format L, VALIDCHK 5. -/
theorem test_decode_validchk : decode 0b0000000000000000000_000000101_0100#32 = .ok (.validchk 5) := by decide
/-- Format L, INVPAIRS 4. -/
theorem test_decode_invpairs : decode 0b0000000000000000000_000000100_0101#32 = .ok (.invpairs 4) := by decide
/-- Format L, FINALIZE 5. -/
theorem test_decode_finalize : decode 0b0000000000000000000_000000101_0110#32 = .ok (.finalize 5) := by decide
/-- Format E, ENCODE 40, 1: rz, REPEAT 00000001, NBITS 000000101000, OP 0111. -/
theorem test_decode_encode : decode 0b00000000_00000001_000000101000_0111#32 = .ok (.encode 40 1) := by decide
/-- Format D, DECODE 8, 20: rz, STRICT 0, OFFSET 000000010100, NBITS 000000001000, OP 1000. -/
theorem test_decode_decode : decode 0b000_0_000000010100_000000001000_1000#32 = .ok (.decode 8 20 false) := by decide
/-- Format D, DECODE 40, 0, S. -/
theorem test_decode_strict : decode 0b000_1_000000000000_000000101000_1000#32 = .ok (.decode 40 0 true) := by decide

/-- The words of §2.1 as the assembler gives them. -/
theorem test_assemble :
    [Line.nop, .getbits 0 1 3, .setbits 0 2 3 2, .setbits 255 7 8 255, .calcchk 4, .calcchk 256, .validchk 5, .invpairs 4,
      .finalize 5, .encode 8 0, .encode 40 1, .encode 2048 0, .decode 8 0 false, .decodes 40 0, .decode 8 20 false].map assemble =
      [some 0x00000000, some 0x00019001, some 0x0011A002, some 0x07FC7FF2, some 0x00000043, some 0x00001003, some 0x00000054,
        some 0x00000045, some 0x00000056, some 0x00000087, some 0x00010287, some 0x00008007, some 0x00000088,
        some 0x10000288, some 0x00140088] := by decide

/-- The illegal words of §2.1. -/
theorem test_illegal :
    [0x00000009#32, 0x0000000F, 0xFFFFFFFF].all (fun w => decide (decode w = .error .reservedOpcode)) = true ∧
      [0x00000010#32, 0x00080001, 0x08000002, 0x00002003, 0x01000007, 0x20000008].all
        (fun w => decide (decode w = .error .nonzeroReserved)) = true := by decide

/-- A number that no word of the given size holds is no instruction. -/
theorem test_table_word :
    decodeTableWord 32 0x00019001 = some (.getbits 0 1 3) ∧ decodeTableWord 32 0x10 = none ∧
      decodeTableWord 32 0x100000000 = none := by decide

/-! ## Small states -/

/-- The profile TP of §2.0. -/
def tp : State :=
  { State.reset with regs := { Regs.reset with
      hdrmark := 4000, hdrspace := 3000, onemark := 500, onespace := 1500, zeromark := 500, zerospace := 500
      ftrmark := 600, gap := 7000, carrier := 38000, tol := 25 } }

/-- The frame configuration K5 of §2.6. -/
def k5 : State :=
  { State.reset with regs := { Regs.reset with minlen := 5, pairlen := 4, lenidx := 2, lenofs := 2, lenen := true } }

/-- `s` with the first bytes of BUF. -/
def withBuf (s : State) (bs : List Byte) : State :=
  bufWriteAll s 0 bs

/-- `s` with the first entries of CAP, and CAPLEN. -/
def withCap (s : State) (es : List Word) (n : Fin 4097) : State :=
  { s with cap := Ram.storeAll s.cap 0 es, regs := { s.regs with caplen := n } }

/-- `s` with a word accepted and the agents of the coming steps. -/
def pendingOn (s : State) (w : Word) (sched : List Agent) : State :=
  { s with pend := w, phase := .pending, env := { s.env with schedule := sched } }

/-- The state of a next outcome. -/
def got (o : Host.Outcome State Fault Refusal) : Option State :=
  match o with
  | .next t => some t
  | .fault _ => none
  | .refused _ => none

/-- STATUS, RESULT and the first bytes of BUF after an outcome. -/
def seen (n : Nat) (o : Host.Outcome State Fault Refusal) : Option (Word × Word × List Byte) :=
  (got o).map fun t => (t.status, t.result, (List.range n).map (bufRead t))

/-- The 20 capture words of T-ENC1's pulses (§2.7, §2.8). -/
def frameA5 : List Word :=
  [0x80000FA0, 0x00000BB8, 0x800001F4, 0x000005DC, 0x800001F4, 0x000001F4, 0x800001F4, 0x000005DC, 0x800001F4, 0x000001F4]
    ++ [0x800001F4, 0x000001F4, 0x800001F4, 0x000005DC, 0x800001F4, 0x000001F4, 0x800001F4, 0x000005DC, 0x80000258, 0x00001B58]

/-- The base case of §2.8 with BUF[0] = 0x00. -/
def captured : State :=
  withBuf (withCap tp frameA5 20) [0x00]

/-! ## Commands (§2.2 to §2.8) -/

/-- T-NOP3: NOP clears a stale error. -/
theorem test_nop : seen 0 (exec .nop { State.reset with err := 0x02, done := true }) = some (0x00000006, 0, []) := by decide

/-- T-BIT1, T-BIT2, T-BIT5. -/
theorem test_getbits :
    seen 1 (exec (.getbits 0 1 3) (withBuf State.reset [0xB6])) = some (0x00000006, 3, [0xB6]) ∧
      seen 1 (exec (.getbits 0 6 4) (withBuf State.reset [0xB6])) = some (0x00000006, 2, [0xB6]) ∧
      seen 1 (exec (.getbits 0 0 0) (withBuf State.reset [0xB6])) = some (0x00000202, 0, [0xB6]) := by decide

/-- T-BIT7, T-BIT8, T-BIT12. -/
theorem test_setbits :
    seen 1 (exec (.setbits 0 2 3 2) (withBuf State.reset [0xB6])) = some (0x00000006, 0xAA, [0xAA]) ∧
      seen 1 (exec (.setbits 0 6 4 15) (withBuf State.reset [0xB6])) = some (0x00000006, 0xF6, [0xF6]) ∧
      seen 1 (exec (.setbits 0 0 15 1) (withBuf State.reset [0xB6])) = some (0x00000202, 0, [0xB6]) := by decide

/-- T-CHK2, T-CHK4, T-CHK5, T-CHK6. -/
theorem test_calcchk :
    [Instr.calcchk 1, .calcchk 3, .calcchk 4, .calcchk 257].map (fun i =>
        (got (exec i (withBuf State.reset [0x12, 0x34, 0x56, 0x00]))).map fun t => (t.status, t.result)) =
      [some (0x6, 0x00), some (0x6, 0x26), some (0x6, 0x70), some (0x202, 0)] := by decide

/-- T-VAL1, T-VAL2, T-VAL4, T-VAL5: checksum, pass, pairs, length. -/
theorem test_validchk :
    [[0xF2#8, 0x0D, 0x03, 0xFC, 0x01], [0xF2, 0x0D, 0x03, 0xFC, 0x00], [0xF2, 0x0E, 0x03, 0xFC, 0x03],
      [0xF2, 0x0D, 0x04, 0xFC, 0x07]].map (fun bs =>
        (got (exec (.validchk 5) (withBuf k5 bs))).map fun t => (t.status, t.result)) =
      [some (0x6, 0), some (0x6, 1), some (0x6, 0), some (0x6, 0)] := by decide

/-- T-VAL3, T-VAL6, T-VAL7, T-VAL12: MINLEN, PAIRLEN, L = 0, L > 256. -/
theorem test_validchk_bounds :
    seen 0 (exec (.validchk 5) (withBuf { k5 with regs := { k5.regs with minlen := 6 } } [0xF2, 0x0D, 0x03, 0xFC, 0x00])) =
        some (0x6, 0, []) ∧
      seen 0 (exec (.validchk 5) (withBuf { k5 with regs := { k5.regs with pairlen := 5 } } [0xF2, 0x0D, 0x03, 0xFC, 0x00])) =
        some (0x6, 0, []) ∧
      seen 0 (exec (.validchk 0) k5) = some (0x6, 0, []) ∧ seen 0 (exec (.validchk 257) k5) = some (0x202, 0, []) := by decide

/-- T-INV1, T-INV2. -/
theorem test_invpairs :
    seen 4 (exec (.invpairs 4) (withBuf State.reset [0xF2, 0x00, 0x03, 0x00])) = some (0x6, 0, [0xF2, 0x0D, 0x03, 0xFC]) ∧
      seen 5 (exec (.invpairs 5) (withBuf State.reset [0x11, 0x22, 0x33, 0x44, 0x55])) =
        some (0x6, 0, [0x11, 0xEE, 0x33, 0xCC, 0x55]) := by decide

/-- T-FIN2, T-FIN7, T-FIN8. -/
theorem test_finalize :
    seen 7 (exec (.finalize 7) (withBuf { k5 with regs := { k5.regs with minlen := 7, lenofs := 4 } }
        [0xF2, 0x00, 0x00, 0x00, 0x31, 0x5A, 0x00])) = some (0x6, 0x6B, [0xF2, 0x0D, 0x03, 0xFC, 0x31, 0x5A, 0x6B]) ∧
      seen 5 (exec (.finalize 5) (withBuf { k5 with regs := { k5.regs with minlen := 0, lenidx := 1, lenofs := 0 } }
        [0xA0, 0x00, 0x00, 0x00, 0x00])) = some (0x6, 0x00, [0xA0, 0x5F, 0x00, 0xFF, 0x00]) ∧
      seen 4 (exec (.finalize 4) (withBuf { k5 with regs := { k5.regs with minlen := 0, pairlen := 0, lenidx := 0, lenofs := 6 } }
        [0x01, 0x02, 0x03, 0x04])) = some (0x6, 0xFF, [0xFE, 0x02, 0x03, 0xFF]) := by decide

/-- T-FIN4, T-FIN5, T-FIN6, T-FIN9: the checks of FINALIZE. -/
theorem test_finalize_errors :
    [Instr.finalize 0, .finalize 4, .finalize 257].map (fun i => seen 0 (exec i k5)) =
        [some (0x202, 0, []), some (0x202, 0, []), some (0x202, 0, [])] ∧
      seen 0 (exec (.finalize 4) { k5 with regs := { k5.regs with pairlen := 0, lenidx := 3 } }) = some (0x202, 0, []) := by
  decide

/-- T-ENC2: four bits of 0xA5, pulse by pulse; STATUS reads BUSY only. -/
theorem test_encode :
    (got (exec (.encode 4 0) (withBuf tp [0xA5]))).map (fun t => (t.status, t.txslot, t.txresult)) =
      some (0x00000001, some ⟨38000, [⟨.mark, 4000⟩, ⟨.space, 3000⟩, ⟨.mark, 500⟩, ⟨.space, 1500⟩, ⟨.mark, 500⟩, ⟨.space, 500⟩,
        ⟨.mark, 500⟩, ⟨.space, 1500⟩, ⟨.mark, 500⟩, ⟨.space, 500⟩, ⟨.mark, 600⟩, ⟨.space, 7000⟩]⟩, 12) := by decide

/-- T-ENC4, T-ENC8, T-ENC10, T-ENC11: the checks of ENCODE; nothing is handed over. -/
theorem test_encode_errors :
    [exec (.encode 8 0) { tp with regs := { tp.regs with minlen := 2 } },
      exec (.encode 8 1) { tp with regs := { tp.regs with gap := 0 } }, exec (.encode 2049 0) tp,
      exec (.encode 8 0) { tp with regs := { tp.regs with markfirst := false } }].map (fun o =>
        (got o).map fun t => (t.status, t.result, t.txlog)) =
      [some (0x402, 0, []), some (0x302, 0, []), some (0x202, 0, []), some (0x302, 0, [])] := by decide

/-- T-DEC1: the capture of T-ENC1 decodes to 0xA5 and consumes 20 entries. -/
theorem test_decode_command : seen 1 (exec (.decode 8 0 false) captured) = some (0x00000006, 20, [0xA5]) := by decide

/-- T-DEC4, T-DEC6, T-DEC8, T-DEC13, T-DEC16, T-DEC21: one entry changed. -/
theorem test_decode_entries :
    [(0, 0x80001389#32), (3, 0x000003E8), (3, 0x00000271), (2, 0x800002BC), (19, 0x00001388), (4, 0x000001F4)].map (fun c =>
        seen 1 (exec (.decode 8 0 false) (capWrite captured c.1 c.2))) =
      [some (0x1302, 0, [0x00]), some (0x1602, 0, [0x00]), some (0x0006, 20, [0x25]), some (0x1502, 0, [0x00]),
        some (0x1802, 0, [0x00]), some (0x1202, 0, [0x00])] := by decide

/-! ## The bus, the agents, the steps (§2.2, §2.3, §2.9 to §2.11) -/

/-- T-REG1, T-REG4, T-REG5, T-REG6: write, then read back. -/
theorem test_registers :
    [(0x0010#16, 0xFFFFFFFF#32), (0x0044, 0xFFFFFFFF), (0x004C, 0x0000F028), (0x0058, 5000)].map (fun a =>
        busRead (busWrite State.reset a.1 a.2) a.1) = [0x7FFFFFFF, 0x0001FFFF, 0x00000028, 0x00001000] := by decide

/-- T-NOP4, T-NOP6: a dropped write sets OVR; W1C. -/
theorem test_ovr_and_w1c :
    (busWrite (pendingOn State.reset 0 []) 0x0010 5).regs.hdrmark = 0 ∧ (busWrite (pendingOn State.reset 0 []) 0x0010 5).ovr = true ∧
      (busWrite { State.reset with done := true, ok := true, ovr := true } 0x0004 0x0000000A).status = 0x00000004 := by decide

/-- T-MEM1: the BUF window is little-endian. -/
theorem test_buf_window :
    (List.range 4).map (bufRead (busWrite State.reset 0x0100 0xFC030DF2)) = [0xF2, 0x0D, 0x03, 0xFC] := by decide

/-- T-RST2: a soft reset discards the other bits, clears STATUS and CAPLEN, and keeps BUF. -/
theorem test_soft_reset :
    let t := busWrite { withBuf captured [0xA5] with done := true, ok := true, caprdy := true } 0x0000 0x0000000F
    busRead t 0x0000 = 0x00000002 ∧ t.status = 0 ∧ busRead t 0x0058 = 0 ∧ bufRead t 0 = 0xA5 ∧ capRead t 0 = 0x80000FA0 := by
  decide

/-- T-IRQ4: a delivery of 3 entries with IE_CAP set. -/
theorem test_delivery :
    (got (agentStep .capp { State.reset with
        regs := { Regs.reset with ieCap := true }
        env := { Env.reset with offers := [[⟨.mark, 9⟩, ⟨.space, 8⟩, ⟨.mark, 7⟩]] } })).map (fun t =>
      (t.status, t.irq, busRead t 0x0058, (List.range 3).map (capRead t))) =
      some (0x00000010, true, 3, [0x80000009, 0x00000008, 0x80000007]) := by decide

/-- A step fetches and runs the placed word as the first after reset: GETBITS 0, 0, 9 ends with ERR_ARG (T-BIT6). -/
theorem test_step_runs_word :
    (got (step (State.reset.withFetchWord 32 0x00048001))).map (fun t => (t.status, t.phase)) = some (0x00000202, .idle) := by
  decide

/-- An illegal word completes with ERR_ILLEGAL (§2.1). -/
theorem test_step_illegal :
    (got (step (State.reset.withFetchWord 32 0x00002003))).map State.status = some 0x00000102 := by decide

/-- R61: a misaligned access is refused by name. -/
theorem test_misaligned :
    step { State.reset with env := { Env.reset with program := [.read 0x0006], schedule := [.host] } } =
      .refused (.misalignedAccess 0x0006) := rfl

/-- T-NOP2: a read right after `CMD NOP` may come before or after the engine step. -/
theorem test_read_races :
    [[Agent.host, .host, .engine], [.host, .engine, .host]].map (fun sched =>
        match Host.Core.run core 3 (launch [.write 0x0008 0, .read 0x0004] [] sched) with
        | .next t => some (t.env.readlog : List (Offset × Word))
        | .fault _ => none
        | .refused _ => none) = [some [(0x0004, 0x00000001)], some [(0x0004, 0x00000006)]] := by decide

/-- R254: a capture offered but not delivered when the run ends is no part of its observation, though the machine could step on. -/
theorem test_run_ends_first :
    (match runWithin 3 (launch [.write 0x0008 0] [[⟨.mark, 9⟩]] [.host, .engine, .capp]) with
      | .ended o => some (o.status, o.regs.caplen.val)
      | .running _ => none
      | .refused _ => none) = some (0x00000006, 0) ∧
    (match Host.Core.run core 3 (launch [.write 0x0008 0] [[⟨.mark, 9⟩]] [.host, .engine, .capp]) with
      | .next t => some (State.status t, (State.regs t).caplen.val)
      | .fault _ => none
      | .refused _ => none) = some (0x00000016, 1) := by decide

/-- R254: where the last host operation is no WAIT, the run ends only once PHASE = IDLE; before that it has no end. -/
theorem test_run_goes_on_to_idle :
    runWithin 1 (launch [.write 0x0008 0] [] [.host, .engine]) =
        .running { launch [] [] [.engine] with phase := .pending } ∧
      runWithin 5 (launch [.write 0x0008 0] [] [.host, .engine]) =
        .ended { State.reset with done := true, ok := true } := by decide

/-! ## Witnesses: for each obligation with hypotheses, a state and operands that meet them, one for each clause -/

/-- An idle, a pending and a transmitting state, each with a schedule and a host program. -/
def idleOn (sched : List Agent) (program : List HostOp) : State :=
  launch program [] sched

def busyOn (sched : List Agent) (program : List HostOp) : State :=
  { launch program [] sched with pend := 0x00019001, phase := .pending }

def sendingOn (sched : List Agent) (program : List HostOp) : State :=
  { launch program [] sched with
    phase := .txwait, txslot := some ⟨38000, [⟨.mark, 600⟩]⟩, txlog := [⟨38000, [⟨.mark, 600⟩]⟩], txresult := 1 }

theorem witness_EncodeOfDecode : decode 0x07FC7FF2 = .ok (.setbits 255 7 8 255) := by decide

theorem witness_IllegalWords :
    IllegalWord 0x00000009 ∧ IllegalWord 0x00000010 ∧ IllegalWord 0x00080001 ∧ State.reset.phase = .idle ∧
      (pendingOn State.reset 0x20000008 []).phase = .pending ∧ IllegalWord (pendingOn State.reset 0x20000008 []).pend := by
  unfold IllegalWord
  decide

/-- Both sides of each bound of R89. -/
theorem witness_AssemblerWords :
    assemble (.setbits 255 7 15 255) = some 0x07FFFFF2 ∧ assemble (.setbits 255 7 15 256) = none ∧
      assemble (.getbits 255 7 15) = some 0x0007FFF1 ∧ assemble (.getbits 255 7 16) = none ∧
      assemble (.finalize 511) = some 0x00001FF6 ∧ assemble (.finalize 512) = none ∧
      assemble (.encode 4095 255) = some 0x00FFFFF7 ∧ assemble (.encode 4096 255) = none ∧
      assemble (.decode 4095 4095 true) = some 0x1FFFFFF8 ∧ assemble (.decode 4095 4096 true) = none := by decide

theorem witness_StepRunsPendingCommand :
    (busyOn [.engine] []).env.schedule = .engine :: [] ∧ (busyOn [.engine] []).phase = .pending ∧
      decode (busyOn [.engine] []).pend = .ok (.getbits 0 1 3) ∧ State.reset.env.schedule = [] ∧
      decodeTableWord 32 0x07FC7FF2 = some (.setbits 255 7 8 255) := by decide

theorem witness_DisabledAgentMakesNoMove :
    State.reset.phase ≠ .pending ∧ State.reset.phase ≠ .txwait ∧ State.reset.env.offers = [] ∧ State.reset.env.program = [] ∧
      (busyOn [] []).phase ≠ .idle := by decide

theorem witness_IdleCmdWriteAccepted : State.reset.phase = .idle := rfl

theorem witness_BusyWriteDropped : (sendingOn [] []).phase ≠ .idle ∧ (0x0000 : Offset) ≠ 0x0004 := by decide

theorem witness_FailingCommandChangesOnlyStatus :
    ∃ t, exec (.getbits 0 0 0) State.reset = .next t ∧ t.phase = .idle ∧ t.err ≠ 0 := ⟨_, rfl, by decide⟩

theorem witness_CommandFrame :
    (∃ t, exec (.invpairs 4) State.reset = .next t) ∧ (∀ n r, Instr.invpairs 4 ≠ .encode n r) ∧
      ∃ t, exec (.encode 8 0) tp = .next t := ⟨⟨_, rfl⟩, by simp, _, rfl⟩

/-- Places beside the stored ones, for each command that stores. -/
theorem witness_CommandMemoryFrame :
    (∃ t, exec (.setbits 1 0 8 5) k5 = .next t) ∧ ¬Stores k5 (.setbits 1 0 8 5) 0 ∧
      (∃ t, exec (.invpairs 4) k5 = .next t) ∧ ¬Stores k5 (.invpairs 4) 5 ∧ ¬Stores k5 (.invpairs 4) 2 ∧
      (∃ t, exec (.finalize 5) k5 = .next t) ∧ ¬Stores k5 (.finalize 5) 0 ∧ ¬Stores k5 (.finalize 5) 5 ∧
      (∃ t, exec (.decode 8 0 false) captured = .next t) ∧ ¬Stores captured (.decode 8 0 false) 1 ∧
      ¬Stores k5 (.calcchk 5) 0 := by
  refine ⟨⟨_, rfl⟩, by simp [Stores], ⟨_, rfl⟩, by simp [Stores], by simp [Stores], ⟨_, rfl⟩, ?_, ?_, ⟨_, rfl⟩,
    by simp [Stores], by simp [Stores]⟩ <;> unfold Stores <;> decide

/-- RzRefused, for each opcode: the lowest and a higher bit. -/
theorem witness_RzRefused :
    [(0x00000010#32, 0, 4), (0x00080001, 1, 19), (0x08000002, 2, 27), (0x00002003, 3, 13), (0x00002004, 4, 13),
      (0x00002005, 5, 13), (0x80000006, 6, 13), (0x01000007, 7, 24), (0x20000008, 8, 29)].all
      (fun c => decide (c.1.toNat % 16 = c.2.1 ∧ 2 ^ c.2.2 ≤ c.1.toNat)) = true := by decide

/-- The widths at the bounds of R121, for GETBITS, SETBITS and their laws. -/
theorem witness_Bitfield :
    (1 ≤ (1#4).toNat ∧ (1#4).toNat ≤ 8) ∧ (1 ≤ (8#4).toNat ∧ (8#4).toNat ≤ 8) ∧ (0#4).toNat = 0 ∧ 8 < (9#4).toNat ∧
      fieldMask (0#3).toNat (4#4).toNat &&& fieldMask (4#3).toNat (8#4).toNat = 0 := by decide

/-- The lengths at the bound, for CALCCHK, VALIDCHK, INVPAIRS and their laws. -/
theorem witness_Lengths :
    (256#9).toNat ≤ 256 ∧ 256 < (257#9).toNat ∧ (0#9).toNat ≤ 256 ∧ (256#9).toNat % 2 = 0 ∧
      PairsOK (bufRead (withBuf State.reset [0xF2, 0x0D])) (2#9).toNat := by
  refine ⟨by decide, by decide, by decide, by decide, ?_⟩
  intro i hi
  obtain rfl : i = 0 := by
    change 2 * i + 1 < 2 at hi
    omega
  decide

/-- A valid and an invalid buffer (T-VAL2, T-VAL7). -/
theorem witness_ValidchkResult :
    Valid (bufRead (withBuf k5 [0xF2, 0x0D, 0x03, 0xFC, 0x00])) k5.regs 5 ∧ ¬Valid (bufRead k5) k5.regs 0 := by
  refine ⟨⟨by decide, by decide, by decide, ⟨by decide, ?_⟩, .inr ⟨by decide, by decide⟩⟩, fun h => absurd h.1 (by decide)⟩
  intro i hi
  have : i = 0 ∨ i = 1 := by
    change 2 * i + 1 < 4 at hi
    omega
  rcases this with rfl | rfl <;> decide

theorem witness_FinalizeResult :
    (1 ≤ (5#9).toNat ∧ (5#9).toNat ≤ 256 ∧ k5.regs.pairlen.toNat ≤ (5#9).toNat - 1 ∧
        (k5.regs.lenen = true → k5.regs.lenidx.toNat < (5#9).toNat - 1)) ∧
      (1 ≤ (1#9).toNat ∧ State.reset.regs.pairlen.toNat ≤ (1#9).toNat - 1 ∧ State.reset.regs.lenen = false) ∧
      (0#9).toNat = 0 ∧ 256 < (257#9).toNat ∧ (4#9).toNat - 1 < k5.regs.pairlen.toNat ∧
      (k5.regs.lenen = true ∧ (3#9).toNat - 1 ≤ k5.regs.lenidx.toNat) := by decide

/-- T-FIN1 and T-FIN7: the indicator stays, and the inversion overwrites it. -/
theorem witness_FinalizeThenValidate :
    (∃ t, exec (.finalize 5) k5 = .next t ∧ t.ok = true) ∧
      (∃ t, exec (.finalize 5) { k5 with regs := { k5.regs with lenidx := 1 } } = .next t ∧ t.ok = true) ∧
      k5.regs.minlen.toNat ≤ (5#9).toNat ∧ k5.regs.lenofs.toNat ≤ (5#9).toNat ∧
      ¬(k5.regs.lenidx.toNat % 2 = 1 ∧ k5.regs.lenidx.toNat < k5.regs.pairlen.toNat) :=
  ⟨⟨_, rfl, rfl⟩, ⟨_, rfl, rfl⟩, by decide⟩

theorem witness_EncodeResult :
    2048 < (2049#12).toNat ∧ (2048#12).toNat ≤ 2048 ∧ ¬EncProfileOK State.reset.regs 0 ∧ EncProfileOK tp.regs 255 ∧
      EncProfileOK { tp.regs with gap := 0 } 0 ∧ ¬EncProfileOK { tp.regs with gap := 0 } 1 ∧
      ((8#12).toNat + 7) / 8 < ({ tp.regs with minlen := 2 } : Regs).minlen.toNat ∧
      ({ tp.regs with minlen := 2 } : Regs).minlen.toNat ≤ ((9#12).toNat + 7) / 8 := by
  unfold EncProfileOK DurationsPositive
  decide

theorem witness_PulseCountAndDuration : ∃ t, exec (.encode 8 1) (withBuf tp [0xA5]) = .next t ∧ t.phase = .txwait :=
  ⟨_, rfl, rfl⟩

/-- A step whose engine hands a transaction over, from a log that has the shape. -/
theorem witness_TxLogKeepsShapeAndGrows :
    (∃ t, step (pendingOn tp 0x00000087 [.engine]) = .next t ∧ t.txlog.length = 1) ∧
      (pendingOn tp 0x00000087 [.engine]).LogWellShaped := by
  refine ⟨⟨_, rfl, by decide⟩, ?_⟩
  intro t ht
  cases ht

theorem witness_TransmissionCompletes : (sendingOn [] []).phase = .txwait := rfl

theorem witness_NothingElseEndsTransmission :
    (∃ t, step (sendingOn [.host] [.write 0x0000 1]) = .next t) ∧ (sendingOn [.host] [.write 0x0000 1]).phase = .txwait ∧
      turn (sendingOn [.host] [.write 0x0000 1]) ≠ .txp := ⟨⟨_, rfl⟩, by decide⟩

/-- The checks of DECODE 0, 0 pass on a capture of a header, a footer mark and nothing more. -/
theorem witness_DecodeResult :
    FirstFailed (decodeChecks (withCap tp [0x80000FA0, 0x00000BB8, 0x80000258] 3) 0 0 false) 0 := by
  unfold decodeChecks gapChecks DecProfileOK DurationsPositive Match IsMark
  refine .inr ⟨by decide, .inr ⟨by decide, .inr ⟨fun h => absurd h (by decide), .inr ⟨by decide, .inr ⟨by decide, .inr ⟨by decide,
    .inr ⟨by decide,
    .inr ⟨by decide, .inr ⟨by decide, .inr ⟨by decide, .inr ⟨by decide, .inr ⟨fun h => absurd h (by decide), .inr ⟨by decide,
    .inr ⟨fun h => absurd h (by decide), rfl⟩⟩⟩⟩⟩⟩⟩⟩⟩⟩⟩⟩⟩⟩

/-- A DECODE that succeeds and one that fails (T-DEC1, T-DEC31). -/
theorem witness_DecodeCommitsOnSuccessOnly :
    (∃ t, exec (.decode 8 0 false) captured = .next t ∧ t.ok = true) ∧
      (∃ t, exec (.decode 8 0 false) tp = .next t ∧ t.ok = false) ∧ ((8#12).toNat + 7) / 8 ≤ 1 :=
  ⟨⟨_, rfl, by decide⟩, ⟨_, rfl, by decide⟩, by decide⟩

/-- T-DEC23, and N = 0 with a sanctioned count in place. -/
theorem witness_StrictRejectsUnsanctioned :
    (8#12).toNat ≤ 2048 ∧ DecProfileOK tp.regs ∧ ¬Sanctioned tp.regs (8#12).toNat ∧
      ¬Sanctioned { tp.regs with sbc0 := 8 } (0#12).toNat := by
  unfold DecProfileOK DurationsPositive Sanctioned
  decide

/-- ENCODE 8, 0 of 0xA5, its pulses captured whole, and without the gap space (T-DEC1, T-DEC18). -/
theorem witness_RoundTrip :
    ∃ t ps, exec (.encode 8 0) (withBuf tp [0xA5]) = .next t ∧ t.phase = .txwait ∧ t.txslot = some ⟨tp.regs.carrier, ps⟩ ∧
      SameProfile (withBuf tp [0xA5]).regs captured.regs ∧ DecProfileOK (withBuf tp [0xA5]).regs ∧
      (0 : Nat) ≤ (0#8).toNat ∧ (0#12).toNat = 0 * frameLen (withBuf tp [0xA5]).regs (8#12).toNat ∧
      (∀ p, p < frameLen (withBuf tp [0xA5]).regs (8#12).toNat → (0#12).toNat + p < captured.regs.caplen.val →
        some (capRead captured ((0#12).toNat + p)) = (ps[(0#12).toNat + p]?).map Pulse.entry) ∧
      (0#12).toNat + frameLen (withBuf tp [0xA5]).regs (8#12).toNat ≤ captured.regs.caplen.val ∧
      0 < gapOf (withBuf tp [0xA5]).regs ∧
      (0#12).toNat + 2 * (8#12).toNat + 3 = (withCap tp frameA5 19).regs.caplen.val ∧
      (withCap tp frameA5 19).regs.gapend = true := by
  refine ⟨_, _, rfl, rfl, rfl, ⟨rfl, rfl, rfl, rfl, rfl, rfl, rfl, rfl, rfl, rfl⟩, ?_, by decide, by decide, ?_, by decide,
    by decide, by decide, by decide⟩
  · unfold DecProfileOK DurationsPositive
    decide
  · have key : ∀ p : Fin 20, some (capRead captured p.val) = ((transmission (withBuf tp [0xA5]) 8 0)[p.val]?).map Pulse.entry := by
      decide
    intro p hp _
    have h20 : frameLen (withBuf tp [0xA5]).regs (8#12).toNat = 20 := by decide
    have h0 : (0#12).toNat + p = p := Nat.zero_add p
    rw [h0]
    exact key ⟨p, h20 ▸ hp⟩

/-- The third form of the capture's end: no gap is asked for, and a SPACE stands behind the footer mark. -/
theorem witness_RoundTrip_gap0 :
    gapOf { tp.regs with gap := 0 } = 0 ∧ (0#12).toNat + 2 * (8#12).toNat + 3 < captured.regs.caplen.val ∧
      ¬IsMark captured ((0#12).toNat + 2 * (8#12).toNat + 3) := by
  unfold IsMark
  decide

/-- STRICT = 1: a sanctioned count, and one byte 0x00, which is its own checksum over no bytes. -/
theorem witness_RoundTrip_strict :
    Sanctioned { tp.regs with sbc0 := 8 } (8#12).toNat ∧
      Valid (candidate (lineBit (bufRead (withBuf tp [0x00]))) (8#12).toNat) { tp.regs with sbc0 := 8 } (((8#12).toNat + 7) / 8) := by
  refine ⟨by unfold Sanctioned; decide, by decide, by decide, by decide, ⟨by decide, ?_⟩, .inl rfl⟩
  intro i hi
  change 2 * i + 1 < 0 at hi
  omega

theorem witness_Windows : (0 : Nat) < 64 ∧ (63 : Nat) < 64 ∧ (4095 : Nat) < 4096 ∧ State.reset.phase = .idle := by decide

/-- Both ends of each reserved range, and an aligned access. -/
theorem witness_ReservedOffsetsInert :
    ReservedOffset 0x005C ∧ ReservedOffset 0x00FC ∧ ReservedOffset 0x0200 ∧ ReservedOffset 0x3FFC ∧ ReservedOffset 0x8000 ∧
      ReservedOffset 0xFFFC ∧ (idleOn [] [.read 0xFFFC]).env.program = .read 0xFFFC :: [] ∧ ProgramAligned [.read 0xFFFC] := by
  unfold ReservedOffset
  refine ⟨by decide, by decide, by decide, by decide, by decide, by decide, rfl, ?_⟩
  intro op hop off h
  rw [List.mem_singleton] at hop
  subst hop
  rcases h with h | ⟨v, h⟩ <;> cases h
  rfl

theorem witness_HostStepPerformsOperation :
    (idleOn [] [.write 0x0008 3]).env.program = .write 0x0008 3 :: [] ∧ (0x0008 : Offset).toNat % 4 = 0 ∧
      (busyOn [] [.poll 1 0]).env.program = .poll 1 0 :: [] ∧ (idleOn [] [.waitIrq]).env.program = .waitIrq :: [] := by decide

theorem witness_ReadsHaveNoSideEffect :
    (idleOn [] [.read 0x0004]).env.program = .read 0x0004 :: [] ∧ (0x0004 : Offset).toNat % 4 = 0 := by decide

/-- CTRL without SRST, and another register beside it. -/
theorem witness_Registers :
    State.reset.phase = .idle ∧ ((0x0000 : Offset), (0x0000000E : Word)) ∈ storedBits ∧ (0x0000000E : Word).getLsbD 0 = false ∧
      ((0x0054 : Offset), (0x00000FFF : Word)) ∈ storedBits ∧ (0x0058 : Offset) ≠ 0x0054 ∧ (0x0058 : Offset).toNat % 4 = 0 ∧
      ((0x0044 : Offset), 0x00010203) ∈ fieldsRead { Regs.reset with lenidx := 3, lenofs := 2, lenen := true } ∧
      ((0x0044 : Offset), { Regs.reset with lenidx := 3, lenofs := 2, lenen := true }) ∈ fieldsWritten Regs.reset 0xFFFF0203 := by
  decide

theorem witness_SoftResetEffect :
    State.reset.phase = .idle ∧ (0x0000000F : Word).getLsbD 0 = true ∧ (sendingOn [] []).phase ≠ .idle := by decide

theorem witness_PowerOnState :
    (0x0000 : Offset).toNat % 4 = 0 ∧ (0x0038 : Offset).toNat % 4 = 0 ∧ (0x00FC : Offset).toNat % 4 = 0 ∧
      (0x00FC : Offset).toNat < 0x0100 := by decide

/-- A capture of two entries: the last stored place and the first kept one; and a busy state. -/
theorem witness_CaptureDelivery :
    (launch [] [[⟨.mark, 9⟩, ⟨.space, 8⟩]] []).phase = .idle ∧
      (launch [] [[⟨.mark, 9⟩, ⟨.space, 8⟩]] []).env.offers = [⟨.mark, 9⟩, ⟨.space, 8⟩] :: [] ∧
      1 < min ([⟨.mark, 9⟩, ⟨.space, 8⟩] : List Pulse).length 4096 ∧
      min ([⟨.mark, 9⟩, ⟨.space, 8⟩] : List Pulse).length 4096 ≤ 2 ∧ (busyOn [] []).phase ≠ .idle := by decide

theorem witness_PendingReadRaces :
    (busyOn [] [.read 0x000C]).phase = .pending ∧ decode (busyOn [] [.read 0x000C]).pend = .ok (.getbits 0 1 3) ∧
      (busyOn [] [.read 0x000C]).env.program = .read 0x000C :: [] ∧ (0x000C : Offset).toNat % 4 = 0 ∧
      ∃ t, exec (.getbits 0 1 3) { busyOn [] [.read 0x000C] with
        env := { (busyOn [] [.read 0x000C]).env with schedule := [.host] } } = .next t :=
  ⟨rfl, by decide, rfl, by decide, _, rfl⟩

/-- A step of each kind that moves PHASE. -/
theorem witness_PhaseTransitions :
    (∃ t, step (idleOn [.host] [.write 0x0008 0]) = .next t ∧ t.phase ≠ (idleOn [.host] [.write 0x0008 0]).phase) ∧
      (∃ t, step (busyOn [.engine] []) = .next t ∧ t.phase ≠ (busyOn [.engine] []).phase) ∧
      (∃ t, step (pendingOn tp 0x00000087 [.engine]) = .next t ∧ t.phase = .txwait) ∧
      (∃ t, step (sendingOn [.txp] []) = .next t ∧ t.phase ≠ (sendingOn [.txp] []).phase) :=
  ⟨⟨_, rfl, by decide⟩, ⟨_, rfl, by decide⟩, ⟨_, rfl, by decide⟩, ⟨_, rfl, by decide⟩⟩

theorem witness_CommandSeesStateAtAcceptance :
    (∃ t, step (busyOn [.host] [.write 0x0100 0]) = .next t) ∧ (busyOn [.host] [.write 0x0100 0]).phase ≠ .idle ∧
      turn (busyOn [.host] [.write 0x0100 0]) ≠ .engine := ⟨⟨_, rfl⟩, by decide⟩

/-- OVR set by a dropped write, and cleared by its W1C bit and by a soft reset. -/
theorem witness_OvrSticky :
    (∃ t, step (busyOn [.host] [.write 0x0100 0]) = .next t ∧ t.ovr ≠ (busyOn [.host] [.write 0x0100 0]).ovr) ∧
      (∃ t, step { busyOn [.host] [.write 0x0004 8] with ovr := true } = .next t ∧ t.ovr = false) ∧
      (∃ t, step { idleOn [.host] [.write 0x0000 1] with ovr := true } = .next t ∧ t.ovr = false) :=
  ⟨⟨_, rfl, by decide⟩, ⟨_, rfl, by decide⟩, ⟨_, rfl, by decide⟩⟩

/-- A state in transmission meets the invariant, and steps. -/
theorem witness_StepKeepsInvariant :
    (sendingOn [.txp] []).Inv ∧ ∃ t, step (sendingOn [.txp] []) = .next t := by
  refine ⟨⟨by decide, by decide, by decide, by decide, by decide, ⟨.none, rfl⟩, by decide, ?_⟩, _, rfl⟩
  intro t ht
  cases ht
  decide

theorem witness_PendingCommandExecutes :
    (busyOn [.host, .txp, .engine, .host] [.write 0x0100 0]).env.schedule = [.host, .txp] ++ .engine :: [.host] ∧
      Agent.engine ∉ [Agent.host, .txp] ∧ (busyOn [.host, .txp, .engine, .host] [.write 0x0100 0]).phase = .pending ∧
      ProgramAligned (busyOn [.host, .txp, .engine, .host] [.write 0x0100 0]).env.program := by
  refine ⟨rfl, by decide, rfl, ?_⟩
  intro op hop off h
  obtain rfl : op = .write 0x0100 0 := List.mem_singleton.mp hop
  rcases h with h | ⟨v, h⟩ <;> cases h
  rfl

theorem witness_TransmissionEnds :
    (sendingOn [.host, .capp, .txp] []).env.schedule = [.host, .capp] ++ .txp :: [] ∧ Agent.txp ∉ [Agent.host, .capp] ∧
      (sendingOn [.host, .capp, .txp] []).phase = .txwait ∧ ProgramAligned (sendingOn [.host, .capp, .txp] []).env.program :=
  ⟨rfl, by decide, rfl, fun op hop => by cases hop⟩

theorem witness_TransmissionCanHang :
    (sendingOn [.host, .engine, .capp] [.poll 1 0]).phase = .txwait ∧
      ProgramAligned (sendingOn [.host, .engine, .capp] [.poll 1 0]).env.program ∧
      (sendingOn [.host, .engine, .capp] [.poll 1 0]).env.schedule = [.host, .engine, .capp] ∧
      Agent.txp ∉ [Agent.host, .engine, .capp] := by
  refine ⟨rfl, ?_, rfl, by decide⟩
  intro op hop off h
  obtain rfl : op = .poll 1 0 := List.mem_singleton.mp hop
  rcases h with h | ⟨v, h⟩ <;> cases h

/-- The next access is misaligned, and it is the host's turn. -/
theorem witness_OnlyMisalignedAccessStops :
    turn (idleOn [.host] [.write 0x0102 0]) = .host ∧ NextAccessMisaligned (idleOn [.host] [.write 0x0102 0]) 0x0102 :=
  ⟨rfl, by decide, [], .inr ⟨0, rfl⟩⟩

/-- `WAIT; WR CTRL, IE_DONE; CMD NOP` and then the three waits, under twenty rounds. -/
theorem witness_FairRunEnds :
    let rounds : List (List Agent) := List.replicate 20 [.capp, .txp, .engine, .host]
    let s := idleOn rounds.flatten
      [.poll 1 0, .write 0x0000 4, .write 0x0008 0, .poll 2 2, .waitIrq, .poll 1 0]
    ProgramEnds s ∧ s.env.schedule = rounds.flatten ∧ (∀ r ∈ rounds, IsRound r) ∧
      3 * s.env.program.length + 2 ≤ rounds.length := by
  refine ⟨?_, rfl, ?_, by decide⟩
  · exact .inl ⟨rfl, rfl, rfl, rfl, .inr ⟨rfl, rfl, rfl, rfl, rfl, .inl ⟨rfl, rfl, trivial⟩⟩⟩
  · intro r hr
    obtain rfl := List.eq_of_mem_replicate hr
    unfold IsRound
    decide

end Sys2Proof.Tests
end

section
/-! PROOF. The statements of 00_scope.md: for each agent, the states in which its step is not enabled, where its turn leaves the
state as it is. -/

namespace Sys2Proof.Machine

/-- R102: the ENGINE's step is enabled only in PENDING. -/
theorem engineStep_of_not_pending {s : State} (h : s.phase ≠ .pending) : engineStep s = .next s := by
  unfold engineStep
  cases hp : s.phase with
  | idle => rfl
  | pending => exact absurd hp h
  | txwait => rfl

/-- R167: TXP's step is enabled only in TXWAIT. -/
theorem txpStep_of_not_txwait {s : State} (h : s.phase ≠ .txwait) : txpStep s = .next s := by
  unfold txpStep
  cases hp : s.phase with
  | idle => rfl
  | pending => rfl
  | txwait => exact absurd hp h

/-- R71: a capture is held while the engine is busy. -/
theorem cappStep_of_not_idle {s : State} (h : s.phase ≠ .idle) : cappStep s = .next s := by
  unfold cappStep
  cases hp : s.phase with
  | idle => exact absurd hp h
  | pending => rfl
  | txwait => rfl

/-- R71: with no capture offered there is nothing to deliver, in any phase. -/
theorem cappStep_of_no_offers {s : State} (h : s.env.offers = []) : cappStep s = .next s := by
  unfold cappStep
  rw [h]
  cases s.phase <;> rfl

/-- R256: the host has no operation left. -/
theorem hostStep_of_program_nil {s : State} (h : s.env.program = []) : hostStep s = .next s := by
  unfold hostStep
  rw [h]

end Sys2Proof.Machine

open Sys2Proof.Machine

/-- Settles O9, agent by agent: each conjunct is what the agent's own step does where it is not enabled. -/
theorem disabledAgentMakesNoMove : Obligations.DisabledAgentMakesNoMove := by
  refine ⟨fun s h => ?engine, fun s h => ?txp, fun s h => ?capp, fun s h => ?host⟩
  case engine => exact engineStep_of_not_pending h
  case txp => exact txpStep_of_not_txwait h
  case capp =>
    obtain hbusy | hnone := h
    · exact cappStep_of_not_idle hbusy
    · exact cappStep_of_no_offers hnone
  case host => exact hostStep_of_program_nil h

end

section
/-! PROOF. The statements of 10_state.md on the register file: what STATUS, CTRL and LENCFG read as, which register each offset of
the tables names, and a write to a register as an update of that register alone. -/

namespace Sys2Proof.Machine

open Sys2Proof.Claims

/-! Words in numbers: a bit, and the bits under a mask. -/

theorem toNat_getLsbD (v : Word) (i : Nat) : (v.getLsbD i).toNat = v.toNat / 2 ^ i % 2 := by
  rw [BitVec.getLsbD, Nat.toNat_testBit]

/-- The bits under a mask of `n` ones from bit `lo` on. -/
theorem and_shiftedMask (x n lo : Nat) : x &&& (2 ^ n - 1) <<< lo = x / 2 ^ lo % 2 ^ n * 2 ^ lo := by
  rw [← Nat.shiftLeft_eq, ← Nat.shiftRight_eq_div_pow]
  refine Nat.eq_of_testBit_eq fun i => ?_
  by_cases h : lo ≤ i
  · simp [Nat.testBit_and, Nat.testBit_mod_two_pow, h, Bool.and_comm]
  · simp [Nat.testBit_and, h]

theorem toNat_and_mask (v m : Word) (n lo : Nat) (hm : m.toNat = (2 ^ n - 1) <<< lo) :
    (v &&& m).toNat = v.toNat / 2 ^ lo % 2 ^ n * 2 ^ lo := by
  rw [BitVec.toNat_and, hm, and_shiftedMask]

/-- A field stored from the low bits of a word, read back, is the word under the field's mask. -/
theorem setWidth_extractLsb_low (v m : Word) (n : Nat) (hm : m.toNat = 2 ^ (n + 1) - 1) :
    (v.extractLsb n 0).setWidth 32 = v &&& m := by
  have hlt : v.toNat % 2 ^ (n + 1) < 2 ^ 32 := (Nat.mod_le _ _).trans_lt v.isLt
  rw [← BitVec.toNat_inj, BitVec.toNat_setWidth, toNat_extractLsb_div, BitVec.toNat_and, hm,
    Nat.and_two_pow_sub_one_eq_mod, pow_zero, Nat.div_one, Nat.sub_zero, Nat.mod_eq_of_lt hlt]

/-! What the registers with more than one field, and CAPLEN, read as (R25, R26, R35, R38). -/

theorem toNat_status (s : State) :
    s.status.toNat = s.busy.toNat + s.done.toNat <<< 1 + s.ok.toNat <<< 2 + s.ovr.toNat <<< 3 +
      s.caprdy.toNat <<< 4 + s.err.toNat <<< 8 := by
  simp only [State.status, toNat_append_add, toNat_ofBool, BitVec.toNat_ofNat, Nat.shiftLeft_eq]
  omega

theorem toNat_readReg_ctrl (s : State) :
    (readReg s .ctrl).toNat = s.regs.gapend.toNat <<< 1 + s.regs.ieDone.toNat <<< 2 + s.regs.ieCap.toNat <<< 3 := by
  simp only [readReg, toNat_append_add, toNat_ofBool, BitVec.toNat_ofNat, Nat.shiftLeft_eq]
  omega

theorem toNat_readReg_framing (s : State) : (readReg s .framing).toNat = s.regs.markfirst.toNat := by
  simp only [readReg, toNat_append_add, toNat_ofBool, BitVec.toNat_ofNat]
  omega

theorem toNat_readReg_lencfg (s : State) :
    (readReg s .lencfg).toNat = s.regs.lenidx.toNat + s.regs.lenofs.toNat <<< 8 + s.regs.lenen.toNat <<< 16 := by
  simp only [readReg, toNat_append_add, toNat_ofBool, BitVec.toNat_ofNat, Nat.shiftLeft_eq]
  omega

theorem toNat_readReg_caplen (s : State) : (readReg s .caplen).toNat = s.regs.caplen.val :=
  Nat.mod_eq_of_lt (by omega)

/-! The bits of STATUS and CTRL that other rules name. -/

theorem status_getLsbD_busy (s : State) : s.status.getLsbD 0 = s.busy := by
  simp only [State.status, BitVec.getLsbD_append]
  simp

theorem status_getLsbD_done (s : State) : s.status.getLsbD 1 = s.done := by
  simp only [State.status, BitVec.getLsbD_append]
  simp

theorem status_getLsbD_caprdy (s : State) : s.status.getLsbD 4 = s.caprdy := by
  simp only [State.status, BitVec.getLsbD_append]
  simp

theorem readReg_ctrl_getLsbD_ieDone (s : State) : (readReg s .ctrl).getLsbD 2 = s.regs.ieDone := by
  simp only [readReg, BitVec.getLsbD_append]
  simp

theorem readReg_ctrl_getLsbD_ieCap (s : State) : (readReg s .ctrl).getLsbD 3 = s.regs.ieCap := by
  simp only [readReg, BitVec.getLsbD_append]
  simp

theorem busy_iff (s : State) : s.busy = true ↔ s.phase ≠ .idle :=
  decide_eq_true_iff

/-! A bus access at the offset of a register is an access to that register. -/

theorem busRead_reg {s : State} {off : Offset} {r : Reg} (h : target off = .reg r) : busRead s off = readReg s r := by
  rw [busRead, h]

theorem busWrite_reg {s : State} {off : Offset} {r : Reg} (v : Word) (hi : s.phase = .idle) (h : target off = .reg r) :
    busWrite s off v = writeReg s v r := by
  rw [busWrite, h, if_neg (not_not_intro hi)]
  split
  · rename_i hr
    cases hr
    rfl
  · rfl

/-- BUF, CAP and the reserved offsets read the same whatever the registers hold. -/
theorem busRead_regs {s : State} {off : Offset} (h : ∀ r, target off ≠ .reg r) (rs : Regs) :
    busRead { s with regs := rs } off = busRead s off := by
  unfold busRead
  split
  · exact absurd (by assumption) (h _)
  all_goals rfl

/-! The rows of the statements' tables, each as the register that its offset names. -/

/-- The bits that a register stores as written, for the registers of `storedBits`. -/
def Reg.storedMask : Reg → Option Word
  | .ctrl => some 0x0000000E
  | .hdrmark | .hdrspace | .onemark | .onespace | .zeromark | .zerospace | .ftrmark | .gap | .defgap => some 0x7FFFFFFF
  | .carrier => some 0x00FFFFFF
  | .framing => some 0x00000001
  | .tol | .minlen | .pairlen => some 0x000000FF
  | .lencfg => some 0x0001FFFF
  | .sbc0 | .sbc1 | .sbc2 => some 0x00000FFF
  | .status | .cmd | .result | .caplen => none

theorem storedBits_reg {x : Offset × Word} (hx : x ∈ storedBits) :
    ∃ r, target x.1 = .reg r ∧ r.storedMask = some x.2 := by
  rw [storedBits] at hx
  fin_cases hx <;> exact ⟨_, rfl, rfl⟩

theorem fieldsRead_reg (s : State) :
    ∀ x ∈ fieldsRead s.regs, ∃ r, target x.1 = .reg r ∧ (readReg s r).toNat = x.2 := by
  simp only [fieldsRead, List.forall_mem_cons]
  refine ⟨⟨.ctrl, rfl, toNat_readReg_ctrl s⟩, ?_, ?_, ?_, ?_, ?_, ?_, ?_, ?_, ?_, ?_,
    ⟨.framing, rfl, toNat_readReg_framing s⟩, ?_, ?_, ⟨.lencfg, rfl, toNat_readReg_lencfg s⟩, ?_, ?_, ?_, ?_,
    ⟨.caplen, rfl, toNat_readReg_caplen s⟩, List.forall_mem_nil _⟩
  all_goals exact ⟨_, rfl, BitVec.toNat_setWidth_of_le (by decide)⟩

/-- A write to CTRL without SRST. -/
theorem writeReg_ctrl (s : State) {v : Word} (h : v.getLsbD 0 = false) :
    writeReg s v .ctrl =
      { s with regs := { s.regs with gapend := v.getLsbD 1, ieDone := v.getLsbD 2, ieCap := v.getLsbD 3 } } := by
  rw [writeReg, writeCtrl, h]
  rfl

theorem fieldsWritten_reg (s : State) (v : Word) {x : Offset × Regs} (hx : x ∈ fieldsWritten s.regs v.toNat)
    (hv : x.1 = 0x0000 → v.getLsbD 0 = false) :
    ∃ r, target x.1 = .reg r ∧ writeReg s v r = { s with regs := x.2 } := by
  rw [fieldsWritten] at hx
  fin_cases hx
  · exact ⟨.ctrl, rfl, writeReg_ctrl s (hv rfl)⟩
  all_goals exact ⟨_, rfl, rfl⟩

/-! A write to a register that stores bits as written, SRST left 0. -/

section StoredWrite

variable {r : Reg} {v m : Word} (s : State) (hm : r.storedMask = some m) (hv : r = .ctrl → v.getLsbD 0 = false)

include hm hv

theorem writeReg_changes_regs_only : ∃ rs, writeReg s v r = { s with regs := rs } := by
  cases r <;> cases hm
  case ctrl => exact ⟨_, writeReg_ctrl s (hv rfl)⟩
  all_goals exact ⟨_, rfl⟩

theorem readReg_writeReg_same : readReg (writeReg s v r) r = v &&& m := by
  cases r <;> cases hm
  case ctrl =>
    rw [writeReg_ctrl s (hv rfl), ← BitVec.toNat_inj, toNat_readReg_ctrl, toNat_and_mask v _ 3 1 rfl]
    simp only [toNat_getLsbD, Nat.shiftLeft_eq]
    omega
  case framing =>
    rw [← BitVec.toNat_inj, toNat_readReg_framing, toNat_and_mask v _ 1 0 rfl]
    simp only [writeReg, toNat_getLsbD]
    omega
  case lencfg =>
    rw [← BitVec.toNat_inj, toNat_readReg_lencfg, toNat_and_mask v _ 17 0 rfl]
    simp only [writeReg, toNat_getLsbD, toNat_extractLsb_div, Nat.shiftLeft_eq]
    omega
  all_goals exact setWidth_extractLsb_low v _ _ rfl

/-- No register reads a field that a write to another register sets. -/
theorem readReg_writeReg_other {r' : Reg} (hne : r' ≠ r) : readReg (writeReg s v r) r' = readReg s r' := by
  cases r <;> cases hm
  case ctrl =>
    rw [writeReg_ctrl s (hv rfl)]
    cases r' <;> try exact absurd rfl hne
    all_goals rfl
  all_goals
    cases r' <;> try exact absurd rfl hne
    all_goals rfl

/-- A write to such a register leaves the word read at every other offset. -/
theorem busRead_writeReg_other {off off' : Offset} (hr : target off = .reg r) (hne : off' ≠ off) :
    busRead (writeReg s v r) off' = busRead s off' := by
  by_cases h : ∃ r', target off' = .reg r'
  · obtain ⟨r', hr'⟩ := h
    have hrr : r' ≠ r := by
      rintro rfl
      exact hne (BitVec.eq_of_toNat_eq (regAt_injective (target_reg.mp hr') (target_reg.mp hr)))
    rw [busRead_reg hr', busRead_reg hr', readReg_writeReg_other s hm hv hrr]
  · obtain ⟨rs, hrs⟩ := writeReg_changes_regs_only s hm hv
    rw [hrs, busRead_regs (not_exists.mp h)]

end StoredWrite

/-- A row of `storedBits`, with the premise on SRST carried over to the register. -/
theorem storedBits_write {v : Word} {off : Offset} {mask : Word} (hx : (off, mask) ∈ storedBits)
    (hv : off = 0x0000 → v.getLsbD 0 = false) :
    ∃ r, target off = .reg r ∧ r.storedMask = some mask ∧ (r = .ctrl → v.getLsbD 0 = false) := by
  obtain ⟨r, hr, hm⟩ := storedBits_reg hx
  refine ⟨r, hr, hm, ?_⟩
  rintro rfl
  exact hv (target_ctrl.mp hr)

/-- R39: the value that a write stores in CAPLEN. -/
theorem clampCaplen_val (v : Word) : (clampCaplen v).val = min (v.toNat % 2 ^ 13) 4096 := by
  simp [clampCaplen]

end Sys2Proof.Machine

open Sys2Proof.Machine

/-- Settles O41: an offset of either table names a register, whose reading is the row's, before and after the write. -/
theorem registerReadback : Obligations.RegisterReadback := by
  refine ⟨fun s x hx => ?fields, fun s v off mask hi hx hv => ?readback⟩
  case fields =>
    obtain ⟨r, hr, hval⟩ := fieldsRead_reg s x hx
    rw [busRead_reg hr, hval]
  case readback =>
    obtain ⟨r, hr, hm, hctrl⟩ := storedBits_write hx hv
    rw [busWrite_reg v hi hr, busRead_reg hr, readReg_writeReg_same s hm hctrl]

/-- Settles O42: the write is `writeReg` of the register that the offset names; another offset names another register or none. -/
theorem registerWriteFrame : Obligations.RegisterWriteFrame := by
  refine ⟨fun s v hi x hx hv => ?written, fun s v off off' mask hi hx hv hne _ => ?frame⟩
  case written =>
    obtain ⟨r, hr, hw⟩ := fieldsWritten_reg s v hx hv
    rw [busWrite_reg v hi hr, hw]
  case frame =>
    obtain ⟨r, hr, hm, hctrl⟩ := storedBits_write hx hv
    rw [busWrite_reg v hi hr, busRead_writeReg_other s hm hctrl hr hne]

/-- Settles O43: STATUS field by field, and the registers at the other two offsets. -/
theorem statusResultCmdAccess : Obligations.StatusResultCmdAccess := by
  refine ⟨fun s => ?status, fun s => ?reads, fun s v hi => ?resultWrite⟩
  case status =>
    have hbusy : s.busy.toNat = if s.phase = .idle then 0 else 1 := by
      by_cases h : s.phase = .idle <;> simp [State.busy, h]
    rw [busRead_reg (target_status.mpr rfl), readReg, toNat_status, hbusy]
  case reads => exact ⟨busRead_reg (target_cmd.mpr rfl), busRead_reg (r := .result) rfl⟩
  case resultWrite => exact busWrite_reg (r := .result) v hi rfl

/-- Settles O44, by what `clampCaplen` stores. -/
theorem caplenWriteClamps : Obligations.CaplenWriteClamps := by
  intro s v hi
  have hcaplen : target 0x0058 = .reg .caplen := rfl
  have hwrite : busWrite s 0x0058 v = { s with regs := { s.regs with caplen := clampCaplen v } } :=
    busWrite_reg v hi hcaplen
  refine ⟨⟨clampCaplen v, clampCaplen_val v, hwrite⟩, ?_⟩
  rw [busRead_reg hcaplen, toNat_readReg_caplen, hwrite, clampCaplen_val]

/-- Settles O50: each of the four bits, as the host reads it, is the flag that the line is computed from. -/
theorem irqIsGatedOr : Obligations.IrqIsGatedOr := by
  intro s
  have hstatus : busRead s 0x0004 = s.status := busRead_reg (target_status.mpr rfl)
  have hctrl : busRead s 0x0000 = readReg s .ctrl := busRead_reg (target_ctrl.mpr rfl)
  rw [hstatus, hctrl, status_getLsbD_done, status_getLsbD_caprdy, readReg_ctrl_getLsbD_ieDone,
    readReg_ctrl_getLsbD_ieCap, State.irq]

end

section
/-! PROOF. The statement of 10_state.md on PHASE (R41): for each agent, when its step moves PHASE and where to. -/

namespace Sys2Proof.Machine

/-- A bus write moves PHASE only as an accepted command word. -/
theorem busWrite_of_phase_ne {s : State} {off : Offset} {v : Word} (h : (busWrite s off v).phase ≠ s.phase) :
    s.phase = .idle ∧ off = 0x0008 ∧ busWrite s off v = accept v s := by
  rcases busWrite_cases s off v with ⟨_, hw⟩ | ⟨_, _, hw⟩ | ⟨h4, hi, hw⟩
  · exact absurd (congrArg State.phase hw) h
  · exact absurd (congrArg State.phase hw) h
  · rcases writeTarget_cases s v off h4 with ⟨h8, hx⟩ | ⟨_, _, hx⟩ | ⟨_, _, hx⟩ | ⟨_, _, hx⟩ | ⟨_, hx⟩
    · exact ⟨hi, h8, hw.trans hx⟩
    all_goals exact absurd (congrArg State.phase (hw.trans hx)) h

theorem hostStep_of_phase_ne {s t : State} (h : hostStep s = .next t) (hne : t.phase ≠ s.phase) :
    s.phase = .idle ∧ ∃ w rest, s.env.program = .write 0x0008 w :: rest ∧ t = accept w (setProgram s rest) := by
  rcases hostStep_cases h with ⟨_, rfl⟩ | ⟨off, v, rest, hprog, _, rfl⟩
  · exact absurd rfl hne
  · obtain ⟨hi, rfl, hw⟩ := busWrite_of_phase_ne hne
    exact ⟨hi, v, rest, hprog, hw⟩

/-- A command ends in IDLE, or it is an ENCODE that has handed its transaction over. -/
theorem exec_phase {i : Instr} {s t : State} (h : exec i s = .next t) :
    t.phase = .idle ∨ (t.phase = .txwait ∧ t.txslot.isSome = true ∧ ∃ n r, i = .encode n r) := by
  cases effect_of_exec h with
  | failed e he => exact .inl rfl
  | succeeded r b hb => exact .inl rfl
  | handedOff n r hi hp => exact .inr ⟨rfl, rfl, n, r, hi⟩

theorem engineStep_of_phase_ne {s t : State} (h : engineStep s = .next t) (hne : t.phase ≠ s.phase) :
    s.phase = .pending ∧
      (t.phase = .idle ∨
        (t.phase = .txwait ∧ t.txslot.isSome = true ∧ ∃ n r, decode s.pend = .ok (.encode n r))) := by
  rcases engineStep_cases h with ⟨_, rfl⟩ | ⟨hp, i, hd, hx⟩ | ⟨hp, _, _, rfl⟩
  · exact absurd rfl hne
  · obtain hidle | ⟨hw, hslot, n, r, rfl⟩ := exec_phase hx
    · exact ⟨hp, .inl hidle⟩
    · exact ⟨hp, .inr ⟨hw, hslot, n, r, hd⟩⟩
  · exact ⟨hp, .inl rfl⟩

theorem txpStep_of_phase_ne {s t : State} (h : txpStep s = .next t) (hne : t.phase ≠ s.phase) :
    s.phase = .txwait ∧ t.phase = .idle := by
  rcases txpStep_cases h with ⟨_, rfl⟩ | ⟨hw, rfl⟩
  · exact absurd rfl hne
  · exact ⟨hw, rfl⟩

theorem cappStep_phase {s t : State} (h : cappStep s = .next t) : t.phase = s.phase := by
  rcases cappStep_cases h with ⟨rfl, _⟩ | ⟨_, _, _, _, rfl⟩ <;> rfl

end Sys2Proof.Machine

open Sys2Proof.Machine

/-- Settles O51: the agent whose turn it is makes the one move of PHASE that is its own; CAPP makes none. -/
theorem phaseTransitions : Obligations.PhaseTransitions := by
  refine ⟨rfl, fun s => ?busy, fun s t hs hne => ?moves⟩
  case busy => rw [busRead_reg (target_status.mpr rfl), readReg, status_getLsbD_busy, busy_iff]
  case moves =>
    rw [step] at hs
    rw [← spendTurn_phase s] at hne
    cases hturn : turn s <;> rw [hturn] at hs
    case host =>
      obtain ⟨hi, w, rest, hprog, rfl⟩ := hostStep_of_phase_ne hs hne
      rw [spendTurn_phase] at hi
      rw [spendTurn_program] at hprog
      exact .inl ⟨hi, rfl, rfl, w, rest, hprog, rfl, rfl⟩
    case engine =>
      obtain ⟨hp, hmove⟩ := engineStep_of_phase_ne hs hne
      rw [spendTurn_phase] at hp
      rw [spendTurn_pend] at hmove
      exact .inr (.inl ⟨hp, rfl, hmove⟩)
    case txp =>
      obtain ⟨hw, hidle⟩ := txpStep_of_phase_ne hs hne
      rw [spendTurn_phase] at hw
      exact .inr (.inr ⟨hw, hidle, rfl⟩)
    case capp => exact absurd (cappStep_phase hs) hne

end

section
/-! PROOF. The statements of 20_memory.md on the window: which offset an address names (R62), the reserved offsets (R63), and the
BUF and CAP windows (R64, R65). -/

namespace Sys2Proof.Machine

open Sys2Proof.Claims

/-! Addresses (R62). -/

theorem windowOffset_eq_some_iff {a : Nat} {off : Offset} :
    windowOffset a = some off ↔ a = Config.ircodecBase + off.toNat := by
  have hoff := off.isLt
  unfold windowOffset
  split
  · rw [Option.some_inj, ← BitVec.toNat_inj, BitVec.toNat_ofNat]
    omega
  · simp only [reduceCtorEq, false_iff]
    omega

/-! What a write reaches (R23, R63). -/

/-- While idle a write takes effect on what its offset addresses, STATUS or any other. -/
theorem busWrite_of_idle {s : State} (off : Offset) (v : Word) (hi : s.phase = .idle) :
    busWrite s off v = writeTarget s v (target off) := by
  rcases busWrite_cases s off v with ⟨rfl, hw⟩ | ⟨_, hbusy, _⟩ | ⟨_, _, hw⟩
  · exact hw
  · exact absurd hi hbusy
  · exact hw

theorem target_reserved {off : Offset} (h : ReservedOffset off) : target off = .reserved := by
  have hranges : 0x005C ≤ off.toNat ∧ ¬(0x0100 ≤ off.toNat ∧ off.toNat < 0x0200) ∧
      ¬(0x4000 ≤ off.toNat ∧ off.toNat < 0x8000) := by
    unfold ReservedOffset at h
    omega
  obtain ⟨hreg, hbuf, hcap⟩ := hranges
  rw [target, if_neg hbuf, if_neg hcap, regAt_high hreg]

/-! Words of the BUF window (R64). -/

theorem toNat_readBufWord (s : State) (k : Nat) :
    (readBufWord s k).toNat = (bufRead s (4 * k)).toNat + (bufRead s (4 * k + 1)).toNat <<< 8 +
      (bufRead s (4 * k + 2)).toNat <<< 16 + (bufRead s (4 * k + 3)).toNat <<< 24 := by
  simp only [readBufWord, toNat_append_add, Nat.shiftLeft_eq]
  omega

theorem wordBytes_getD (v : Word) {i : Nat} (hi : i < 4) :
    (wordBytes v).getD i 0 = BitVec.ofNat 8 (v.toNat >>> (8 * i)) := by
  interval_cases i <;> rfl

theorem bufRead_bufWriteAll_wordBytes (s : State) (k j : Nat) (v : Word) :
    bufRead (bufWriteAll s (4 * k) (wordBytes v)) j =
      if j / 4 = k then BitVec.ofNat 8 (v.toNat >>> (8 * (j % 4))) else bufRead s j := by
  have hword : (4 * k ≤ j ∧ j < 4 * k + (wordBytes v).length) ↔ j / 4 = k := by
    simp only [wordBytes, List.length_cons, List.length_nil]
    omega
  rw [bufRead_bufWriteAll, if_congr hword rfl rfl]
  refine ite_congr rfl (fun hk => ?_) fun _ => rfl
  rw [wordBytes_getD v (by omega), show j - 4 * k = j % 4 by omega]

end Sys2Proof.Machine

open Sys2Proof.Machine

/-- Settles O36: the offset addresses word `k` of BUF, whose four bytes are joined by the read and stored by the write. -/
theorem bufWindowLittleEndian : Obligations.BufWindowLittleEndian := by
  intro s k hk
  have hread : busRead s (BitVec.ofNat 16 (0x0100 + 4 * k)) = readBufWord s k := by
    rw [busRead, target_buf hk]
  refine ⟨by rw [hread, toNat_readBufWord], fun hi v => ?_⟩
  have hwrite : busWrite s (BitVec.ofNat 16 (0x0100 + 4 * k)) v = bufWriteAll s (4 * k) (wordBytes v) := by
    rw [busWrite_of_idle _ v hi, target_buf hk, writeTarget]
  rw [hwrite]
  exact ⟨fun j => bufRead_bufWriteAll_wordBytes s k j v, rfl⟩

/-- Settles O37: the offset addresses entry `k` of CAP. -/
theorem capWindow : Obligations.CapWindow := by
  intro s k hk
  refine ⟨by rw [busRead, target_cap hk], fun hi v => ?_⟩
  have hwrite : busWrite s (BitVec.ofNat 16 (0x4000 + 4 * k)) v = capWrite s k v := by
    rw [busWrite_of_idle _ v hi, target_cap hk, writeTarget]
  rw [hwrite]
  exact ⟨fun j => capRead_capWrite s k j v, rfl⟩

/-- Settles O47: an address names none exactly where it names no offset. -/
theorem windowAddresses : Obligations.WindowAddresses := by
  refine ⟨fun _ => rfl, fun _ _ => windowOffset_eq_some_iff, fun a => ?none⟩
  case none =>
    rw [Option.eq_none_iff_forall_ne_some]
    exact forall_congr' fun off => not_congr windowOffset_eq_some_iff

end

section
/-! PROOF. The statements of 20_memory.md on the host's step: each operation of its program (R68, R73, R91), the access that it
has no move for (R61), and the order of a read and the engine's step (R75). -/

namespace Sys2Proof.Machine

open Sys2Proof.Claims

theorem aligned_iff {off : Offset} : aligned off = true ↔ off.toNat % 4 = 0 :=
  decide_eq_true_iff

/-! The host's step on each operation. -/

/-- R68: the word recorded is the one the block holds before the program goes on. -/
theorem recordRead_setProgram (s : State) (off : Offset) (rest : List HostOp) :
    recordRead (setProgram s rest) off =
      { s with env := { s.env with program := rest, readlog := s.env.readlog ++ [(off, busRead s off)] } } := by
  rw [recordRead, setProgram, busRead_env]

section HostOperation

variable {s : State} {off : Offset} {rest : List HostOp}

theorem hostStep_write {v : Word} (hp : s.env.program = .write off v :: rest) (ha : off.toNat % 4 = 0) :
    hostStep s = .next (busWrite (setProgram s rest) off v) := by
  unfold hostStep
  simp only [hp, aligned_iff.mpr ha, if_true]

theorem hostStep_read (hp : s.env.program = .read off :: rest) (ha : off.toNat % 4 = 0) :
    hostStep s = .next (recordRead (setProgram s rest) off) := by
  unfold hostStep
  simp only [hp, aligned_iff.mpr ha, if_true]

theorem hostStep_poll {mask want : Word} (hp : s.env.program = .poll mask want :: rest) :
    hostStep s = .next (recordRead (if s.status &&& mask = want then setProgram s rest else s) 0x0004) := by
  unfold hostStep
  rw [hp]

theorem hostStep_waitIrq (hp : s.env.program = .waitIrq :: rest) :
    hostStep s = .next (if s.irq then setProgram s rest else s) := by
  unfold hostStep
  rw [hp]

theorem hostStep_misaligned (h : NextAccessMisaligned s off) : hostStep s = .refused (.misalignedAccess off) := by
  obtain ⟨hoff, rest, hp | ⟨v, hp⟩⟩ := h
  all_goals
    unfold hostStep
    simp only [hp, aligned_iff, hoff, if_false]

end HostOperation

/-- Every operation but a misaligned access has a step. -/
theorem hostStep_total (s : State) :
    (∃ t, hostStep s = .next t) ∨ ∃ off, NextAccessMisaligned s off := by
  cases hp : s.env.program with
  | nil => exact .inl ⟨_, hostStep_of_program_nil hp⟩
  | cons op rest =>
    cases op with
    | write off v =>
      by_cases ha : off.toNat % 4 = 0
      · exact .inl ⟨_, hostStep_write hp ha⟩
      · exact .inr ⟨off, ha, rest, .inr ⟨v, hp⟩⟩
    | read off =>
      by_cases ha : off.toNat % 4 = 0
      · exact .inl ⟨_, hostStep_read hp ha⟩
      · exact .inr ⟨off, ha, rest, .inl hp⟩
    | poll mask want => exact .inl ⟨_, hostStep_poll hp⟩
    | waitIrq => exact .inl ⟨_, hostStep_waitIrq hp⟩

theorem hostStep_refused_iff {s : State} {off : Offset} :
    hostStep s = .refused (.misalignedAccess off) ↔ NextAccessMisaligned s off := by
  refine ⟨fun h => ?_, hostStep_misaligned⟩
  obtain ⟨t, ht⟩ | ⟨off', hoff'⟩ := hostStep_total s
  · rw [ht] at h
    cases h
  · rw [hostStep_misaligned hoff'] at h
    cases h
    exact hoff'

/-! Only the host's step can be refused. -/

theorem engineStep_total (s : State) : ∃ t, engineStep s = .next t := by
  by_cases hp : s.phase = .pending
  · cases hd : decode s.pend with
    | ok i =>
      obtain ⟨t, ht, _⟩ := exec_effect i s
      exact ⟨t, (engineStep_pending hp hd).trans ht⟩
    | error e => exact ⟨_, engineStep_illegal hp hd⟩
  · exact ⟨s, engineStep_of_not_pending hp⟩

theorem txpStep_total (s : State) : ∃ t, txpStep s = .next t := by
  unfold txpStep
  split <;> exact ⟨_, rfl⟩

theorem cappStep_total (s : State) : ∃ t, cappStep s = .next t := by
  unfold cappStep
  split <;> exact ⟨_, rfl⟩

theorem agentStep_total {a : Agent} (h : a ≠ .host) (s : State) : ∃ t, agentStep a s = .next t := by
  cases a with
  | host => exact absurd rfl h
  | engine => exact engineStep_total s
  | txp => exact txpStep_total s
  | capp => exact cappStep_total s

theorem nextAccessMisaligned_spendTurn {s : State} {off : Offset} :
    NextAccessMisaligned (spendTurn s) off ↔ NextAccessMisaligned s off := by
  rw [NextAccessMisaligned, NextAccessMisaligned, spendTurn_program]

/-! What a command, and the engine's turn, leave. -/

theorem exec_sameOutsideCommand {i : Instr} {s t : State} (h : exec i s = .next t) : SameOutsideCommand s t := by
  cases effect_of_exec h <;> exact ⟨rfl, rfl, rfl, rfl, rfl, rfl⟩

theorem engineStep_sameOutsideCommand {s t : State} (h : engineStep s = .next t) : SameOutsideCommand s t := by
  rcases engineStep_cases h with ⟨_, rfl⟩ | ⟨_, i, _, hx⟩ | ⟨_, _, _, rfl⟩
  · exact ⟨rfl, rfl, rfl, rfl, rfl, rfl⟩
  · exact exec_sameOutsideCommand hx
  · exact ⟨rfl, rfl, rfl, rfl, rfl, rfl⟩

/-! One step and several under a schedule. -/

theorem step_of_schedule {s : State} {a : Agent} {later : List Agent} (h : s.env.schedule = a :: later) :
    step s = agentStep a { s with env := { s.env with schedule := later } } := by
  rw [step, turn, spendTurn, h]

theorem step_read_turn {s : State} {later : List Agent} {off : Offset} {rest : List HostOp}
    (hs : s.env.schedule = .host :: later) (hp : s.env.program = .read off :: rest) (ha : off.toNat % 4 = 0) :
    ∃ t, step s = .next t ∧ t.env =
      { s.env with schedule := later, program := rest, readlog := s.env.readlog ++ [(off, busRead s off)] } := by
  refine ⟨_, (step_of_schedule hs).trans (hostStep_read hp ha), ?_⟩
  rw [recordRead_setProgram, busRead_env]

/-- Whatever the engine does in its turn, the host's program and record stay. -/
theorem step_engine_turn {s : State} {later : List Agent} (hs : s.env.schedule = .engine :: later) :
    ∃ t, step s = .next t ∧ t.env = { s.env with schedule := later } := by
  obtain ⟨t, ht⟩ := engineStep_total { s with env := { s.env with schedule := later } }
  obtain ⟨_, _, _, _, _, henv⟩ := engineStep_sameOutsideCommand ht
  exact ⟨t, (step_of_schedule hs).trans ht, henv⟩

theorem run_succ_of_step {s t : State} (h : step s = .next t) (n : Nat) :
    Host.Core.run core (n + 1) s = Host.Core.run core n t := by
  have hcore : core.step s = .next t := h
  simp only [Host.Core.run, hcore]

theorem run_two {s t u : State} (hs : step s = .next t) (ht : step t = .next u) :
    Host.Core.run core 2 s = .next u := by
  rw [run_succ_of_step hs, run_succ_of_step ht]
  rfl

end Sys2Proof.Machine

open Sys2Proof.Machine

/-- Settles O10: the host's step is refused exactly at a misaligned access, and no other agent's step is refused. -/
theorem onlyMisalignedAccessStops : Obligations.OnlyMisalignedAccessStops := by
  refine ⟨fun s off => ?refused, fun s => ?total⟩
  case refused =>
    rw [step, ← nextAccessMisaligned_spendTurn]
    by_cases hturn : turn s = .host
    · rw [hturn, agentStep, hostStep_refused_iff, and_iff_right rfl]
    · obtain ⟨t, ht⟩ := agentStep_total hturn (spendTurn s)
      simp [ht, hturn]
  case total =>
    rw [step]
    by_cases hturn : turn s = .host
    · rw [hturn, agentStep]
      exact (hostStep_total _).imp_right fun ⟨off, h⟩ => ⟨off, hostStep_misaligned h⟩
    · exact .inl (agentStep_total hturn _)

/-- Settles O38: a reserved offset addresses nothing, and the host's step is refused only at a misaligned access. -/
theorem reservedOffsetsInert : Obligations.ReservedOffsetsInert := by
  refine ⟨fun s off v h => ?inert, fun s op rest hp hal => ?noStop⟩
  case inert =>
    have ht := target_reserved h
    exact ⟨by rw [busRead, ht], fun hi => by rw [busWrite_of_idle off v hi, ht, writeTarget]⟩
  case noStop =>
    refine (hostStep_total s).resolve_right fun ⟨off, hoff, rest', haccess⟩ => hoff ?_
    simp only [hp, List.cons.injEq] at haccess
    exact hal op List.mem_cons_self off (haccess.imp And.left fun ⟨v, hv⟩ => ⟨v, hv.1⟩)

/-- Settles O39, operation by operation. -/
theorem hostStepPerformsOperation : Obligations.HostStepPerformsOperation := by
  refine ⟨fun s off v rest hp ha => ?write, fun s mask want rest hp => ?poll, fun s rest hp => ?waitIrq⟩
  case write => exact hostStep_write hp ha
  case poll =>
    have hstatus : busRead s 0x0004 = s.status := busRead_reg (target_status.mpr rfl)
    rw [agentStep, hostStep_poll hp, hstatus]
    split
    · rw [recordRead_setProgram, hstatus]
    · rw [recordRead, hstatus]
  case waitIrq =>
    rw [agentStep, hostStep_waitIrq hp]
    split <;> rfl

/-- Settles O40: the word is recorded and the program goes on. -/
theorem readsHaveNoSideEffect : Obligations.ReadsHaveNoSideEffect := by
  intro s off rest hp ha
  rw [hostStep_read hp ha, recordRead_setProgram]

/-- Settles O49: a read leaves the block as the engine finds it, and a command leaves the host's program and record. -/
theorem pendingReadRaces : Obligations.PendingReadRaces := by
  intro s t off rest i hphase hdec hprog hal hexec
  refine ⟨?hostFirst, ?engineFirst⟩
  case hostFirst =>
    obtain ⟨q, hread, hq⟩ := step_read_turn (s := { s with env := { s.env with schedule := [.host, .engine] } }) rfl hprog hal
    obtain ⟨u, hcommand, hu⟩ := step_engine_turn (s := q) (later := []) (by rw [hq])
    exact ⟨u, run_two hread hcommand, by rw [hu, hq, busRead_env]⟩
  case engineFirst =>
    have henv := exec_env hexec
    have hexecutes := engineStep_pending (s := { s with env := { s.env with schedule := [.host] } }) hphase hdec
    have hcommand : step { s with env := { s.env with schedule := [.engine, .host] } } = .next t :=
      (step_of_schedule (a := .engine) rfl).trans (hexecutes.trans hexec)
    obtain ⟨u, hread, hu⟩ := step_read_turn (s := t) (later := []) (by rw [henv]) (by rw [henv, hprog]) hal
    exact ⟨u, run_two hcommand hread, by rw [hu, henv]⟩

end

section
/-! PROOF. The statements of 20_memory.md on capture delivery (R71) and on what a command in progress sees (R76): what each agent's
step leaves while the block is busy. -/

namespace Sys2Proof.Machine

/-! Capture delivery. -/

theorem cappStep_of_offer {s : State} {es : List Pulse} {rest : List (List Pulse)} (hi : s.phase = .idle)
    (ho : s.env.offers = es :: rest) :
    cappStep s = .next (deliver es { s with env := { s.env with offers := rest } }) := by
  unfold cappStep
  simp only [hi, ho]

theorem capRead_deliver_stored {es : List Pulse} {i : Nat} {e : Pulse} (he : es[i]? = some e) (hi : i < 4096) (s : State) :
    capRead (deliver es s) i = e.entry := by
  obtain ⟨hlen, _⟩ := List.getElem?_eq_some_iff.mp he
  rw [capRead_deliver, if_pos (by omega), List.getD_eq_getElem?_getD, List.getElem?_map, List.getElem?_take_of_lt hi, he]
  rfl

theorem capRead_deliver_later {es : List Pulse} {i : Nat} (hi : min es.length 4096 ≤ i) (s : State) :
    capRead (deliver es s) i = capRead s i := by
  rw [capRead_deliver, if_neg (by omega)]

/-! What a step leaves while a command is in progress. -/

/-- R101: a write while busy changes at most STATUS's OVR and W1C bits. -/
theorem busWrite_of_busy {s : State} (h : s.phase ≠ .idle) (off : Offset) (v : Word) :
    ∃ d o c, busWrite s off v = { s with done := d, ovr := o, caprdy := c } := by
  rcases busWrite_cases s off v with ⟨_, hw⟩ | ⟨_, _, hw⟩ | ⟨_, hi, _⟩
  · exact ⟨_, _, _, hw⟩
  · exact ⟨s.done, true, s.caprdy, hw⟩
  · exact absurd hi h

theorem hostStep_of_busy {s t : State} (hs : hostStep s = .next t) (h : s.phase ≠ .idle) :
    ∃ d o c e, t = { s with done := d, ovr := o, caprdy := c, env := e } := by
  rcases hostStep_cases hs with ⟨e, rfl⟩ | ⟨off, v, rest, _, _, rfl⟩
  · exact ⟨s.done, s.ovr, s.caprdy, e, rfl⟩
  · obtain ⟨d, o, c, hw⟩ := busWrite_of_busy (s := setProgram s rest) h off v
    exact ⟨d, o, c, _, hw⟩

end Sys2Proof.Machine

open Sys2Proof.Machine

/-- Settles O48: an offered capture is delivered while idle, held while busy. -/
theorem captureDelivery : Obligations.CaptureDelivery := by
  refine ⟨fun s es rest hi ho => ?delivered, fun s => cappStep_of_not_idle⟩
  case delivered =>
    refine ⟨_, cappStep_of_offer hi ho, rfl, rfl, fun i hlt => ?stored, fun i hle => capRead_deliver_later hle _, rfl, rfl⟩
    have hlen : i < es.length := by omega
    have he : es[i]? = some es[i] := List.getElem?_eq_getElem hlen
    exact ⟨es[i], he, by rw [capRead_deliver_stored he (by omega), toNat_entry]⟩

/-- Settles O52, agent by agent. -/
theorem commandSeesStateAtAcceptance : Obligations.CommandSeesStateAtAcceptance := by
  intro s t hs hbusy
  obtain ⟨sched, tick, hspend⟩ := spendTurn_eq s
  rw [step, hspend] at hs
  cases hturn : turn s <;> rw [hturn] at hs
  case host =>
    obtain ⟨d, o, c, e, rfl⟩ := hostStep_of_busy hs hbusy
    exact ⟨rfl, rfl, rfl, fun _ => ⟨rfl, fun _ => ⟨rfl, rfl, rfl⟩⟩⟩
  case engine =>
    obtain ⟨hregs, _, _, hcap, hpend, _⟩ := engineStep_sameOutsideCommand hs
    exact ⟨hregs, hcap, hpend, fun hne => absurd rfl hne⟩
  case txp =>
    rcases txpStep_cases hs with ⟨_, rfl⟩ | ⟨hwait, rfl⟩
    · exact ⟨rfl, rfl, rfl, fun _ => ⟨rfl, fun _ => ⟨rfl, rfl, rfl⟩⟩⟩
    · exact ⟨rfl, rfl, rfl, fun _ => ⟨rfl, fun hp => by cases hp.symm.trans hwait⟩⟩
  case capp =>
    rcases cappStep_cases hs with ⟨rfl, _⟩ | ⟨hi, _⟩
    · exact ⟨rfl, rfl, rfl, fun _ => ⟨rfl, fun _ => ⟨rfl, rfl, rfl⟩⟩⟩
    · exact absurd hi hbusy

end

section
/-! PROOF. The statements of 30_encoding.md: the words of commands (R81, R86), the match and mask table (R85), the illegal words
(R87, R104), and the assembler's lines (R89, R90). -/

namespace Sys2Proof

open Sys2Proof.Claims Sys2Proof.Laws

/-! Every encoded command in numbers. -/

/-- The number of each command's word, as the fields of R81 add up. -/
def wordValue : Instr → Nat
  | .nop => 0
  | .getbits b o w => 1 + b.toNat * 2 ^ 4 + o.toNat * 2 ^ 12 + w.toNat * 2 ^ 15
  | .setbits b o w v => 2 + b.toNat * 2 ^ 4 + o.toNat * 2 ^ 12 + w.toNat * 2 ^ 15 + v.toNat * 2 ^ 19
  | .calcchk l => 3 + l.toNat * 2 ^ 4
  | .validchk l => 4 + l.toNat * 2 ^ 4
  | .invpairs l => 5 + l.toNat * 2 ^ 4
  | .finalize l => 6 + l.toNat * 2 ^ 4
  | .encode n r => 7 + n.toNat * 2 ^ 4 + r.toNat * 2 ^ 16
  | .decode n o st => 8 + n.toNat * 2 ^ 4 + o.toNat * 2 ^ 16 + st.toNat * 2 ^ 28

theorem toNat_encode (i : Instr) : (encode i).toNat = wordValue i := by
  cases i with
  | nop => exact encode_nop_toNat
  | getbits b o w => exact encode_getbits_toNat b o w
  | setbits b o w v => exact encode_setbits_toNat b o w v
  | calcchk l => exact encode_calcchk_toNat l
  | validchk l => exact encode_validchk_toNat l
  | invpairs l => exact encode_invpairs_toNat l
  | finalize l => exact encode_finalize_toNat l
  | encode n r => exact encode_encode_toNat n r
  | decode n o st => exact encode_decode_toNat n o st

/-- The per-command lemmas, of every command. -/
theorem opcode_and_rz (i : Instr) : OpcodeAndRz.Statement i := by
  cases i with
  | nop => exact OpcodeAndRz.nop
  | getbits b o w => exact OpcodeAndRz.getbits b o w
  | setbits b o w v => exact OpcodeAndRz.setbits b o w v
  | calcchk l => exact OpcodeAndRz.calcchk l
  | validchk l => exact OpcodeAndRz.validchk l
  | invpairs l => exact OpcodeAndRz.invpairs l
  | finalize l => exact OpcodeAndRz.finalize l
  | encode n r => exact OpcodeAndRz.encode n r
  | decode n o st => exact OpcodeAndRz.decode n o st

/-- The opcode that the decoder looks at. -/
theorem encode_opcode (i : Instr) : (encode i).extractLsb 3 0 = BitVec.ofNat 4 (OpcodeAndRz.shape i).1 := by
  obtain ⟨hop, _⟩ := opcode_and_rz i
  rw [opcode_eq, BitVec.toNat_ofNat, ← hop, Nat.mod_mod]

/-! Fields of a word in numbers. -/

theorem extractLsb_eq {w : Word} {hi lo : Nat} {x : BitVec (hi - lo + 1)}
    (h : w.toNat / 2 ^ lo % 2 ^ (hi - lo + 1) = x.toNat) : w.extractLsb hi lo = x :=
  BitVec.eq_of_toNat_eq ((toNat_extractLsb_div hi lo w).trans h)

/-- The bits from `lo` up are zero. -/
theorem extractLsb_rz_eq_zero {w : Word} {lo : Nat} (hlo : lo ≤ 31) :
    w.extractLsb 31 lo = 0 ↔ w.toNat < 2 ^ lo := by
  have hdiv : w.toNat / 2 ^ lo < 2 ^ (31 - lo + 1) := by
    rw [Nat.div_lt_iff_lt_mul (by positivity), ← pow_add, show 31 - lo + 1 + lo = 32 by omega]
    exact w.isLt
  rw [extractLsb_eq_zero, Nat.mod_eq_of_lt hdiv, Nat.div_eq_zero_iff_lt (by positivity)]

theorem ifZero_rz {w : Word} {lo : Nat} (hlo : lo ≤ 31) (i : Instr) :
    ifZero (w.extractLsb 31 lo) i = if w.toNat < 2 ^ lo then .ok i else .error .nonzeroReserved :=
  if_congr (extractLsb_rz_eq_zero hlo) rfl rfl

/-! Decoding the word of a command: the opcode selects its arm, the rz bits are zero, and each field reads back. -/

theorem encode_extractLsb_rz {i : Instr} {lo : Nat} (hlo : (OpcodeAndRz.shape i).2 = lo) (hle : lo ≤ 31) :
    (encode i).extractLsb 31 lo = 0 := by
  obtain ⟨_, hrz⟩ := opcode_and_rz i
  exact (extractLsb_rz_eq_zero hle).mpr (hlo ▸ hrz)

theorem encode_decode_getLsbD_strict (n o : BitVec 12) (st : Bool) : (encode (.decode n o st)).getLsbD 28 = st := by
  rw [BitVec.getLsbD, encode_decode_toNat, Nat.testBit_eq_decide_div_mod_eq]
  cases st
  · rw [decide_eq_false_iff_not, Bool.toNat_false]
    omega
  · rw [decide_eq_true_iff, Bool.toNat_true]
    omega

theorem ifZero_eq_ok {n : Nat} {rz : BitVec n} {i j : Instr} (hrz : rz = 0) (hij : i = j) : ifZero rz i = .ok j := by
  rw [ifZero, if_pos hrz, hij]

theorem decode_encode (i : Instr) : decode (encode i) = .ok i := by
  cases i
  all_goals
    simp only [decode, encode_opcode, OpcodeAndRz.shape, encode_decode_getLsbD_strict]
    refine ifZero_eq_ok (encode_extractLsb_rz rfl (by decide)) ?_
    congr 1 <;>
    · refine extractLsb_eq ?_
      simp only [toNat_encode, wordValue]
      omega

/-! Decoding any word: it has no format, or its fields are those of one command. -/

/-- What a word of one of the nine formats decodes to: the command whose word is `w` with the rz bits of its format cleared, where
none of those bits is set (R86, R88). -/
def FormatResult (w : Word) (r : Except Illegal Instr) : Prop :=
  w.toNat % 16 < 9 ∧ ∃ i, (encode i).toNat = w.toNat % 2 ^ rzFrom (w.toNat % 16) ∧
    r = if w.toNat < 2 ^ rzFrom (w.toNat % 16) then .ok i else .error .nonzeroReserved

/-- An arm of the decoder answers as its format says, if its rz bits are those of R81 and its operands the fields of the word. -/
theorem formatResult_ifZero {w : Word} {op : BitVec 4} {i : Instr} {lo : Nat} (hop : w.extractLsb 3 0 = op)
    (hlt : op.toNat < 9) (hlo : rzFrom op.toNat = lo) (hle : lo ≤ 31)
    (hfields : w.toNat % 16 = op.toNat → wordValue i = w.toNat % 2 ^ lo) :
    FormatResult w (ifZero (w.extractLsb 31 lo) i) := by
  subst hlo
  rw [opcode_eq] at hop
  rw [ifZero_rz hle, FormatResult, hop]
  exact ⟨hlt, i, (toNat_encode i).trans (hfields hop), rfl⟩

/-- R86: the opcode has no format, or the word decodes as its format says. -/
theorem decode_cases (w : Word) :
    (9 ≤ w.toNat % 16 ∧ decode w = .error .reservedOpcode) ∨ FormatResult w (decode w) := by
  unfold decode
  split
  case h_10 h0 h1 h2 h3 h4 h5 h6 h7 h8 =>
    simp only [imp_false, opcode_eq, BitVec.toNat_ofNat] at h0 h1 h2 h3 h4 h5 h6 h7 h8
    exact .inl ⟨by omega, rfl⟩
  all_goals
    refine .inr (formatResult_ifZero ‹_› (by decide) rfl (by decide) fun hop => ?_)
    simp only [wordValue, toNat_extractLsb_div, Machine.toNat_getLsbD, BitVec.toNat_ofNat] at hop ⊢
    omega

theorem encode_of_decode {w : Word} {i : Instr} (h : decode w = .ok i) : encode i = w := by
  obtain ⟨_, hres⟩ | ⟨_, j, hj, hres⟩ := decode_cases w
  · rw [hres] at h
    cases h
  · rw [hres] at h
    split at h
    · rename_i hlt
      cases h
      exact BitVec.eq_of_toNat_eq (hj.trans (Nat.mod_eq_of_lt hlt))
    · cases h

/-- R87: a word is a command or it is ILLEGAL. -/
theorem exists_decode_error_iff {w : Word} : (∃ e, decode w = .error e) ↔ IllegalWord w := by
  obtain ⟨hop, hres⟩ | ⟨hop, j, _, hres⟩ := decode_cases w
  · exact iff_of_true ⟨_, hres⟩ (.inl hop)
  · rw [IllegalWord, or_iff_right (by omega), hres]
    split
    · rename_i hlt
      simpa using hlt
    · rename_i hle
      simpa using hle

theorem exists_decode_ok_iff {w : Word} : (∃ i, decode w = .ok i) ↔ ¬IllegalWord w := by
  rw [← exists_decode_error_iff]
  cases decode w <;> simp

/-! The match and mask table (R85). -/

/-- The bits from `lo` up. -/
def rzBits (lo : Nat) : Word :=
  BitVec.ofNat 32 ((2 ^ (31 - lo + 1) - 1) <<< lo)

/-- The mask of a row: the rz bits of its format and the opcode bits. -/
def rowMask (lo : Nat) : Word :=
  rzBits lo ||| 0xF

theorem rows_getElem? {op : Nat} {row : String × Word × Word} (h : rows[op]? = some row) :
    op < 9 ∧ row.2 = (BitVec.ofNat 32 op, rowMask (rzFrom op)) := by
  have hlt : op < 9 := (List.getElem?_eq_some_iff.mp h).1
  refine ⟨hlt, ?_⟩
  interval_cases op
  all_goals
    cases h
    rfl

/-- The row of a command stands at the place of its opcode. -/
theorem rows_shape (i : Instr) : (rows[(OpcodeAndRz.shape i).1]?).map Prod.fst = some (mnemonic i) := by
  cases i <;> rfl

theorem shape_rz (i : Instr) : (OpcodeAndRz.shape i).2 = rzFrom (OpcodeAndRz.shape i).1 := by
  cases i <;> rfl

/-- A mask of two parts, where the value lies within the second part. -/
theorem and_or_eq_iff {w hi lo m : Word} (hhi : m &&& hi = 0) (hlo : m &&& lo = m) :
    w &&& (hi ||| lo) = m ↔ w &&& hi = 0 ∧ w &&& lo = m := by
  constructor
  · intro h
    have hpart {x : Word} (hx : (hi ||| lo) &&& x = x) : w &&& x = m &&& x := by
      rw [← h, BitVec.and_assoc, hx]
    refine ⟨(hpart ?_).trans hhi, (hpart ?_).trans hlo⟩
    all_goals
      ext
      simp +contextual
  · rintro ⟨hz, hm⟩
    rw [BitVec.and_or_distrib_left, hz, hm]
    exact BitVec.zero_or

theorem and_opcodeBits_eq_iff {w : Word} {op : Nat} (hop : op < 16) :
    w &&& 0xF = BitVec.ofNat 32 op ↔ w.toNat % 16 = op := by
  rw [← BitVec.toNat_inj, Machine.toNat_and_mask w 0xF 4 0 rfl, BitVec.toNat_ofNat]
  omega

theorem and_rzBits_eq_zero {w : Word} {lo : Nat} (hlo : lo ≤ 31) : w &&& rzBits lo = 0 ↔ w.toNat < 2 ^ lo := by
  have hmask : (rzBits lo).toNat = (2 ^ (31 - lo + 1) - 1) <<< lo := by
    refine Nat.mod_eq_of_lt ?_
    rw [Nat.shiftLeft_eq, Nat.sub_mul, ← pow_add, show 31 - lo + 1 + lo = 32 by omega]
    have := Nat.two_pow_pos lo
    omega
  rw [← extractLsb_rz_eq_zero hlo, extractLsb_eq_zero, ← BitVec.toNat_inj, Machine.toNat_and_mask _ _ _ _ hmask]
  simp

theorem and_rowMask_eq_iff {w : Word} {lo op : Nat} (h4 : 4 ≤ lo) (h31 : lo ≤ 31) (hop : op < 16) :
    w &&& rowMask lo = BitVec.ofNat 32 op ↔ w.toNat % 16 = op ∧ w.toNat < 2 ^ lo := by
  have hval : (BitVec.ofNat 32 op).toNat = op := Nat.mod_eq_of_lt (by omega)
  have hrz : BitVec.ofNat 32 op &&& rzBits lo = 0 := by
    rw [and_rzBits_eq_zero h31, hval]
    exact hop.trans_le (Nat.pow_le_pow_right (n := 2) (by decide) h4)
  have hopcode : BitVec.ofNat 32 op &&& 0xF = BitVec.ofNat 32 op := by
    rw [and_opcodeBits_eq_iff hop, hval, Nat.mod_eq_of_lt hop]
  rw [rowMask, and_or_eq_iff hrz hopcode, and_rzBits_eq_zero h31, and_opcodeBits_eq_iff hop, and_comm]

theorem rzFrom_bounds (op : Nat) : 4 ≤ rzFrom op ∧ rzFrom op ≤ 31 := by
  unfold rzFrom
  split <;> decide

theorem matches_row_iff {op : Nat} {row : String × Word × Word} (h : rows[op]? = some row) (w : Word) :
    w &&& row.2.2 = row.2.1 ↔ w.toNat % 16 = op ∧ w.toNat < 2 ^ rzFrom op := by
  obtain ⟨hlt, hrow⟩ := rows_getElem? h
  obtain ⟨h4, h31⟩ := rzFrom_bounds op
  rw [hrow]
  exact and_rowMask_eq_iff h4 h31 (by omega)

theorem row_of_decode {w : Word} {i : Instr} (h : decode w = .ok i) :
    ∃ row ∈ rows, row.1 = mnemonic i ∧ w &&& row.2.2 = row.2.1 := by
  obtain ⟨row, hrow, hname⟩ := Option.map_eq_some_iff.mp (rows_shape i)
  refine ⟨row, List.mem_of_getElem? hrow, hname, ?_⟩
  rw [matches_row_iff hrow, ← shape_rz, ← encode_of_decode h]
  exact opcode_and_rz i

/-- A word that matches a row is no ILLEGAL word, and the command it decodes to has the row's opcode. -/
theorem decode_of_row {w : Word} {row : String × Word × Word} (hmem : row ∈ rows) (hmatch : w &&& row.2.2 = row.2.1) :
    ∃ i, decode w = .ok i ∧ mnemonic i = row.1 := by
  obtain ⟨op, hrow⟩ := List.getElem?_of_mem hmem
  obtain ⟨hlt, _⟩ := rows_getElem? hrow
  obtain ⟨hop, hrz⟩ := (matches_row_iff hrow w).mp hmatch
  have hlegal : ¬IllegalWord w := by
    rw [IllegalWord, hop]
    omega
  obtain ⟨i, hi⟩ := exists_decode_ok_iff.mpr hlegal
  have hshape : (OpcodeAndRz.shape i).1 = op := by
    obtain ⟨hi_op, _⟩ := opcode_and_rz i
    rw [← hi_op, encode_of_decode hi, hop]
  have hname := rows_shape i
  rw [hshape, hrow] at hname
  exact ⟨i, hi, (Option.some.inj hname).symm⟩

/-! Assembler lines (R89, R90). -/

/-- R89: a line whose operands fit assembles to the number of its command. -/
theorem assemblesTo {l : Line} {fits : Prop} {value : Nat} (hwf : l.wellFormed = true ↔ fits)
    (hvalue : fits → wordValue l.command = value) : AssemblesTo l fits value := by
  unfold AssemblesTo assemble
  refine ⟨fun h => ?_, fun h => if_neg (mt hwf.mp h)⟩
  obtain rfl := hvalue h
  rw [if_pos (hwf.mpr h), ← toNat_encode]
  exact ⟨(encode _).isLt, by rw [BitVec.ofNat_toNat, BitVec.setWidth_eq]⟩

/-! The operands that an expansion fixes fit their fields, so a line and its expansion are refused alike. -/

theorem wellFormed_expand (l : Line) : l.expand.wellFormed = l.wellFormed := by
  cases l <;> simp [Line.expand, Line.wellFormed]

theorem command_expand (l : Line) : l.expand.command = l.command := by
  cases l <;> rfl

theorem assemble_expand (l : Line) : assemble l.expand = assemble l := by
  rw [assemble, assemble, wellFormed_expand, command_expand]

end Sys2Proof

open Sys2Proof Sys2Proof.Machine

/-- Settles O1, field by field. -/
theorem decodeOfEncode : Obligations.DecodeOfEncode :=
  decode_encode

/-- Settles O2: the command has the word's fields, and the bits outside them are zero. -/
theorem encodeOfDecode : Obligations.EncodeOfDecode :=
  fun _ _ => encode_of_decode

/-- Settles O3: a word has the command of the row whose opcode and zero bits it has. -/
theorem decodeSelectsTableRow : Obligations.DecodeSelectsTableRow := by
  intro w name
  constructor
  · rintro ⟨i, hi, rfl⟩
    exact row_of_decode hi
  · rintro ⟨row, hmem, rfl, hmatch⟩
    exact decode_of_row hmem hmatch

/-- Settles O4: the decoder's errors, the acceptance at CMD, and the engine's step on a word with no command. -/
theorem illegalWordsCompleteWithError : Obligations.IllegalWordsCompleteWithError := by
  refine ⟨fun w => exists_decode_error_iff, fun s w hi _ => ?accepted, fun s hp hw => ?executed⟩
  case accepted => exact busWrite_reg w hi (target_cmd.mpr rfl)
  case executed =>
    obtain ⟨e, he⟩ := exists_decode_error_iff.mpr hw
    exact engineStep_illegal hp he

/-- Settles O5: an operand that fits its field is not cut, so the command's number is the line's. -/
theorem assemblerWords : Obligations.AssemblerWords := by
  refine ⟨assemblesTo (iff_of_true rfl trivial) fun _ => rfl, ?_, ?_, ?_, ?_, ?_, ?_, ?_, ?_⟩
  all_goals
    intros
    refine assemblesTo decide_eq_true_iff fun hfits => ?_
    simp only [Line.command, wordValue, BitVec.toNat_ofNat, Nat.shiftLeft_eq, Bool.toNat, Bool.cond_eq_ite]
    omega

/-- Settles O6: each line assembles as its expansion does. -/
theorem pseudoInstructionsExpand : Obligations.PseudoInstructionsExpand :=
  ⟨fun b o => (assemble_expand (.getbit b o)).symm, fun b o => (assemble_expand (.setbit b o)).symm,
    fun b o => (assemble_expand (.clrbit b o)).symm, fun b o w => (assemble_expand (.clrbits b o w)).symm,
    fun b => (assemble_expand (.getbyte b)).symm, fun b v => (assemble_expand (.putbyte b v)).symm,
    fun n => (assemble_expand (.send n)).symm, fun n o => (assemble_expand (.decodes n o)).symm⟩

/-- Settles O7: each word is the encoding of its command. -/
theorem workedWordsDecode : Obligations.WorkedWordsDecode :=
  ⟨decode_encode .nop, decode_encode (.getbits 0 1 3), decode_encode (.setbits 255 7 8 255), decode_encode (.calcchk 256),
    decode_encode (.validchk 5), decode_encode (.invpairs 4), decode_encode (.finalize 5), decode_encode (.encode 40 1),
    decode_encode (.decode 40 0 true), decode_encode (.decode 8 20 false)⟩

end

section
/-! PROOF. The statements of 40_command.md: how a command ends its step (R102, R103), what it leaves (R106), the writes to CMD and
STATUS (R100, R101), whose turn a step is (R73), and NOP (R105). -/

namespace Sys2Proof.Machine

open Sys2Proof.Claims

/-! How a command ends (R103, R210). -/

/-- R210: the code of an error that a command reports of itself. -/
theorem Err.code_of_isFailure {e : Err} (he : e.IsFailure) :
    e.code ∈ [0x02, 0x03, 0x04, 0x10, 0x11, 0x12, 0x13, 0x14, 0x15, 0x16, 0x17, 0x18, 0x19] := by
  obtain ⟨hnone, hillegal⟩ := he
  cases e with
  | none => exact absurd rfl hnone
  | illegal => exact absurd rfl hillegal
  | _ => decide

/-- R103, R106: a completion in error. -/
theorem complete_of_ne_none {e : Err} (he : e ≠ .none) (r : Word) (s : State) :
    complete e r s = failedWith e.code s := by
  simp [complete, failedWith, he]

/-- Only ENCODE has the third form of `Effect`, the hand-off. -/
theorem exec_sameTxPort {i : Instr} {s t : State} (h : exec i s = .next t) (hi : ∀ n r, i ≠ .encode n r) :
    SameTxPort s t := by
  cases effect_of_exec h with
  | failed e he => exact ⟨rfl, rfl, rfl⟩
  | succeeded r b hb => exact ⟨rfl, rfl, rfl⟩
  | handedOff n r he hp => exact absurd he (hi n r)

/-! The bytes of BUF after each command that stores (R123, R140, R142, R192). -/

theorem bufRead_writeLength (s : State) (len j : Nat) :
    bufRead (writeLength s len) j =
      if s.regs.lenen = true ∧ j = s.regs.lenidx.toNat then BitVec.ofInt 8 ((len : Int) - (s.regs.lenofs.toNat : Int))
      else bufRead s j := by
  unfold writeLength
  split
  · rename_i hen
    rw [bufRead_bufWrite]
    exact if_congr (and_iff_right hen).symm rfl rfl
  · rename_i hen
    rw [if_neg (not_and_of_not_left _ hen)]

theorem bufRead_prepare_other {s : State} {j : Nat} (len : Nat) (hlen : ¬(s.regs.lenen = true ∧ j = s.regs.lenidx.toNat))
    (hpair : ¬(j % 2 = 1 ∧ j < s.regs.pairlen.toNat)) : bufRead (prepare s len) j = bufRead s j := by
  rw [prepare, bufRead_invPairs, if_neg hpair, bufRead_writeLength, if_neg hlen]

theorem bufRead_decoded_other {s : State} {n o used j : Nat} {strict : Bool} {cand : List Byte}
    (h : decodeFrame s n o strict = .ok (cand, used)) (hj : ¬j < (n + 7) / 8) :
    bufRead (bufWriteAll s 0 cand) j = bufRead s j := by
  obtain ⟨_, hlen⟩ := decodeFrame_ok h
  rw [ceil8] at hlen
  rw [bufRead_bufWriteAll, if_neg (by omega)]

/-- A byte that both ends of a command's check leave is left by the command. -/
theorem bufRead_of_ite {c : Prop} [Decidable c] {s a b t : State} {j : Nat}
    (h : (if c then .next a else .next b : Host.Outcome State Fault Refusal) = .next t)
    (ha : bufRead a j = bufRead s j) (hb : bufRead b j = bufRead s j) : bufRead t j = bufRead s j := by
  split at h
  · cases h
    exact ha
  · cases h
    exact hb

theorem bufRead_of_exec {i : Instr} {s t : State} {j : Nat} (h : exec i s = .next t) (hj : ¬Stores s i j) :
    bufRead t j = bufRead s j := by
  cases i with
  | nop =>
    cases h
    rfl
  | getbits b o w => exact bufRead_of_ite h rfl rfl
  | setbits b o w v =>
    refine bufRead_of_ite h rfl ?_
    rw [bufRead_complete, bufRead_bufWrite]
    exact if_neg hj
  | calcchk l => exact bufRead_of_ite h rfl rfl
  | validchk l => exact bufRead_of_ite h rfl rfl
  | invpairs l =>
    refine bufRead_of_ite h rfl ?_
    rw [bufRead_complete, bufRead_invPairs]
    exact if_neg hj
  | finalize l =>
    obtain ⟨hlen, hrest⟩ := not_or.mp hj
    obtain ⟨hpair, hlast⟩ := not_or.mp hrest
    refine bufRead_of_ite h ?_ rfl
    rw [bufRead_complete, bufRead_bufWrite, if_neg hlast, bufRead_prepare_other _ hlen hpair]
  | encode n r =>
    simp only [exec, execEncode] at h
    split_ifs at h
    all_goals
      cases h
      rfl
  | decode n o st =>
    simp only [exec, execDecode] at h
    split at h
    · cases h
      rfl
    · rename_i hdec
      cases h
      exact bufRead_decoded_other hdec hj

/-! Whose turn a step is (R73, R254), and the word placed for it. -/

theorem step_of_schedule_nil {s : State} (h : s.env.schedule = []) :
    step s = agentStep (Config.pick s.env.tick) { s with env := { s.env with tick := s.env.tick + 1 } } := by
  rw [step, turn, spendTurn, h]

/-- The ENGINE's turn with a command pending (R102). -/
theorem step_of_pending {s : State} {i : Instr} {later : List Agent} (hs : s.env.schedule = .engine :: later)
    (hp : s.phase = .pending) (hd : decode s.pend = .ok i) :
    step s = exec i { s with env := { s.env with schedule := later } } :=
  (step_of_schedule hs).trans (engineStep_pending hp hd)

theorem decode_of_decodeTableWord {n w : Nat} {i : Instr} (h : decodeTableWord n w = some i) :
    w < 2 ^ n ∧ decode (BitVec.ofNat 32 w) = .ok i := by
  unfold decodeTableWord at h
  split at h
  · obtain ⟨_, hlt⟩ := ‹n ≤ 32 ∧ w < 2 ^ n›
    refine ⟨hlt, ?_⟩
    cases hd : decode (BitVec.ofNat 32 w) <;> rw [hd] at h <;> cases h
    rfl
  · cases h

end Sys2Proof.Machine

namespace Sys2Proof

open Sys2Proof.Claims

/-- R105: NOP has one word. -/
theorem decode_eq_nop_iff {w : Word} : decode w = .ok .nop ↔ w = 0 :=
  ⟨fun h => (encode_of_decode h).symm, fun h => h ▸ decode_encode .nop⟩

/-- R87, R88: an opcode's words with a bit set at or above the rz bits of its format are ILLEGAL. -/
theorem rzRefused (op : Nat) : RzRefused op (rzFrom op) := by
  intro w hop hle
  subst hop
  exact exists_decode_error_iff.mpr (.inr hle)

end Sys2Proof

open Sys2Proof Sys2Proof.Machine

/-- Settles O13, by the three forms of a command's step. -/
theorem everyCommandEndsItsStep : Obligations.EveryCommandEndsItsStep := by
  intro i s
  obtain ⟨t, ht, heffect⟩ := exec_effect i s
  refine ⟨t, ht, ?_⟩
  cases heffect with
  | failed e he =>
    rw [complete_of_ne_none he.left]
    exact .inl ⟨rfl, rfl, .inr ⟨Err.code_of_isFailure he, rfl, rfl⟩⟩
  | succeeded r b hb => exact .inl ⟨rfl, rfl, .inl ⟨rfl, rfl⟩⟩
  | handedOff n r hi hp => exact .inr ⟨⟨n, r, hi⟩, rfl, rfl, rfl, rfl, rfl, rfl⟩

/-- Settles O14: of the three forms of a command's step only the first ends IDLE with a nonzero ERR. -/
theorem failingCommandChangesOnlyStatus : Obligations.FailingCommandChangesOnlyStatus := by
  intro i s t h hidle herr
  cases effect_of_exec h with
  | failed e he => exact complete_of_ne_none he.left 0 s
  | succeeded r b hb => exact absurd rfl herr
  | handedOff n r hi hp => cases hidle

/-- Settles O15, by the three forms of a command's step. -/
theorem commandFrame : Obligations.CommandFrame :=
  fun _ _ _ h => ⟨exec_sameOutsideCommand h, exec_sameTxPort h⟩

/-- Settles O16: BUF command by command; no command writes CAP. -/
theorem commandMemoryFrame : Obligations.CommandMemoryFrame := by
  intro i s t h
  obtain ⟨_, _, _, hcap, _, _⟩ := exec_sameOutsideCommand h
  exact ⟨fun j => bufRead_of_exec h, capRead_congr hcap⟩

/-- Settles O8: the turn is the schedule's or a free one, and the ENGINE's turn runs the pending command. -/
theorem stepRunsPendingCommand : Obligations.StepRunsPendingCommand := by
  refine ⟨fun s i rest => step_of_pending, fun s a rest => step_of_schedule, fun s => step_of_schedule_nil,
    fun s i => engineStep_pending, fun s i w hw => ?placed⟩
  case placed =>
    obtain ⟨hlt, hdec⟩ := decode_of_decodeTableWord hw
    have hword : w % 2 ^ 32 = w := Nat.mod_eq_of_lt hlt
    rw [State.withFetchWord, hword]
    exact step_of_pending rfl rfl hdec

/-- Settles O11: the write is the acceptance of R100. -/
theorem idleCmdWriteAccepted : Obligations.IdleCmdWriteAccepted := by
  intro s w hi
  have haccept : busWrite s 0x0008 w = accept w s := busWrite_reg w hi (target_cmd.mpr rfl)
  rw [haccept]
  exact ⟨rfl, rfl⟩

/-- Settles O12: a write is one to STATUS, or is dropped, or finds the block idle. -/
theorem busyWriteDropped : Obligations.BusyWriteDropped := by
  refine ⟨fun s off v hbusy hoff => ?dropped, fun s v => ?status⟩
  case dropped =>
    rcases busWrite_cases s off v with ⟨hstatus, _⟩ | ⟨_, _, hw⟩ | ⟨_, hi, _⟩
    · exact absurd hstatus hoff
    · exact hw
    · exact absurd hi hbusy
  case status =>
    rcases busWrite_cases s 0x0004 v with ⟨_, hw⟩ | ⟨hne, _⟩ | ⟨hne, _⟩
    · exact hw
    · exact absurd rfl hne
    · exact absurd rfl hne

/-- Settles O17: NOP's completion, its one word, and the rz bits of opcode 0. -/
theorem nopResult : Obligations.NopResult :=
  ⟨fun _ => rfl, fun _ => decode_eq_nop_iff, rzRefused 0⟩

end

section
/-! PROOF. The statements of 41_bitfield.md: GETBITS (R122) and SETBITS (R123), with their error (R121), and the laws of the accessor
(R124), each first as a fact about one byte. -/

namespace Sys2Proof.Machine

open Sys2Proof.Claims

/-! The geometry of a field (R120), and the legal widths (R121). -/

theorem effWidth_eq_width' (o w : Nat) : effWidth o w = width' o w := by
  unfold effWidth width'
  split <;> omega

/-- A field is clipped at bit 7. -/
theorem add_lt_eight_of_lt_effWidth {o w j : Nat} (h : j < effWidth o w) : o + j < 8 := by
  unfold effWidth at h
  omega

theorem badWidth_eq_false {w : Nat} (h1 : 1 ≤ w) (h8 : w ≤ 8) : badWidth w = false :=
  decide_eq_false (by omega)

theorem badWidth_eq_true {w : Nat} (h : w = 0 ∨ 8 < w) : badWidth w = true :=
  decide_eq_true h

/-! Each command's two ends. -/

theorem exec_getbits {w : BitVec 4} (h1 : 1 ≤ w.toNat) (h8 : w.toNat ≤ 8) (b : BitVec 8) (o : BitVec 3) (s : State) :
    exec (.getbits b o w) s =
      .next (complete .none (BitVec.ofNat 32 (getField (bufRead s b.toNat) o.toNat w.toNat)) s) := by
  simp [exec, execGetbits, badWidth_eq_false h1 h8]

theorem exec_getbits_badWidth {w : BitVec 4} (h : w.toNat = 0 ∨ 8 < w.toNat) (b : BitVec 8) (o : BitVec 3) (s : State) :
    exec (.getbits b o w) s = .next (failedWith 0x02 s) := by
  rw [exec, execGetbits, if_pos (badWidth_eq_true h), complete_of_ne_none (by decide)]
  rfl

/-- Where a SETBITS of a legal width ends (R123). -/
def setbitsEnd (b : BitVec 8) (o : BitVec 3) (w : BitVec 4) (v : BitVec 8) (s : State) : State :=
  complete .none ((setField (bufRead s b.toNat) o.toNat w.toNat v).setWidth 32)
    (bufWrite s b.toNat (setField (bufRead s b.toNat) o.toNat w.toNat v))

theorem exec_setbits {w : BitVec 4} (h1 : 1 ≤ w.toNat) (h8 : w.toNat ≤ 8) (b : BitVec 8) (o : BitVec 3) (v : BitVec 8)
    (s : State) : exec (.setbits b o w v) s = .next (setbitsEnd b o w v s) := by
  simp [exec, execSetbits, badWidth_eq_false h1 h8, setbitsEnd]

theorem exec_setbits_badWidth {w : BitVec 4} (h : w.toNat = 0 ∨ 8 < w.toNat) (b : BitVec 8) (o : BitVec 3) (v : BitVec 8)
    (s : State) : exec (.setbits b o w v) s = .next (failedWith 0x02 s) := by
  rw [exec, execSetbits, if_pos (badWidth_eq_true h), complete_of_ne_none (by decide)]
  rfl

section SetbitsEnd

variable (b : BitVec 8) (o : BitVec 3) (w : BitVec 4) (v : BitVec 8) (s : State)

@[simp] theorem bufRead_setbitsEnd_same :
    bufRead (setbitsEnd b o w v s) b.toNat = setField (bufRead s b.toNat) o.toNat w.toNat v := by
  rw [setbitsEnd, bufRead_complete, bufRead_bufWrite, if_pos rfl]

theorem bufRead_setbitsEnd_other {j : Nat} (hj : j ≠ b.toNat) : bufRead (setbitsEnd b o w v s) j = bufRead s j := by
  rw [setbitsEnd, bufRead_complete, bufRead_bufWrite, if_neg hj]

theorem setbitsEnd_succeededWith :
    SucceededWith ((bufRead (setbitsEnd b o w v s) b.toNat).setWidth 32) (setbitsEnd b o w v s) := by
  rw [bufRead_setbitsEnd_same]
  exact ⟨rfl, rfl, rfl, rfl, rfl⟩

end SetbitsEnd

/-! The value of GETBITS as a bus word, and the laws of R124 on one byte. -/

theorem getField_lt (b : Byte) (o w : Nat) : getField b o w < 2 ^ 32 := by
  have hle : getField b o w ≤ b.toNat := Nat.and_le_left.trans (Nat.shiftRight_le _ _)
  have := b.isLt
  omega

theorem getLsbD_ofNat_getField (b : Byte) (o w j : Nat) :
    (BitVec.ofNat 32 (getField b o w)).getLsbD j = (decide (j < effWidth o w) && b.getLsbD (o + j)) := by
  rw [← getField_testBit, BitVec.getLsbD, BitVec.toNat_ofNat, Nat.mod_eq_of_lt (getField_lt b o w)]

theorem getField_setField (b : Byte) (o w : Nat) (v : Byte) :
    getField (setField b o w v) o w = v.toNat % 2 ^ effWidth o w := by
  refine Nat.eq_of_testBit_eq fun j => ?_
  rw [getField_testBit, Nat.testBit_mod_two_pow]
  by_cases hj : j < effWidth o w
  · rw [getLsbD_setField b w v (add_lt_eight_of_lt_effWidth hj), if_pos (by omega), Nat.add_sub_cancel_left]
    rfl
  · simp [hj]

theorem setField_and_not_fieldMask (b : Byte) (o w : Nat) (v : Byte) :
    setField b o w v &&& ~~~ fieldMask o w = b &&& ~~~ fieldMask o w := by
  refine BitVec.eq_of_getLsbD_eq fun j hj => ?_
  rw [BitVec.getLsbD_and, BitVec.getLsbD_and, BitVec.getLsbD_not, getLsbD_fieldMask hj, getLsbD_setField b w v hj]
  by_cases hin : o ≤ j ∧ j < o + effWidth o w
  · simp [hin]
  · rw [if_neg hin]

/-- The field of offset 0 and width 8 is the whole byte. -/
theorem setField_wholeByte (b v : Byte) : setField b 0 8 v = v := by
  refine BitVec.eq_of_getLsbD_eq fun j hj => ?_
  have hin : 0 ≤ j ∧ j < 0 + effWidth 0 8 := by
    unfold effWidth
    omega
  rw [getLsbD_setField b 8 v hj, if_pos hin, Nat.sub_zero]

/-- Disjoint masks have no bit in common. -/
theorem not_mem_both_fields {o w o' w' j : Nat} (h : fieldMask o w &&& fieldMask o' w' = 0) (hj : j < 8) :
    ¬((o ≤ j ∧ j < o + effWidth o w) ∧ (o' ≤ j ∧ j < o' + effWidth o' w')) := by
  rintro ⟨⟨hlo, hhi⟩, ⟨hlo', hhi'⟩⟩
  have hbit : (fieldMask o w &&& fieldMask o' w').getLsbD j = true := by
    rw [BitVec.getLsbD_and, getLsbD_fieldMask hj, getLsbD_fieldMask hj]
    simp [*]
  rw [h] at hbit
  simp at hbit

theorem setField_comm (b : Byte) {o w o' w' : Nat} (v v' : Byte) (h : fieldMask o w &&& fieldMask o' w' = 0) :
    setField (setField b o w v) o' w' v' = setField (setField b o' w' v') o w v := by
  refine BitVec.eq_of_getLsbD_eq fun j hj => ?_
  have hboth := not_mem_both_fields h hj
  simp only [getLsbD_setField _ _ _ hj]
  by_cases hin : o ≤ j ∧ j < o + effWidth o w
  · have hout : ¬(o' ≤ j ∧ j < o' + effWidth o' w') := fun hin' => hboth ⟨hin, hin'⟩
    rw [if_neg hout, if_pos hin, if_pos hin]
  · rw [if_neg hin, if_neg hin]

theorem bufRead_setbitsEnd_comm {b : BitVec 8} {o o' : BitVec 3} {w w' : BitVec 4}
    (h : fieldMask o.toNat w.toNat &&& fieldMask o'.toNat w'.toNat = 0) (v v' : BitVec 8) (s : State) (j : Nat) :
    bufRead (setbitsEnd b o' w' v' (setbitsEnd b o w v s)) j =
      bufRead (setbitsEnd b o w v (setbitsEnd b o' w' v' s)) j := by
  by_cases hj : j = b.toNat
  · subst hj
    simp only [bufRead_setbitsEnd_same]
    exact setField_comm _ v v' h
  · simp only [bufRead_setbitsEnd_other _ _ _ _ _ hj]

end Sys2Proof.Machine

open Sys2Proof Sys2Proof.Machine

/-- Settles O18: the field bit by bit, and the error of R121. -/
theorem getbitsResult : Obligations.GetbitsResult := by
  refine ⟨fun b o w s h1 h8 => ?field, fun b o w s h => exec_getbits_badWidth h b o s, rzRefused 1⟩
  case field =>
    refine ⟨_, exec_getbits h1 h8 b o s, fun j => ?_⟩
    rw [← effWidth_eq_width']
    exact getLsbD_ofNat_getField _ _ _ j

/-- Settles O19: the new byte bit by bit, and the error of R121. -/
theorem setbitsResult : Obligations.SetbitsResult := by
  refine ⟨fun b o w v s h1 h8 => ?field, fun b o w v s h => exec_setbits_badWidth h b o v s, rzRefused 2⟩
  case field =>
    refine ⟨_, exec_setbits h1 h8 b o v s, setbitsEnd_succeededWith b o w v s, fun j hj => ?_,
      fun j => bufRead_setbitsEnd_other b o w v s⟩
    rw [bufRead_setbitsEnd_same, ← effWidth_eq_width']
    exact getLsbD_setField _ _ v hj

/-- Settles O20: each law is one of the byte that the commands read and write. -/
theorem bitfieldLaws : Obligations.BitfieldLaws := by
  refine ⟨fun b o w v s h1 h8 => ?setThenGet, fun b v s => ?wholeByte, fun b o o' w w' v v' s h1 h8 h1' h8' hdisj => ?commute,
    fun b o w s => ?getKeepsBuf⟩
  case setThenGet =>
    refine ⟨_, _, exec_setbits h1 h8 b o v s, exec_getbits h1 h8 b o _, ?_, ?_,
      fun j => bufRead_setbitsEnd_other b o w v s, bufRead_complete _ _ _⟩
    · rw [complete_result, if_pos rfl, BitVec.toNat_ofNat, Nat.mod_eq_of_lt (getField_lt _ _ _), bufRead_setbitsEnd_same,
        ← effWidth_eq_width']
      exact getField_setField _ _ _ v
    · rw [bufRead_setbitsEnd_same]
      exact setField_and_not_fieldMask _ _ _ v
  case wholeByte =>
    refine ⟨_, exec_setbits (by decide) (by decide) b 0 v s, ?_⟩
    rw [bufRead_setbitsEnd_same]
    exact setField_wholeByte _ v
  case commute =>
    exact ⟨_, _, _, _, exec_setbits h1 h8 b o v s, exec_setbits h1' h8' b o' v' _, exec_setbits h1' h8' b o' v' s,
      exec_setbits h1 h8 b o v _, bufRead_setbitsEnd_comm hdisj v v' s⟩
  case getKeepsBuf =>
    obtain ⟨t, ht, _⟩ := exec_effect (.getbits b o w) s
    exact ⟨t, ht, fun j => bufRead_of_exec ht not_false⟩

end

section
/-! PROOF. The statements of 42_checksum.md: CALCCHK (R137), VALIDCHK (R139), INVPAIRS (R141) and FINALIZE (R143), with their errors,
and the laws of R144. What a command computes is first brought to the rules' functions of the bytes; the laws are then facts about
these. -/

namespace Sys2Proof.Machine

open Sys2Proof.Claims

/-! The pair check and the pair inversion (R135, R140), and the XOR of pairs (R144). -/

theorem pairsOK_eq_true_iff (s : State) (p : Nat) : pairsOK s p = true ↔ PairsOK (bufRead s) p := by
  have hpair : ∀ i, i < p / 2 ↔ 2 * i + 1 < p := by omega
  simp [pairsOK, PairsOK, hpair]

theorem pairsOK_congr {rd rd' : Nat → Byte} {p : Nat} (h : ∀ j, j < p → rd' j = rd j) :
    PairsOK rd' p ↔ PairsOK rd p := by
  refine forall₂_congr fun i hi => ?_
  rw [h _ hi, h _ (by omega)]

theorem bufRead_invPairs_eq (s : State) (p : Nat) : bufRead (invPairs s p) = inverted (bufRead s) p :=
  funext fun j => bufRead_invPairs s p j

theorem pairsOK_inverted (rd : Nat → Byte) (p : Nat) : PairsOK (inverted rd p) p := by
  intro i hi
  have hodd : (2 * i + 1) % 2 = 1 ∧ 2 * i + 1 < p := ⟨by omega, hi⟩
  have heven : ¬((2 * i) % 2 = 1 ∧ 2 * i < p) := by omega
  rw [inverted, if_pos hodd, inverted, if_neg heven, Nat.add_sub_cancel]

/-- R144, the second law: the pair inversion leaves the bytes exactly where the pair check holds. -/
theorem inverted_eq_self_iff {rd : Nat → Byte} {p : Nat} : inverted rd p = rd ↔ PairsOK rd p := by
  constructor
  · intro h
    have hpairs := pairsOK_inverted rd p
    rwa [h] at hpairs
  · intro h
    funext j
    unfold inverted
    split
    · rename_i hj
      obtain ⟨i, rfl⟩ : ∃ i, j = 2 * i + 1 := ⟨j / 2, by omega⟩
      exact (h i hj.2).symm
    · rfl

theorem inverted_inverted (rd : Nat → Byte) (p : Nat) : inverted (inverted rd p) p = inverted rd p :=
  inverted_eq_self_iff.mpr (pairsOK_inverted rd p)

/-- A pair of complements XORs to 0xFF, so it complements the XOR of the bytes before it. -/
theorem xorBelow_add_pair {rd : Nat → Byte} {n : Nat} (h : rd (n + 1) = ~~~ rd n) :
    xorBelow rd (n + 2) = ~~~ xorBelow rd n := by
  change xorBelow rd n ^^^ rd n ^^^ rd (n + 1) = _
  rw [h, ← BitVec.not_xor_right, BitVec.xor_assoc, BitVec.xor_self, BitVec.xor_zero]

/-- R144, the fourth law, by induction on the number of pairs. -/
theorem xorBelow_of_pairsOK {rd : Nat → Byte} {p : Nat} (h : PairsOK rd p) (heven : p % 2 = 0) :
    xorBelow rd p = if (p / 2) % 2 = 1 then 0xFF else 0x00 := by
  obtain ⟨m, rfl⟩ : ∃ m, p = 2 * m := ⟨p / 2, by omega⟩
  clear heven
  rw [Nat.mul_div_cancel_left m two_pos]
  induction m with
  | zero => rfl
  | succ m ih =>
    have hbefore : PairsOK rd (2 * m) := fun i hi => h i (by omega)
    rw [Nat.mul_succ, xorBelow_add_pair (h m (by omega)), ih hbefore]
    rcases Nat.mod_two_eq_zero_or_one m with hm | hm
    · rw [if_neg (by omega), if_pos (by omega)]
      rfl
    · rw [if_pos hm, if_neg (by omega)]
      rfl

/-! The checksum and the validity predicate (R136, R138). -/

theorem calcSum_eq_checksum (s : State) (len : Nat) : calcSum s len = checksum (bufRead s) len := by
  induction len with
  | zero => rfl
  | succ len ih =>
    cases len with
    | zero => rfl
    | succ n =>
      rw [calcSum_succ s (n + 1) (by omega), ih]
      rfl

theorem lengthOK_iff (s : State) (len : Nat) :
    lengthOK s len = true ↔ s.regs.lenen = false ∨
      ((s.regs.lenidx.toNat : Int) < (len : Int) - 1 ∧ (bufRead s s.regs.lenidx.toNat).toNat + s.regs.lenofs.toNat = len) := by
  have hidx : s.regs.lenidx.toNat + 1 < len ↔ (s.regs.lenidx.toNat : Int) < (len : Int) - 1 := by omega
  simp [lengthOK, hidx]

theorem valid_iff (s : State) (len : Nat) : valid s len = true ↔ Valid (bufRead s) s.regs len := by
  have hpair : s.regs.pairlen.toNat + 1 ≤ len ↔ (s.regs.pairlen.toNat : Int) ≤ (len : Int) - 1 := by omega
  simp only [valid, Valid, Bool.and_eq_true, decide_eq_true_eq, calcSum_eq_checksum, pairsOK_eq_true_iff, lengthOK_iff, hpair,
    and_assoc]

/-! Each command's two ends. A failed argument check ends all four alike (R103, R210). -/

theorem complete_arg (s : State) : complete .arg 0 s = failedWith 0x02 s :=
  complete_of_ne_none (by decide) 0 s

section LengthInRange

variable {l : BitVec 9} (hl : l.toNat ≤ 256) (s : State)

include hl

theorem exec_calcchk :
    exec (.calcchk l) s = .next (complete .none ((checksum (bufRead s) l.toNat).setWidth 32) s) := by
  rw [exec, execCalcchk, if_neg (Nat.not_lt.mpr hl), calcSum_eq_checksum]

theorem exec_validchk : exec (.validchk l) s = .next (complete .none (if valid s l.toNat then 1 else 0) s) :=
  if_neg (Nat.not_lt.mpr hl)

theorem exec_invpairs : exec (.invpairs l) s = .next (complete .none 0 (invPairs s l.toNat)) :=
  if_neg (Nat.not_lt.mpr hl)

end LengthInRange

theorem exec_calcchk_long {l : BitVec 9} (hl : 256 < l.toNat) (s : State) :
    exec (.calcchk l) s = .next (failedWith 0x02 s) := by
  rw [exec, execCalcchk, if_pos hl, complete_arg]

theorem exec_validchk_long {l : BitVec 9} (hl : 256 < l.toNat) (s : State) :
    exec (.validchk l) s = .next (failedWith 0x02 s) := by
  rw [exec, execValidchk, if_pos hl, complete_arg]

theorem exec_invpairs_long {l : BitVec 9} (hl : 256 < l.toNat) (s : State) :
    exec (.invpairs l) s = .next (failedWith 0x02 s) := by
  rw [exec, execInvpairs, if_pos hl, complete_arg]

/-! What VALIDCHK answers and what INVPAIRS leaves. -/

/-- RESULT of VALIDCHK is the value of the validity predicate. -/
theorem validchkResult_eq_one_iff (s : State) (len : Nat) :
    (if valid s len then 1 else 0 : Word) = 1 ↔ Valid (bufRead s) s.regs len := by
  rw [← valid_iff]
  split <;> simp [*]

theorem bufRead_complete_invPairs (s : State) (p : Nat) :
    bufRead (complete .none 0 (invPairs s p)) = inverted (bufRead s) p :=
  bufRead_invPairs_eq s p

/-! FINALIZE: its argument checks (R143), and the bytes after its first two steps (R142). -/

theorem finalizeOK_iff (r : Regs) (len : Nat) :
    finalizeOK r len = true ↔ 1 ≤ len ∧ len ≤ 256 ∧ r.pairlen.toNat ≤ len - 1 ∧
      (r.lenen = true → r.lenidx.toNat < len - 1) := by
  have hlen : ¬(256 < len ∨ len = 0) ↔ 1 ≤ len ∧ len ≤ 256 := by omega
  simp only [finalizeOK, Bool.and_eq_true, Bool.not_eq_true', Bool.and_eq_false_imp, decide_eq_false_iff_not, hlen, Nat.not_lt,
    Nat.not_le, and_assoc]

/-- The bytes over which FINALIZE computes its checksum: the indicator written, then the pairs inverted. -/
def preparedByte (s : State) (len : Nat) : Nat → Byte :=
  inverted (withLength (bufRead s) s.regs len) s.regs.pairlen.toNat

/-- The indicator, `(L - LENOFS) mod 256`, computed in the integers and in the naturals. -/
theorem ofInt_sub_eq_ofNat (len : Nat) (ofs : BitVec 8) :
    BitVec.ofInt 8 ((len : Int) - (ofs.toNat : Int)) = BitVec.ofNat 8 (len + 256 - ofs.toNat) := by
  have := ofs.isLt
  refine BitVec.eq_of_toNat_eq ?_
  rw [BitVec.toNat_ofInt, BitVec.toNat_ofNat]
  omega

theorem bufRead_writeLength_eq (s : State) (len : Nat) :
    bufRead (writeLength s len) = withLength (bufRead s) s.regs len := by
  funext j
  rw [bufRead_writeLength, ofInt_sub_eq_ofNat]
  rfl

theorem bufRead_prepare (s : State) (len : Nat) : bufRead (prepare s len) = preparedByte s len := by
  rw [prepare, bufRead_invPairs_eq, bufRead_writeLength_eq]
  rfl

/-- Where a FINALIZE ends whose argument checks are met (R143). -/
def finalizeEnd (len : Nat) (s : State) : State :=
  complete .none ((checksum (preparedByte s len) len).setWidth 32)
    (bufWrite (prepare s len) (len - 1) (checksum (preparedByte s len) len))

theorem exec_finalize {l : BitVec 9} {s : State} (h : finalizeOK s.regs l.toNat = true) :
    exec (.finalize l) s = .next (finalizeEnd l.toNat s) := by
  rw [finalizeEnd, ← bufRead_prepare, ← calcSum_eq_checksum]
  exact if_pos h

theorem exec_finalize_failed {l : BitVec 9} {s : State} (h : ¬finalizeOK s.regs l.toNat = true) :
    exec (.finalize l) s = .next (failedWith 0x02 s) := by
  rw [exec, execFinalize, if_neg h, complete_arg]

/-- A FINALIZE that ends with OK = 1 met its checks. -/
theorem finalizeOK_of_exec {l : BitVec 9} {s t : State} (h : exec (.finalize l) s = .next t) (hok : t.ok = true) :
    finalizeOK s.regs l.toNat = true := by
  by_contra hfail
  rw [exec_finalize_failed hfail] at h
  cases h
  cases hok

section FinalizeEnd

variable (len : Nat) (s : State)

theorem bufRead_finalizeEnd (j : Nat) :
    bufRead (finalizeEnd len s) j = if j = len - 1 then checksum (preparedByte s len) len else preparedByte s len j := by
  rw [finalizeEnd, bufRead_complete, bufRead_bufWrite, bufRead_prepare]

theorem finalizeEnd_succeededWith :
    SucceededWith ((checksum (preparedByte s len) len).setWidth 32) (finalizeEnd len s) :=
  ⟨rfl, rfl, rfl, rfl, rfl⟩

@[simp] theorem finalizeEnd_regs : (finalizeEnd len s).regs = s.regs := by
  obtain ⟨b, hb⟩ := invPairs_frame (writeLength s len) s.regs.pairlen.toNat
  rw [finalizeEnd, complete_regs, bufWrite_regs, prepare, hb]
  unfold writeLength
  split <;> rfl

theorem bufRead_finalizeEnd_before {len j : Nat} (hj : j < len - 1) :
    bufRead (finalizeEnd len s) j = preparedByte s len j := by
  rw [bufRead_finalizeEnd, if_neg (Nat.ne_of_lt hj)]

/-- The checksum byte is not among the bytes that it covers. -/
theorem checksum_finalizeEnd : checksum (bufRead (finalizeEnd len s)) len = checksum (preparedByte s len) len := by
  rw [← bufRead_prepare, ← calcSum_eq_checksum, ← calcSum_eq_checksum]
  refine calcSum_congr fun j hj => ?_
  rw [bufRead_finalizeEnd_before s (by omega), bufRead_prepare]

end FinalizeEnd

/-! VALIDCHK after FINALIZE (R144, the third law). -/

/-- R144's `x`: the byte that FINALIZE leaves at LENIDX, which step 2 overwrites at an odd index of the pair region. -/
def indicatorLeft (s : State) (len : Nat) : Nat :=
  if s.regs.lenidx.toNat % 2 = 1 ∧ s.regs.lenidx.toNat < s.regs.pairlen.toNat then
    (~~~ bufRead s (s.regs.lenidx.toNat - 1)).toNat
  else (len + 256 - s.regs.lenofs.toNat) % 256

theorem toNat_preparedByte_lenidx {s : State} (len : Nat) (hen : s.regs.lenen = true) :
    (preparedByte s len s.regs.lenidx.toNat).toNat = indicatorLeft s len := by
  have hindicator : withLength (bufRead s) s.regs len s.regs.lenidx.toNat =
      BitVec.ofNat 8 (len + 256 - s.regs.lenofs.toNat) := if_pos ⟨hen, rfl⟩
  rw [preparedByte, inverted, indicatorLeft, hindicator]
  split
  · have hpartner : ¬(s.regs.lenen = true ∧ s.regs.lenidx.toNat - 1 = s.regs.lenidx.toNat) := by omega
    rw [withLength, if_neg hpartner]
  · exact BitVec.toNat_ofNat _ _

/-- R144's conditions (b1) and (c): the indicator neither wraps nor is overwritten. -/
theorem indicatorLeft_add_lenofs {s : State} {len : Nat} (hlo : s.regs.lenofs.toNat ≤ len)
    (hhi : len ≤ s.regs.lenofs.toNat + 255)
    (hkept : ¬(s.regs.lenidx.toNat % 2 = 1 ∧ s.regs.lenidx.toNat < s.regs.pairlen.toNat)) :
    indicatorLeft s len + s.regs.lenofs.toNat = len := by
  rw [indicatorLeft, if_neg hkept]
  omega

/-- Of the terms of R138, FINALIZE itself makes all hold but MINLEN's and the value of the indicator. -/
theorem valid_finalizeEnd_iff {s : State} {len : Nat} (h : finalizeOK s.regs len = true) :
    Valid (bufRead (finalizeEnd len s)) (finalizeEnd len s).regs len ↔
      s.regs.minlen.toNat ≤ len ∧ (s.regs.lenen = false ∨ indicatorLeft s len + s.regs.lenofs.toNat = len) := by
  obtain ⟨hpos, _, hpair, hidx⟩ := (finalizeOK_iff _ _).mp h
  have hlast : bufRead (finalizeEnd len s) (len - 1) = checksum (bufRead (finalizeEnd len s)) len := by
    rw [checksum_finalizeEnd, bufRead_finalizeEnd, if_pos rfl]
  have hpairs : PairsOK (bufRead (finalizeEnd len s)) s.regs.pairlen.toNat :=
    (pairsOK_congr fun j hj => bufRead_finalizeEnd_before s (by omega)).mpr (pairsOK_inverted _ _)
  have hlength : (s.regs.lenen = false ∨ ((s.regs.lenidx.toNat : Int) < (len : Int) - 1 ∧
        (bufRead (finalizeEnd len s) s.regs.lenidx.toNat).toNat + s.regs.lenofs.toNat = len)) ↔
      (s.regs.lenen = false ∨ indicatorLeft s len + s.regs.lenofs.toNat = len) := by
    refine or_congr_right' fun hne => ?_
    have hen := eq_true_of_ne_false hne
    have hlt := hidx hen
    rw [bufRead_finalizeEnd_before s hlt, toNat_preparedByte_lenidx len hen]
    exact and_iff_right (by omega)
  rw [finalizeEnd_regs, ← hlength]
  constructor
  · rintro ⟨_, hmin, _, _, hlen⟩
    exact ⟨hmin, hlen⟩
  · rintro ⟨hmin, hlen⟩
    exact ⟨hpos, hmin, hlast, ⟨by omega, hpairs⟩, hlen⟩

end Sys2Proof.Machine

open Sys2Proof Sys2Proof.Machine

/-- Settles O21: the sum of the model is the checksum of R136. -/
theorem calcchkResult : Obligations.CalcchkResult :=
  ⟨fun _ s hl => exec_calcchk hl s, fun _ s hl => exec_calcchk_long hl s, rzRefused 3⟩

/-- Settles O22: RESULT is the value of the predicate of R138. -/
theorem validchkResult : Obligations.ValidchkResult := by
  refine ⟨fun l s hl => ?result, fun l s hl => exec_validchk_long hl s, rzRefused 4⟩
  case result =>
    refine ⟨_, exec_validchk hl s, (validchkResult_eq_one_iff s l.toNat).mpr, fun hinvalid => ?_⟩
    rw [← valid_iff] at hinvalid
    exact if_neg hinvalid

/-- Settles O23: the bytes are those of the pair inversion, whose pairs hold. -/
theorem invpairsResult : Obligations.InvpairsResult := by
  refine ⟨fun l s hl => ?transform, fun l s hl => exec_invpairs_long hl s, rzRefused 5⟩
  case transform =>
    have hbytes := bufRead_complete_invPairs s l.toNat
    refine ⟨_, exec_invpairs hl s, ⟨rfl, rfl, rfl, rfl, rfl⟩, congrFun hbytes, ?_⟩
    rw [hbytes]
    exact pairsOK_inverted _ _

/-- Settles O24: the two ends of FINALIZE, by its argument checks. -/
theorem finalizeResult : Obligations.FinalizeResult := by
  refine ⟨fun l s hpos h256 hpair hidx => ?steps, fun l s hbad => exec_finalize_failed fun hok => ?checks, rzRefused 6⟩
  case steps =>
    have hchecks := (finalizeOK_iff _ _).mpr ⟨hpos, h256, hpair, hidx⟩
    exact ⟨_, exec_finalize hchecks, finalizeEnd_succeededWith _ s, bufRead_finalizeEnd _ s⟩
  case checks =>
    obtain ⟨hpos, h256, hpair, hidx⟩ := (finalizeOK_iff _ _).mp hok
    rcases hbad with hzero | hlong | hregion | ⟨hen, houtside⟩
    · omega
    · omega
    · omega
    · have := hidx hen
      omega

/-- Settles O25: of the validity predicate, FINALIZE leaves open MINLEN and the value of the indicator. -/
theorem finalizeThenValidate : Obligations.FinalizeThenValidate := by
  intro l s t ht hok r overwritten x
  have hchecks := finalizeOK_of_exec ht hok
  obtain ⟨_, h256, _, _⟩ := (finalizeOK_iff _ _).mp hchecks
  obtain rfl : finalizeEnd l.toNat s = t := Host.Outcome.next.inj ((exec_finalize hchecks).symm.trans ht)
  have hone := (validchkResult_eq_one_iff _ _).trans (valid_finalizeEnd_iff hchecks)
  refine ⟨_, exec_validchk h256 _, rfl, hone, fun hmin hlen => hone.mpr ⟨hmin, hlen.imp_right ?_⟩⟩
  rintro ⟨hlo, hhi, hkept⟩
  exact indicatorLeft_add_lenofs hlo hhi hkept

/-- Settles O26: CALCCHK leaves the bytes it reads, and the laws of the pair inversion hold of any bytes. -/
theorem checksumLaws : Obligations.ChecksumLaws := by
  refine ⟨fun l s => ?recompute, fun l s => ?invert⟩
  case recompute =>
    rcases le_or_gt l.toNat 256 with hl | hl
    · exact ⟨_, _, exec_calcchk hl s, exec_calcchk hl _, rfl⟩
    · exact ⟨_, _, exec_calcchk_long hl s, exec_calcchk_long hl _, rfl⟩
  case invert =>
    rcases le_or_gt l.toNat 256 with hl | hl
    · refine ⟨_, _, exec_invpairs hl s, exec_invpairs hl _, ?_⟩
      rw [bufRead_complete_invPairs, bufRead_complete_invPairs, inverted_inverted]
      exact ⟨fun _ => rfl, fun _ => funext_iff.symm.trans inverted_eq_self_iff,
        fun _ => xorBelow_of_pairsOK (pairsOK_inverted _ _)⟩
    · exact ⟨_, _, exec_invpairs_long hl s, exec_invpairs_long hl _, fun _ => rfl, fun h => absurd h (Nat.not_le.mpr hl),
        fun h => absurd h (Nat.not_le.mpr hl)⟩

end

section
/-! PROOF. The statements of 43_encoder.md on the transmission in flight: its completion (R167), which no other agent's step brings
about (R168). -/

namespace Sys2Proof.Machine

/-- R167: the completion step of the transmission in TXSLOT. -/
theorem txpStep_of_txwait {s : State} (h : s.phase = .txwait) :
    txpStep s = .next (complete .none s.txresult { s with txslot := none }) := by
  unfold txpStep
  rw [h]

end Sys2Proof.Machine

open Sys2Proof.Machine

/-- Settles O30: the step is the completion of R103 over the emptied slot. -/
theorem transmissionCompletes : Obligations.TransmissionCompletes :=
  fun _ => txpStep_of_txwait

/-- Settles O31, agent by agent: the ENGINE and CAPP make no move in TXWAIT, and HOST's writes are dropped or reach STATUS. -/
theorem nothingElseEndsTransmission : Obligations.NothingElseEndsTransmission := by
  intro s t hs hwait hother
  obtain ⟨sched, tick, hspend⟩ := spendTurn_eq s
  rw [step, hspend] at hs
  cases hturn : turn s <;> rw [hturn] at hs
  case host =>
    have hbusy : s.phase ≠ .idle := by simp [hwait]
    obtain ⟨d, o, c, e, rfl⟩ := hostStep_of_busy hs hbusy
    exact ⟨hwait, rfl, rfl, rfl, rfl⟩
  case engine =>
    rw [agentStep, engineStep_of_not_pending (by simp [hwait])] at hs
    cases hs
    exact ⟨hwait, rfl, rfl, rfl, rfl⟩
  case txp => exact absurd hturn hother
  case capp =>
    rw [agentStep, cappStep_of_not_idle (by simp [hwait])] at hs
    cases hs
    exact ⟨hwait, rfl, rfl, rfl, rfl⟩

end

section
/-! PROOF. The statement of 43_encoder.md on the log of transactions (R166): the shape of a transmission follows from the profile
check (R161) and the frame's form (R163, R164), and of all steps only an ENCODE's hand-off adds to the log. -/

namespace Sys2Proof.Machine

open Sys2Proof.Claims

/-! The profile check in numbers (R160, R161). -/

theorem toNat_gapEff (r : Regs) : (gapEff r).toNat = gapOf r := by
  have hgap : r.gap ≠ 0 ↔ r.gap.toNat ≠ 0 := not_congr (BitVec.toNat_inj (y := 0)).symm
  rw [gapEff, gapOf, apply_ite BitVec.toNat, if_congr hgap rfl rfl, ite_not]

theorem gapEff_ne_zero_iff (r : Regs) : gapEff r ≠ 0 ↔ 0 < gapOf r := by
  rw [gapEff_ne_zero, toNat_gapEff]

theorem durationsPositive_iff (r : Regs) : durationsPositive r = true ↔ DurationsPositive r := by
  simp [durationsPositive, DurationsPositive, Nat.pos_iff_ne_zero, ← BitVec.toNat_inj]

theorem encProfileOK_iff (r : Regs) (rep : Nat) : encProfileOK r rep = true ↔ EncProfileOK r rep := by
  simp only [encProfileOK, EncProfileOK, Bool.and_eq_true, Bool.or_eq_true, decide_eq_true_eq, durationsPositive_iff,
    gapEff_ne_zero_iff, and_assoc]

/-! The form of a frame and of a transmission (R163, R164). -/

/-- A frame as its header pair, its data bits, its footer mark and its gap (R163). -/
theorem frame_eq (s : State) (n : Nat) :
    frame s n = ⟨.mark, s.regs.hdrmark⟩ :: ⟨.space, s.regs.hdrspace⟩ ::
      ((List.range n).flatMap (fun k => bitPulses s.regs (frameBit s k)) ++
        ⟨.mark, s.regs.ftrmark⟩ :: gapPulses s.regs) := by
  simp [frame]

theorem mem_transmission {s : State} {n rep : Nat} {p : Pulse} : p ∈ transmission s n rep ↔ p ∈ frame s n := by
  simp [transmission]

theorem transmission_ne_nil (s : State) (n rep : Nat) : transmission s n rep ≠ [] := by
  simp [transmission, List.replicate_succ, frame_eq]

/-! Durations of at least 1. -/

theorem bitMark_pos {r : Regs} (h : DurationsPositive r) (b : Bool) : 0 < (bitMark r b).toNat := by
  obtain ⟨_, _, hone, _, hzero, _, _⟩ := h
  cases b
  · exact hzero
  · exact hone

theorem bitSpace_pos {r : Regs} (h : DurationsPositive r) (b : Bool) : 0 < (bitSpace r b).toNat := by
  obtain ⟨_, _, _, hone, _, hzero, _⟩ := h
  cases b
  · exact hzero
  · exact hone

theorem dur_pos_of_mem_gapPulses {r : Regs} {p : Pulse} (hp : p ∈ gapPulses r) : 0 < p.dur.toNat := by
  unfold gapPulses at hp
  split at hp
  · rename_i hgap
    obtain rfl := List.mem_singleton.mp hp
    exact (gapEff_ne_zero r).mp hgap
  · cases hp

theorem dur_pos_of_mem_frame {s : State} {n : Nat} {p : Pulse} (h : DurationsPositive s.regs) (hp : p ∈ frame s n) :
    0 < p.dur.toNat := by
  have ⟨hhdrmark, hhdrspace, _, _, _, _, hftrmark⟩ := h
  simp only [frame_eq, List.mem_cons, List.mem_append, List.mem_flatMap, bitPulses, List.not_mem_nil, or_false] at hp
  rcases hp with rfl | rfl | ⟨k, _, rfl | rfl⟩ | rfl | hgap
  · exact hhdrmark
  · exact hhdrspace
  · exact bitMark_pos h _
  · exact bitSpace_pos h _
  · exact hftrmark
  · exact dur_pos_of_mem_gapPulses hgap

/-! Alternating levels. -/

/-- Data bits are pairs of a MARK and a SPACE, so what follows them begins as they do. -/
theorem alternates_bits_append (r : Regs) (bit : Nat → Bool) (ks : List Nat) (ps : List Pulse) :
    alternates .mark (ks.flatMap (fun k => bitPulses r (bit k)) ++ ps) = alternates .mark ps := by
  induction ks with
  | nil => rfl
  | cons k ks ih =>
    rw [List.flatMap_cons, List.append_assoc, ← ih]
    simp [bitPulses, alternates]

/-- A frame that ends with a gap may be followed by another; one that ends with its footer mark may not. -/
theorem alternates_frame_append {s : State} {ps : List Pulse} (n : Nat) (h : gapEff s.regs ≠ 0 ∨ ps = [])
    (hps : alternates .mark ps = true) : alternates .mark (frame s n ++ ps) = true := by
  have htail : alternates .space (gapPulses s.regs ++ ps) = true := by
    unfold gapPulses
    split
    · simpa [alternates] using hps
    · rename_i hgap
      rw [h.resolve_left hgap]
      rfl
  rw [frame_eq]
  simpa [alternates, alternates_bits_append] using htail

theorem alternates_transmission {s : State} {rep : Nat} (n : Nat) (h : rep = 0 ∨ gapEff s.regs ≠ 0) :
    alternates .mark (transmission s n rep) = true := by
  unfold transmission
  induction rep with
  | zero => exact alternates_frame_append n (.inr rfl) rfl
  | succ rep ih =>
    have hgap := h.resolve_left (Nat.succ_ne_zero rep)
    rw [List.replicate_succ, List.flatten_cons]
    exact alternates_frame_append n (.inl hgap) (ih (.inr hgap))

/-- R166: the profile check gives the transaction its shape. -/
theorem transmission_wellShaped {s : State} {rep : Nat} (n : Nat) (h : encProfileOK s.regs rep = true) :
    Txn.wellShaped ⟨s.regs.carrier, transmission s n rep⟩ := by
  obtain ⟨_, hdur, hgap⟩ := (encProfileOK_iff _ _).mp h
  rw [← gapEff_ne_zero_iff] at hgap
  exact ⟨fun p hp => dur_pos_of_mem_frame hdur (mem_transmission.mp hp), alternates_transmission n hgap,
    transmission_ne_nil s n rep⟩

/-! The log after each step. -/

/-- The log of `t` is that of `s`, or has one transaction of the shape of R166 behind it. -/
def LogGrows (s t : State) : Prop :=
  t.txlog = s.txlog ∨ ∃ x : Txn, x.wellShaped ∧ t.txlog = s.txlog ++ [x]

theorem exec_logGrows {i : Instr} {s t : State} (h : exec i s = .next t) : LogGrows s t := by
  cases effect_of_exec h with
  | failed e he => exact .inl rfl
  | succeeded r b hb => exact .inl rfl
  | handedOff n r hi hp => exact .inr ⟨_, transmission_wellShaped n.toNat hp, rfl⟩

theorem busWrite_txlog (s : State) (off : Offset) (v : Word) : (busWrite s off v).txlog = s.txlog := by
  rcases busWrite_cases s off v with ⟨_, hw⟩ | ⟨_, _, hw⟩ | ⟨h4, _, hw⟩ <;> rw [hw]
  · rfl
  · rcases writeTarget_cases s v off h4 with ⟨_, hx⟩ | ⟨_, _, hx⟩ | ⟨_, _, hx⟩ | ⟨_, _, hx⟩ | ⟨_, hx⟩ <;> rw [hx] <;> rfl

theorem hostStep_txlog {s t : State} (h : hostStep s = .next t) : t.txlog = s.txlog := by
  rcases hostStep_cases h with ⟨_, rfl⟩ | ⟨off, v, rest, _, _, rfl⟩
  · rfl
  · exact busWrite_txlog _ off v

theorem engineStep_logGrows {s t : State} (h : engineStep s = .next t) : LogGrows s t := by
  rcases engineStep_cases h with ⟨_, rfl⟩ | ⟨_, i, _, hx⟩ | ⟨_, _, _, rfl⟩
  · exact .inl rfl
  · exact exec_logGrows hx
  · exact .inl rfl

theorem agentStep_logGrows {a : Agent} {s t : State} (h : agentStep a s = .next t) : LogGrows s t := by
  cases a with
  | host => exact .inl (hostStep_txlog h)
  | engine => exact engineStep_logGrows h
  | txp => rcases txpStep_cases h with ⟨_, rfl⟩ | ⟨_, rfl⟩ <;> exact .inl rfl
  | capp => rcases cappStep_cases h with ⟨rfl, _⟩ | ⟨_, _, _, _, rfl⟩ <;> exact .inl rfl

theorem step_logGrows {s t : State} (h : step s = .next t) : LogGrows s t := by
  obtain ⟨sched, tick, hspend⟩ := spendTurn_eq s
  rw [step, hspend] at h
  exact agentStep_logGrows (s := { s with env := { s.env with schedule := sched, tick := tick } }) h

end Sys2Proof.Machine

open Sys2Proof.Machine

/-- Settles O29: a step leaves the log, or adds one transaction of the shape to it. -/
theorem txLogKeepsShapeAndGrows : Obligations.TxLogKeepsShapeAndGrows := by
  intro s t hs
  obtain hsame | ⟨x, hx, hmore⟩ := step_logGrows hs
  · exact ⟨fun hlog y hy => hlog y (hsame ▸ hy), [], by simp [hsame], by simp⟩
  · refine ⟨fun hlog y hy => ?_, [x], hmore, by simp⟩
    rw [hmore, List.mem_append, List.mem_singleton] at hy
    obtain hold | rfl := hy
    · exact hlog y hold
    · exact hx

end

section
/-! PROOF. The statements of 43_encoder.md on ENCODE (R165): its errors in order, its transaction pulse by pulse (R163, R164), and the
number and the sum of the pulses' durations (R169). -/

namespace Sys2Proof.Machine

open Sys2Proof.Claims

/-! The ends of ENCODE. -/

section Encode

variable {n : BitVec 12} {r : BitVec 8} {s : State}

theorem exec_encode_long (hn : 2048 < n.toNat) : exec (.encode n r) s = .next (failedWith 0x02 s) := by
  rw [exec, execEncode, if_pos hn, complete_arg]

theorem exec_encode_profile (hn : n.toNat ≤ 2048) (hprof : ¬EncProfileOK s.regs r.toNat) :
    exec (.encode n r) s = .next (failedWith 0x03 s) := by
  rw [← encProfileOK_iff] at hprof
  rw [exec, execEncode, if_neg (Nat.not_lt.mpr hn), if_pos (by simpa using hprof), complete_of_ne_none (by decide)]
  rfl

theorem exec_encode_short (hn : n.toNat ≤ 2048) (hprof : EncProfileOK s.regs r.toNat)
    (hmin : (n.toNat + 7) / 8 < s.regs.minlen.toNat) : exec (.encode n r) s = .next (failedWith 0x04 s) := by
  rw [← encProfileOK_iff] at hprof
  rw [exec, execEncode, if_neg (Nat.not_lt.mpr hn), if_neg (by simp [hprof]), ceil8, if_pos hmin,
    complete_of_ne_none (by decide)]
  rfl

theorem exec_encode_handoff (hn : n.toNat ≤ 2048) (hprof : EncProfileOK s.regs r.toNat)
    (hmin : s.regs.minlen.toNat ≤ (n.toNat + 7) / 8) :
    exec (.encode n r) s = .next (handoff ⟨s.regs.carrier, transmission s n.toNat r.toNat⟩ s) := by
  rw [← encProfileOK_iff] at hprof
  rw [exec, execEncode, if_neg (Nat.not_lt.mpr hn), if_neg (by simp [hprof]), ceil8, if_neg (Nat.not_lt.mpr hmin)]

/-- An ENCODE that leaves the block in TXWAIT met its first check and has handed its transaction over. -/
theorem exec_encode_of_txwait {t : State} (h : exec (.encode n r) s = .next t) (hwait : t.phase = .txwait) :
    n.toNat ≤ 2048 ∧ t = handoff ⟨s.regs.carrier, transmission s n.toNat r.toNat⟩ s := by
  refine ⟨Nat.not_lt.mp fun hn => ?_, ?_⟩
  · rw [exec_encode_long hn] at h
    cases h
    cases hwait
  · cases effect_of_exec h with
    | failed e he => cases hwait
    | succeeded x b hb => cases hwait
    | handedOff n' r' hi hp =>
      cases hi
      rfl

end Encode

/-! The gap of a frame, and its number of pulses (R163, R169). -/

theorem gapPulses_eq_replicate (r : Regs) : gapPulses r = List.replicate (gapCount r) ⟨.space, gapEff r⟩ := by
  rw [gapPulses, gapCount, if_congr ((gapEff_ne_zero_iff r).trans Nat.pos_iff_ne_zero) rfl rfl, ite_not]
  split <;> rfl

theorem gapCount_le_one (r : Regs) : gapCount r ≤ 1 := by
  unfold gapCount
  split <;> decide

theorem frame_length_eq_frameLen (s : State) (n : Nat) : (frame s n).length = frameLen s.regs n := by
  simp only [frame_eq, List.length_cons, List.length_append, bits_length, gapPulses_eq_replicate, List.length_replicate,
    frameLen]
  omega

/-! The pulses of a frame by position (R163), in the model's list and in the rule's function. -/

section FrameByPosition

variable (s : State) {n k : Nat}

theorem frame_getElem?_mark (hk : k < n) :
    (frame s n)[2 + 2 * k]? = some ⟨.mark, bitMark s.regs (frameBit s k)⟩ := by
  obtain ⟨hmark, _⟩ := bits_getElem? s hk
  rw [frame_eq, Nat.add_comm, List.getElem?_cons_succ, List.getElem?_cons_succ,
    List.getElem?_append_left (by rw [bits_length]; omega), hmark]

theorem frame_getElem?_space (hk : k < n) :
    (frame s n)[2 + 2 * k + 1]? = some ⟨.space, bitSpace s.regs (frameBit s k)⟩ := by
  obtain ⟨_, hspace⟩ := bits_getElem? s hk
  rw [frame_eq, Nat.add_assoc, Nat.add_comm, List.getElem?_cons_succ, List.getElem?_cons_succ,
    List.getElem?_append_left (by rw [bits_length]; omega), hspace]

/-- The footer mark and the gap stand behind the data. -/
theorem frame_getElem?_footer (n j : Nat) :
    (frame s n)[2 + 2 * n + j]? = (⟨.mark, s.regs.ftrmark⟩ :: gapPulses s.regs)[j]? := by
  rw [frame_eq, Nat.add_assoc, Nat.add_comm, List.getElem?_cons_succ, List.getElem?_cons_succ,
    List.getElem?_append_right (by rw [bits_length]; omega), bits_length, Nat.add_sub_cancel_left]

theorem framePulse_mark (hk : k < n) :
    framePulse (bufRead s) s.regs n (2 + 2 * k) = (.mark, (bitMark s.regs (frameBit s k)).toNat) := by
  have hbit : (2 + 2 * k - 2) / 2 = k := by omega
  have hmark : (bitMark s.regs (frameBit s k)).toNat =
      if lineBit (bufRead s) k then s.regs.onemark.toNat else s.regs.zeromark.toNat := apply_ite _ _ _ _
  rw [framePulse, if_neg (by omega), if_neg (by omega), if_pos (by omega), if_pos (by omega), hbit, hmark]

theorem framePulse_space (hk : k < n) :
    framePulse (bufRead s) s.regs n (2 + 2 * k + 1) = (.space, (bitSpace s.regs (frameBit s k)).toNat) := by
  have hbit : (2 + 2 * k + 1 - 2) / 2 = k := by omega
  have hspace : (bitSpace s.regs (frameBit s k)).toNat =
      if lineBit (bufRead s) k then s.regs.onespace.toNat else s.regs.zerospace.toNat := apply_ite _ _ _ _
  rw [framePulse, if_neg (by omega), if_neg (by omega), if_pos (by omega), if_neg (by omega), hbit, hspace]

theorem framePulse_footer (rd : Nat → Byte) (r : Regs) (n : Nat) :
    framePulse rd r n (2 + 2 * n) = (.mark, r.ftrmark.toNat) := by
  rw [framePulse, if_neg (by omega), if_neg (by omega), if_neg (by omega), if_pos rfl]

theorem framePulse_gap (rd : Nat → Byte) (r : Regs) (n : Nat) :
    framePulse rd r n (2 + 2 * n + 1) = (.space, gapOf r) := by
  rw [framePulse, if_neg (by omega), if_neg (by omega), if_neg (by omega), if_neg (by omega)]

end FrameByPosition

/-- A place of a frame is in its header, in the pair of one data bit, its footer mark, or its gap. -/
theorem framePlace_cases {r : Regs} {n p : Nat} (hp : p < frameLen r n) :
    p = 0 ∨ p = 1 ∨ (∃ k, k < n ∧ (p = 2 + 2 * k ∨ p = 2 + 2 * k + 1)) ∨ p = 2 + 2 * n ∨
      (p = 2 + 2 * n + 1 ∧ gapCount r = 1) := by
  have hgap := gapCount_le_one r
  unfold frameLen at hp
  by_cases hdata : 2 ≤ p ∧ p < 2 + 2 * n
  · exact .inr (.inr (.inl ⟨(p - 2) / 2, by omega⟩))
  · omega

theorem frame_getElem?_eq_framePulse (s : State) {n p : Nat} (hp : p < frameLen s.regs n) :
    ((frame s n)[p]?).map (fun x => (x.level, x.dur.toNat)) = some (framePulse (bufRead s) s.regs n p) := by
  rcases framePlace_cases hp with rfl | rfl | ⟨k, hk, rfl | rfl⟩ | rfl | ⟨rfl, hgap⟩
  · rfl
  · rfl
  · rw [frame_getElem?_mark s hk, framePulse_mark s hk]
    rfl
  · rw [frame_getElem?_space s hk, framePulse_space s hk]
    rfl
  · rw [← Nat.add_zero (2 + 2 * n), frame_getElem?_footer, Nat.add_zero, framePulse_footer]
    rfl
  · rw [frame_getElem?_footer s n 1, framePulse_gap, gapPulses_eq_replicate, hgap, ← toNat_gapEff]
    rfl

theorem isTransmission_transmission (s : State) (n rep : Nat) :
    IsTransmission (bufRead s) s.regs n rep (transmission s n rep) := by
  refine ⟨by rw [transmission_length, frame_length_eq_frameLen], fun q hq p hp => ?_⟩
  rw [← frame_length_eq_frameLen s n] at hp ⊢
  rw [transmission_getElem? s hq hp]
  exact frame_getElem?_eq_framePulse s (frame_length_eq_frameLen s n ▸ hp)

/-! The pulse count and the durations (R169). -/

/-- The largest count is 256 × (2 + 4096 + 1 + 1). -/
theorem transmission_length_le {n : Nat} (hn : n ≤ 2048) (rep : BitVec 8) (s : State) :
    (transmission s n rep.toNat).length ≤ 1049600 := by
  have hgap := gapCount_le_one s.regs
  have hframe : frameLen s.regs n ≤ 4100 := by
    unfold frameLen
    omega
  rw [transmission_length, frame_length_eq_frameLen]
  exact Nat.mul_le_mul rep.isLt hframe

theorem totalDur_cons (p : Pulse) (ps : List Pulse) : totalDur (p :: ps) = p.dur.toNat + totalDur ps := by
  simp [totalDur]

theorem totalDur_append (ps qs : List Pulse) : totalDur (ps ++ qs) = totalDur ps + totalDur qs := by
  simp [totalDur]

theorem totalDur_replicate (m : Nat) (p : Pulse) : totalDur (List.replicate m p) = m * p.dur.toNat := by
  simp [totalDur]

theorem totalDur_bitPulses (s : State) (k : Nat) :
    totalDur (bitPulses s.regs (frameBit s k)) =
      if lineBit (bufRead s) k then s.regs.onemark.toNat + s.regs.onespace.toNat
      else s.regs.zeromark.toNat + s.regs.zerospace.toNat := by
  have hbit : frameBit s k = lineBit (bufRead s) k := rfl
  rw [hbit]
  cases lineBit (bufRead s) k <;> rfl

theorem totalDur_flatMap (f : Nat → List Pulse) (ks : List Nat) :
    totalDur (ks.flatMap f) = (ks.map fun k => totalDur (f k)).sum := by
  induction ks with
  | nil => rfl
  | cons k ks ih => rw [List.flatMap_cons, totalDur_append, ih, List.map_cons, List.sum_cons]

theorem totalDur_transmission (s : State) (n rep : Nat) :
    totalDur (transmission s n rep) = (rep + 1) * totalDur (frame s n) := by
  simp [totalDur, transmission, List.sum_flatten]

theorem totalDur_frame (s : State) (n : Nat) : totalDur (frame s n) = frameDur (bufRead s) s.regs n := by
  simp only [frame_eq, totalDur_cons, totalDur_append, totalDur_flatMap, totalDur_bitPulses, gapPulses_eq_replicate,
    totalDur_replicate, toNat_gapEff, frameDur]
  omega

end Sys2Proof.Machine

open Sys2Proof Sys2Proof.Claims Sys2Proof.Machine

/-- Settles O27: the checks one by one, and the transaction by the places of its frames. -/
theorem encodeResult : Obligations.EncodeResult := by
  refine ⟨fun n r s => exec_encode_long, fun n r s => exec_encode_profile, fun n r s => exec_encode_short,
    fun n r s hn hprof hmin => ?handoff, rzRefused 7⟩
  case handoff =>
    exact ⟨_, _, isTransmission_transmission s n.toNat r.toNat, exec_encode_handoff hn hprof hmin, rfl,
      txpStep_of_txwait (s := handoff _ s) rfl⟩

/-- Settles O28: the number of pulses fits RESULT, and the repeats are copies of one frame. -/
theorem pulseCountAndDuration : Obligations.PulseCountAndDuration := by
  intro n r s t ht hwait
  obtain ⟨hn, rfl⟩ := exec_encode_of_txwait ht hwait
  have hmax := transmission_length_le hn r s
  have hresult : (BitVec.ofNat 32 (transmission s n.toNat r.toNat).length).toNat =
      (transmission s n.toNat r.toNat).length := by
    rw [BitVec.toNat_ofNat]
    exact Nat.mod_eq_of_lt (by omega)
  have hcount : (transmission s n.toNat r.toNat).length = (r.toNat + 1) * (2 + 2 * n.toNat + 1 + gapCount s.regs) := by
    rw [transmission_length, frame_length_eq_frameLen, frameLen]
  refine ⟨_, _, rfl, txpStep_of_txwait (s := handoff _ s) rfl, rfl, hresult.trans hcount, hresult.trans_le hmax, ?_⟩
  rw [totalDur_transmission, totalDur_frame]

end

section
/-! PROOF. The statements of 44_decoder.md on DECODE (R190): its result, its commit on success (R192) and its strict rejection (R194).
The decoder's checks (R181 to R191) are taken one by one: each part of the model's decode reports the first of the rule's checks
that fails, and the parts are joined in the rule's order. -/

namespace Sys2Proof.Machine

open Sys2Proof.Claims

/-! Lists of checks, and the computations that report the first that fails (R213). -/

theorem firstFailed_unique {cs : List (Prop × BitVec 8)} {c c' : BitVec 8} (h : FirstFailed cs c)
    (h' : FirstFailed cs c') : c = c' := by
  induction cs with
  | nil => exact h.trans h'.symm
  | cons check rest ih =>
    rcases h with ⟨hp, rfl⟩ | ⟨hp, h⟩ <;> rcases h' with ⟨hp', rfl⟩ | ⟨hp', h'⟩
    · rfl
    · exact absurd hp' hp
    · exact absurd hp hp'
    · exact ih h h'

theorem firstFailed_append_of_passed {cs ds : List (Prop × BitVec 8)} {c : BitVec 8} (hcs : ∀ check ∈ cs, check.1)
    (h : FirstFailed ds c) : FirstFailed (cs ++ ds) c := by
  induction cs with
  | nil => exact h
  | cons check rest ih =>
    obtain ⟨hp, hrest⟩ := List.forall_mem_cons.mp hcs
    exact .inr ⟨hp, ih hrest⟩

theorem firstFailed_zero_of_passed {cs : List (Prop × BitVec 8)} (hcs : ∀ check ∈ cs, check.1) : FirstFailed cs 0 := by
  rw [← List.append_nil cs]
  exact firstFailed_append_of_passed hcs rfl

theorem firstFailed_append_of_failed {cs : List (Prop × BitVec 8)} {c : BitVec 8} (h : FirstFailed cs c) (hc : c ≠ 0)
    (ds : List (Prop × BitVec 8)) : FirstFailed (cs ++ ds) c := by
  induction cs with
  | nil => exact absurd h hc
  | cons check rest ih => exact h.imp_right (.imp_right ih)

theorem Err.code_ne_zero {e : Err} (he : e ≠ .none) : e.code ≠ 0 := by
  cases e with
  | none => exact absurd rfl he
  | _ => decide

/-- A computation that runs the checks of a list in order: its error is that of the first check that fails, and it answers
only where all pass. -/
def Reports {α : Type} (cs : List (Prop × BitVec 8)) : Except Err α → Prop
  | .error e => e ≠ .none ∧ FirstFailed cs e.code
  | .ok _ => ∀ check ∈ cs, check.1

section Reports

variable {α β : Type} {cs ds : List (Prop × BitVec 8)} {p : Prop} {e : Err}

theorem Reports.answer (a : α) : Reports [] (.ok a : Except Err α) :=
  List.forall_mem_nil _

theorem Reports.failed (he : e ≠ .none) (hp : ¬p) : Reports ((p, e.code) :: cs) (.error e : Except Err α) :=
  ⟨he, .inl ⟨hp, rfl⟩⟩

theorem Reports.passed {x : Except Err α} {c : BitVec 8} (hp : p) (hx : Reports cs x) : Reports ((p, c) :: cs) x := by
  cases x with
  | error e =>
    obtain ⟨he, hfirst⟩ := hx
    exact ⟨he, .inr ⟨hp, hfirst⟩⟩
  | ok a => exact List.forall_mem_cons.mpr ⟨hp, hx⟩

/-- A check that ends the computation where its condition holds. -/
theorem Reports.guard {x : Except Err α} {c : Prop} [Decidable c] (he : e ≠ .none) (hp : p ↔ ¬c)
    (hx : p → Reports cs x) : Reports ((p, e.code) :: cs) (if c then .error e else x) := by
  split
  · rename_i hc
    exact .failed he (not_not_intro hc ∘ hp.mp)
  · rename_i hc
    exact .passed (hp.mpr hc) (hx (hp.mpr hc))

theorem Reports.bind {x : Except Err α} {f : α → Except Err β} (hx : Reports cs x)
    (hf : ∀ a, x = .ok a → Reports ds (f a)) : Reports (cs ++ ds) (x >>= f) := by
  cases x with
  | error e =>
    obtain ⟨he, hfirst⟩ := hx
    exact ⟨he, firstFailed_append_of_failed hfirst (Err.code_ne_zero he) ds⟩
  | ok a =>
    have hfa := hf a rfl
    change Reports (cs ++ ds) (f a)
    cases hfx : f a with
    | error e =>
      rw [hfx] at hfa
      obtain ⟨he, hfirst⟩ := hfa
      exact ⟨he, firstFailed_append_of_passed hx hfirst⟩
    | ok b =>
      rw [hfx] at hfa
      exact List.forall_mem_append.mpr ⟨hx, hfa⟩

end Reports

/-! The matching functions in the rules' terms (R180 to R185). -/

section Matching

variable (s : State) (i : Nat) (r : Regs) (d : Nat) (ref : Dur)

theorem isMark_iff : IsMark s i ↔ entryLevel s i = .mark :=
  (entryLevel_mark s i).symm

theorem not_isMark_iff : ¬IsMark s i ↔ entryLevel s i = .space := by
  rw [isMark_iff]
  cases entryLevel s i <;> decide

theorem entryDur_eq_durAt : entryDur s i = durAt s i :=
  entryDur_eq s i

theorem atLeast_iff : atLeast r d ref = true ↔ AtLeast r.tol.toNat d ref.toNat :=
  decide_eq_true_iff

theorem durMatch_iff : durMatch r d ref = true ↔ Match r.tol.toNat d ref.toNat := by
  rw [durMatch, Bool.and_eq_true, atLeast_iff, decide_eq_true_iff]
  rfl

theorem distance_eq_durDist : distance d ref = durDist d ref.toNat := by
  unfold distance durDist
  omega

/-- R185: the space is that of one bit at most, the one that the model answers. -/
theorem classify_eq_some_iff (b : Bool) : classify r d = some b ↔ SpaceIs r d b := by
  simp only [SpaceIs, ← durMatch_iff, ← distance_eq_durDist]
  unfold classify
  split
  case h_1 hone hzero => cases b <;> simp [hone, hzero]
  case h_2 hone hzero => cases b <;> simp [hone, hzero]
  case h_3 hone hzero =>
    rcases lt_trichotomy (distance d r.onespace) (distance d r.zerospace) with hlt | heq | hgt
    · cases b <;> simp [hone, hzero, hlt, hlt.not_gt]
    · cases b <;> simp [hone, hzero, heq]
    · cases b <;> simp [hone, hzero, hgt, hgt.not_gt]
  case h_4 hone hzero => cases b <;> simp [hone, hzero]

theorem classify_eq_none_iff : classify r d = none ↔ ¬∃ b, SpaceIs r d b := by
  simp only [← classify_eq_some_iff, ← Option.isSome_iff_exists, Option.not_isSome_iff_eq_none]

end Matching

theorem spaceIs_unique {r : Regs} {d : Nat} {b b' : Bool} (h : SpaceIs r d b) (h' : SpaceIs r d b') : b = b' := by
  rw [← classify_eq_some_iff] at h h'
  exact Option.some.inj (h.symm.trans h')

/-! The checks of the entries in capture order (R186 to R188). -/

theorem checkEntry_reports {s : State} {i : Nat} {l : Level} {ok : Bool} {e : Err} {level dur : Prop} (he : e ≠ .none)
    (hlevel : level ↔ entryLevel s i = l) (hdur : dur ↔ ok = true) :
    Reports [(level, 0x12), (dur, e.code)] (checkEntry s i l ok e) := by
  refine .guard (e := .level) (by decide) (by rw [hlevel, not_ne_iff]) fun _ => ?_
  split
  · rename_i hok
    exact .passed (hdur.mpr hok) (.answer ())
  · rename_i hok
    exact .failed he (mt hdur.mp hok)

theorem markEntry_reports (s : State) (i : Nat) (ref : Dur) {e : Err} (he : e ≠ .none) :
    Reports [(IsMark s i, 0x12), (Match s.regs.tol.toNat (durAt s i) ref.toNat, e.code)]
      (checkEntry s i .mark (durMatch s.regs (entryDur s i) ref) e) :=
  checkEntry_reports he (isMark_iff s i) (by rw [durMatch_iff, entryDur_eq_durAt])

theorem toNat_bitMark (r : Regs) (b : Bool) :
    (bitMark r b).toNat = if b = true then r.onemark.toNat else r.zeromark.toNat :=
  apply_ite ..

theorem decodeBit_eq (s : State) (i : Nat) : decodeBit s i = (do
    checkEntry s i .mark
      (durMatch s.regs (entryDur s i) s.regs.onemark || durMatch s.regs (entryDur s i) s.regs.zeromark) .bitmark
    if entryLevel s (i + 1) ≠ .space then .error .level
    else
      match classify s.regs (entryDur s (i + 1)) with
      | none => .error .bitspace
      | some b => if durMatch s.regs (entryDur s i) (bitMark s.regs b) then .ok b else .error .bitmark) := by
  unfold decodeBit
  split <;> simp only [*] <;> rfl

theorem decodeBit_reports (s : State) (o k : Nat) : Reports (bitChecks s o k) (decodeBit s (o + 2 + 2 * k)) := by
  unfold bitChecks
  simp only [← entryDur_eq_durAt, ← durMatch_iff, ← toNat_bitMark]
  generalize o + 2 + 2 * k = i
  rw [decodeBit_eq]
  refine .bind (cs := [_, _]) (checkEntry_reports (by decide) (isMark_iff s i) (Bool.or_eq_true_iff ..).symm) fun _ _ => ?_
  refine .guard (e := .level) (by decide) (by rw [not_isMark_iff, not_ne_iff]) fun _ => ?_
  split
  · rename_i hnone
    exact .failed (by decide) ((classify_eq_none_iff ..).mp hnone)
  · rename_i b hb
    rw [classify_eq_some_iff] at hb
    refine .passed ⟨b, hb⟩ ?_
    split
    · rename_i hmark
      exact .passed (fun b' hb' => spaceIs_unique hb hb' ▸ hmark) (.answer b)
    · rename_i hmark
      exact .failed (by decide) fun h => hmark (h b hb)

theorem decodeBits_succ (s : State) (i n : Nat) : decodeBits s i (n + 1) = (do
    let b ← decodeBit s i
    let bs ← decodeBits s (i + 2) n
    return b :: bs) := by
  rw [decodeBits]
  repeat (split; · simp only [*]; rfl)
  simp only [*]
  rfl

theorem decodeBits_reports (s : State) (o k n : Nat) :
    Reports ((List.range' k n).flatMap (bitChecks s o)) (decodeBits s (o + 2 + 2 * k) n) := by
  induction n generalizing k with
  | zero => exact .answer []
  | succ n ih =>
    rw [decodeBits_succ, List.range'_succ, List.flatMap_cons]
    refine .bind (decodeBit_reports s o k) fun b _ => ?_
    rw [← List.append_nil (List.flatMap ..)]
    exact .bind (ih (k + 1)) fun bs _ => .answer (b :: bs)

theorem decodeGap_eq {s : State} {g : Nat} (hg : g < s.regs.caplen.val) : decodeGap s g = (do
    checkEntry s g .space (atLeast s.regs (entryDur s g) (gapEff s.regs)) .gap
    return g + 1) := by
  rw [decodeGap, if_pos hg]
  split <;> simp only [*] <;> rfl

theorem decodeGap_reports (s : State) (g : Nat) : Reports (gapChecks s g) (decodeGap s g) := by
  by_cases hg : g < s.regs.caplen.val
  · rw [decodeGap_eq hg]
    refine .bind (cs := [_, _]) (checkEntry_reports (by decide) ?_ ?_) fun _ _ => .passed (.inl hg) (.answer (g + 1))
    · rw [forall_prop_of_true hg, not_isMark_iff]
    · rw [forall_prop_of_true hg, atLeast_iff, entryDur_eq_durAt, toNat_gapEff]
  · rw [decodeGap, if_neg hg]
    refine .passed (absurd · hg) (.passed (absurd · hg) ?_)
    split
    · rename_i hend
      exact .passed (.inr hend) (.answer g)
    · rename_i hend
      exact .failed (e := .trunc) (by decide) (not_or.mpr ⟨hg, hend⟩)

/-- The checks of the entries that a decode of `n` bits at index `o` consumes, in capture order (R190). -/
def entryChecks (s : State) (n o : Nat) : List (Prop × BitVec 8) :=
  let r := s.regs
  [(IsMark s o, 0x12), (Match r.tol.toNat (durAt s o) r.hdrmark.toNat, 0x13)] ++
    ([(¬IsMark s (o + 1), 0x12), (Match r.tol.toNat (durAt s (o + 1)) r.hdrspace.toNat, 0x14)] ++
      ((List.range n).flatMap (bitChecks s o) ++
        ([(IsMark s (o + 2 + 2 * n), 0x12), (Match r.tol.toNat (durAt s (o + 2 + 2 * n)) r.ftrmark.toNat, 0x17)] ++
          (gapChecks s (o + 2 + 2 * n + 1) ++ []))))

theorem decodeEntries_eq (s : State) (n o : Nat) : decodeEntries s n o = (do
    checkEntry s o .mark (durMatch s.regs (entryDur s o) s.regs.hdrmark) .hdrmark
    checkEntry s (o + 1) .space (durMatch s.regs (entryDur s (o + 1)) s.regs.hdrspace) .hdrspace
    let bits ← decodeBits s (o + 2) n
    checkEntry s (o + 2 + 2 * n) .mark (durMatch s.regs (entryDur s (o + 2 + 2 * n)) s.regs.ftrmark) .ftrmark
    let i ← decodeGap s (o + 2 + 2 * n + 1)
    return (bits, i)) := by
  unfold decodeEntries
  repeat (split; · simp only [*]; rfl)
  simp only [*]
  rfl


theorem decodeEntries_reports (s : State) (n o : Nat) : Reports (entryChecks s n o) (decodeEntries s n o) := by
  have hspace : Reports [(¬IsMark s (o + 1), 0x12), (Match s.regs.tol.toNat (durAt s (o + 1)) s.regs.hdrspace.toNat, 0x14)]
      (checkEntry s (o + 1) .space (durMatch s.regs (entryDur s (o + 1)) s.regs.hdrspace) .hdrspace) :=
    checkEntry_reports (by decide) (not_isMark_iff s (o + 1)) (by rw [durMatch_iff, entryDur_eq_durAt])
  rw [decodeEntries_eq, entryChecks, List.range_eq_range']
  exact .bind (markEntry_reports s o s.regs.hdrmark (by decide)) fun _ _ =>
    .bind hspace fun _ _ =>
    .bind (decodeBits_reports s o 0 n) fun bits _ =>
    .bind (markEntry_reports s (o + 2 + 2 * n) s.regs.ftrmark (by decide)) fun _ _ =>
    .bind (decodeGap_reports s (o + 2 + 2 * n + 1)) fun i _ => .answer (bits, i)

/-! The bits that a decode answers, and the candidate made of them (R187, R189). -/

theorem decodeEntries_ok {s : State} {n o i : Nat} {bits : List Bool} (h : decodeEntries s n o = .ok (bits, i)) :
    decodeBits s (o + 2) n = .ok bits ∧ decodeGap s (o + 2 + 2 * n + 1) = .ok i := by
  unfold decodeEntries at h
  repeat (split at h; · cases h)
  cases h
  exact ⟨by assumption, by assumption⟩

theorem decodeGap_ok {s : State} {g i : Nat} (h : decodeGap s g = .ok i) :
    i = g + if g < s.regs.caplen.val then 1 else 0 := by
  unfold decodeGap at h
  split at h
  · rename_i hg
    split at h <;> cases h
    rw [if_pos hg]
  · rename_i hg
    split at h <;> cases h
    rw [if_neg hg]
    rfl

theorem bitsAre_of_decodeBits {s : State} {n o : Nat} {bits : List Bool} (h : decodeBits s (o + 2) n = .ok bits) :
    BitsAre s n o (bits.getD · false) := by
  intro k hk
  obtain ⟨_, _, _, hclass, _⟩ := decodeBit_ok (decodeBits_ok h hk)
  rw [← classify_eq_some_iff, ← entryDur_eq_durAt]
  exact hclass

theorem bitsAre_unique {s : State} {n o : Nat} {bits bits' : Nat → Bool} (h : BitsAre s n o bits)
    (h' : BitsAre s n o bits') {k : Nat} (hk : k < n) : bits' k = bits k :=
  spaceIs_unique (h' k hk) (h k hk)

theorem getLsbD_candidate (bits : Nat → Bool) (n j : Nat) {b : Nat} (hb : b < 8) :
    (candidate bits n j).getLsbD b = (decide (8 * j + (7 - b) < n) && bits (8 * j + (7 - b))) := by
  rw [candidate, BitVec.getLsbD_ofFnLE, dif_pos hb]

theorem candByte_eq_candidate (bits : List Bool) (j : Nat) :
    candByte bits j = candidate (bits.getD · false) bits.length j := by
  refine BitVec.eq_of_getLsbD_eq fun b hb => ?_
  rw [getLsbD_candByte bits j hb, getLsbD_candidate _ _ j hb]
  by_cases hk : 8 * j + (7 - b) < bits.length <;> simp [hk]

theorem candidate_congr {bits bits' : Nat → Bool} {n : Nat} (h : ∀ k, k < n → bits' k = bits k) :
    candidate bits' n = candidate bits n := by
  refine funext fun j => BitVec.eq_of_getLsbD_eq fun b hb => ?_
  rw [getLsbD_candidate _ _ j hb, getLsbD_candidate _ _ j hb]
  by_cases hk : 8 * j + (7 - b) < n
  · rw [h _ hk]
  · simp [hk]

theorem bufRead_candBytes (s : State) (bits : List Bool) :
    bufRead (bufWriteAll s 0 (candBytes bits)) = withCandidate s (bits.getD · false) bits.length := by
  funext j
  rw [bufRead_bufWriteAll, withCandidate, candBytes_length, ceil8, Nat.zero_add]
  refine if_ctx_congr (and_iff_right (Nat.zero_le j)) (fun hj => ?_) fun _ => rfl
  rw [← candByte_eq_candidate]
  simp [candBytes, ceil8, hj]

/-! The checks of the whole command (R190, R213). -/

theorem decProfileOK_iff (r : Regs) : decProfileOK r = true ↔ DecProfileOK r := by
  simp only [decProfileOK, DecProfileOK, Bool.and_eq_true, decide_eq_true_eq, durationsPositive_iff, ne_eq, BitVec.toNat_inj,
    and_assoc]

theorem sanctioned_iff (r : Regs) (n : Nat) : sanctioned r n = true ↔ Sanctioned r n := by
  simp only [sanctioned, Sanctioned, Bool.and_eq_true, Bool.or_eq_true, decide_eq_true_eq, or_assoc]

/-- R191: the candidate that the model checks is that of any bits which the capture holds. -/
theorem valid_candBytes_iff {s : State} {n o : Nat} {bits : List Bool} (h : decodeBits s (o + 2) n = .ok bits) :
    valid (bufWriteAll s 0 (candBytes bits)) (ceil8 n) = true ↔
      ∀ bits', BitsAre s n o bits' → Valid (withCandidate s bits' n) s.regs ((n + 7) / 8) := by
  have hbits := bitsAre_of_decodeBits h
  rw [valid_iff, bufRead_candBytes, decodeBits_length h]
  constructor
  · intro hvalid bits' hbits'
    have hsame : withCandidate s bits' n = withCandidate s (bits.getD · false) n := by
      unfold withCandidate
      rw [candidate_congr fun k => bitsAre_unique hbits hbits']
    rw [hsame]
    exact hvalid
  · exact fun hall => hall _ hbits

theorem decodeFrame_eq (s : State) (n o : Nat) (strict : Bool) : decodeFrame s n o strict =
    if 2048 < n then .error .arg
    else if !decProfileOK s.regs then .error .profile
    else if strict && !sanctioned s.regs n then .error .bitcount
    else if s.regs.caplen.val < o + 2 + 2 * n + 1 then .error .trunc
    else decodeEntries s n o >>= fun (bits, i) =>
      if strict && !valid (bufWriteAll s 0 (candBytes bits)) (ceil8 n) then .error .checksum
      else .ok (candBytes bits, i - o) := by
  unfold decodeFrame
  cases decodeEntries s n o <;> rfl

theorem decodeChecks_eq (s : State) (n o : Nat) (strict : Bool) : decodeChecks s n o strict =
    (n ≤ 2048, 0x02) :: (DecProfileOK s.regs, 0x03) :: (strict = true → Sanctioned s.regs n, 0x10) ::
      (o + 2 * n + 3 ≤ s.regs.caplen.val, 0x11) :: (entryChecks s n o ++
        [(strict = true → ∀ bits, BitsAre s n o bits → Valid (withCandidate s bits n) s.regs ((n + 7) / 8), 0x19)]) := by
  simp [decodeChecks, entryChecks]

theorem imp_iff_not_and_not {strict b : Bool} {p : Prop} (h : b = true ↔ p) :
    (strict = true → p) ↔ ¬(strict && !b) = true := by
  rw [← h]
  cases strict <;> cases b <;> decide

theorem decodeFrame_reports (s : State) (n o : Nat) (strict : Bool) :
    Reports (decodeChecks s n o strict) (decodeFrame s n o strict) := by
  rw [decodeChecks_eq, decodeFrame_eq]
  refine .guard (e := .arg) (by decide) Nat.not_lt.symm fun _ => ?_
  refine .guard (e := .profile) (by decide) (by simp [decProfileOK_iff]) fun _ => ?_
  refine .guard (e := .bitcount) (by decide) (imp_iff_not_and_not (sanctioned_iff ..)) fun _ => ?_
  refine .guard (e := .trunc) (by decide) (by omega) fun _ => ?_
  refine .bind (decodeEntries_reports s n o) fun ⟨bits, i⟩ hentries => ?_
  obtain ⟨hbits, _⟩ := decodeEntries_ok hentries
  exact .guard (e := .checksum) (by decide) (imp_iff_not_and_not (valid_candBytes_iff hbits)) fun _ => .answer _

/-- What a decode answers whose checks pass (R190). -/
theorem decodeFrame_answer {s : State} {n o used : Nat} {strict : Bool} {cand : List Byte}
    (h : decodeFrame s n o strict = .ok (cand, used)) :
    ∃ bits, decodeBits s (o + 2) n = .ok bits ∧ cand = candBytes bits ∧
      used = 2 * n + 3 + if o + 2 * n + 3 < s.regs.caplen.val then 1 else 0 := by
  unfold decodeFrame at h
  repeat (split at h; · cases h)
  rename_i bits i hentries _
  cases h
  obtain ⟨hbits, hgap⟩ := decodeEntries_ok hentries
  refine ⟨bits, hbits, rfl, ?_⟩
  have hindex : o + 2 + 2 * n + 1 = o + 2 * n + 3 := by omega
  rw [decodeGap_ok hgap, hindex]
  omega

/-! The two ends of DECODE. -/

section Decode

variable {n o : BitVec 12} {strict : Bool} {s : State}

theorem exec_decode_failed {e : Err} (h : decodeFrame s n.toNat o.toNat strict = .error e) :
    exec (.decode n o strict) s = .next (failedWith e.code s) := by
  rw [exec, execDecode, h, ← complete_of_ne_none (decodeFrame_failure h).left 0 s]

theorem exec_decode_answered {cand : List Byte} {used : Nat}
    (h : decodeFrame s n.toNat o.toNat strict = .ok (cand, used)) :
    exec (.decode n o strict) s = .next (complete .none (BitVec.ofNat 32 used) (bufWriteAll s 0 cand)) := by
  rw [exec, execDecode, h]

/-- DECODE's ERR is the code of the first check that fails, 0 where none does, and a failure is its completion alone. -/
theorem exec_decode_firstFailed (n o : BitVec 12) (strict : Bool) (s : State) :
    ∃ t, exec (.decode n o strict) s = .next t ∧ FirstFailed (decodeChecks s n.toNat o.toNat strict) t.err ∧
      t.phase = .idle ∧ t.done = true ∧ (t.err ≠ 0 → t = failedWith t.err s) := by
  have hreports := decodeFrame_reports s n.toNat o.toNat strict
  cases hframe : decodeFrame s n.toNat o.toNat strict with
  | error e =>
    rw [hframe] at hreports
    obtain ⟨_, hfirst⟩ := hreports
    exact ⟨_, exec_decode_failed hframe, hfirst, rfl, rfl, fun _ => rfl⟩
  | ok answer =>
    rw [hframe] at hreports
    exact ⟨_, exec_decode_answered hframe, firstFailed_zero_of_passed hreports, rfl, rfl, fun herr => absurd rfl herr⟩

theorem decodeFrame_of_passed {n o : Nat} (h : FirstFailed (decodeChecks s n o strict) 0) :
    ∃ cand used, decodeFrame s n o strict = .ok (cand, used) := by
  have hreports := decodeFrame_reports s n o strict
  cases hframe : decodeFrame s n o strict with
  | error e =>
    rw [hframe] at hreports
    obtain ⟨hne, hfirst⟩ := hreports
    exact absurd (firstFailed_unique hfirst h) (Err.code_ne_zero hne)
  | ok answer => exact ⟨_, _, rfl⟩

/-- Where all checks pass, DECODE ends with OK, the capture's bits in BUF, and the number of entries consumed (R190, R192). -/
theorem exec_decode_of_passed (h : FirstFailed (decodeChecks s n.toNat o.toNat strict) 0) :
    ∃ t bits, exec (.decode n o strict) s = .next t ∧ BitsAre s n.toNat o.toNat bits ∧
      SucceededWith (BitVec.ofNat 32
        (2 * n.toNat + 3 + if o.toNat + 2 * n.toNat + 3 < s.regs.caplen.val then 1 else 0)) t ∧
      ∀ j, bufRead t j = withCandidate s bits n.toNat j := by
  obtain ⟨cand, used, hframe⟩ := decodeFrame_of_passed h
  obtain ⟨bits, hbits, rfl, rfl⟩ := decodeFrame_answer hframe
  refine ⟨_, _, exec_decode_answered hframe, bitsAre_of_decodeBits hbits, ⟨rfl, rfl, rfl, rfl, rfl⟩, fun j => ?_⟩
  rw [bufRead_complete, bufRead_candBytes, decodeBits_length hbits]

end Decode

end Sys2Proof.Machine

open Sys2Proof Sys2Proof.Claims Sys2Proof.Machine

/-- Settles O32: the model's decode reports the rule's checks in their order, and answers the bits that the capture holds. -/
theorem decodeResult : Obligations.DecodeResult := by
  refine ⟨exec_decode_firstFailed, fun n o st s hpassed => ?passed, rzRefused 8⟩
  case passed =>
    obtain ⟨t, bits, ht, hbits, hsucceeded, hbytes⟩ := exec_decode_of_passed hpassed
    exact ⟨t, bits, ht, hbits, fun _ hbits' _ => bitsAre_unique hbits hbits', hsucceeded, hbytes⟩

/-- Settles O33: of the three forms of a command's step only the second ends with OK 1 or touches BUF, and it writes only what
DECODE stores. -/
theorem decodeCommitsOnSuccessOnly : Obligations.DecodeCommitsOnSuccessOnly := by
  intro n o st s t h
  refine ⟨fun hfail => ?unchanged, fun _ j hj => bufRead_of_exec h (Nat.not_lt.mpr hj)⟩
  case unchanged =>
    cases effect_of_exec h with
    | failed e he => rfl
    | succeeded r b hb => cases hfail
    | handedOff n' r hi hp => cases hi

/-- Settles O34: the sanctioned count is the first check that fails, by the order of R190. -/
theorem strictRejectsUnsanctioned : Obligations.StrictRejectsUnsanctioned := by
  intro n o s hn hprofile hcount
  obtain ⟨t, ht, hfirst, _, _, hfailed⟩ := exec_decode_firstFailed n o true s
  have hbitcount : FirstFailed (decodeChecks s n.toNat o.toNat true) 0x10 :=
    .inr ⟨hn, .inr ⟨hprofile, .inl ⟨fun h => hcount (h rfl), rfl⟩⟩⟩
  have herr := firstFailed_unique hfirst hbitcount
  rw [herr] at hfailed
  rw [ht, hfailed (by decide)]

end

section
/-! PROOF. The statement of 44_decoder.md on the round trip (R193): a frame that CAP holds as it was sent passes every check of
DECODE, whatever the tolerance, and its bits are those it was sent from. -/

namespace Sys2Proof.Machine

open Sys2Proof.Claims

/-! A duration matches itself for every tolerance (R181, R182, R185). -/

theorem atLeast_self (tol d : Nat) : AtLeast tol d d := by
  have : (0 : Int) ≤ d * tol := by positivity
  unfold AtLeast
  linarith

theorem atLeast_zero (tol d : Nat) : AtLeast tol d 0 := by
  unfold AtLeast
  omega

theorem match_self (tol d : Nat) : Match tol d d := by
  have : (0 : Int) ≤ d * tol := by positivity
  exact ⟨atLeast_self tol d, by linarith⟩

/-- The space of a bit stands for that bit: the other reference is at a positive distance. -/
theorem spaceIs_bitSpace {r : Regs} (h : DecProfileOK r) (b : Bool) : SpaceIs r (bitSpace r b).toNat b := by
  obtain ⟨_, _, hne⟩ := h
  have hnearer : ∀ {x y : Nat}, x ≠ y → durDist x x < durDist x y := by
    intro x y hxy
    unfold durDist
    omega
  cases b
  · exact ⟨match_self .., .inr (hnearer hne.symm)⟩
  · exact ⟨match_self .., .inr (hnearer hne)⟩

/-! The entry of a captured pulse (R47, R180). -/

section Entry

variable {s : State} {i : Nat} {d : Dur}

theorem isMark_of_entry (h : capRead s i = Pulse.entry ⟨.mark, d⟩) : IsMark s i := by
  rw [IsMark, h, toNat_entry]
  simp

theorem not_isMark_of_entry (h : capRead s i = Pulse.entry ⟨.space, d⟩) : ¬IsMark s i := by
  rw [IsMark, h, toNat_entry]
  simpa using d.isLt

theorem durAt_of_entry {l : Level} (h : capRead s i = Pulse.entry ⟨l, d⟩) : durAt s i = d.toNat := by
  have := d.isLt
  rw [durAt, h, toNat_entry]
  split <;> simp <;> omega

theorem match_of_entry {l : Level} (h : capRead s i = Pulse.entry ⟨l, d⟩) :
    Match s.regs.tol.toNat (durAt s i) d.toNat := by
  rw [durAt_of_entry h]
  exact match_self ..

end Entry

/-! A frame in CAP. -/

/-- CAP holds the header, the data bits and the footer mark of a frame of `n` bits from index `o` on, as the profile of the
state sends them. -/
structure HoldsFrame (s : State) (bit : Nat → Bool) (n o : Nat) : Prop where
  hdrmark : capRead s o = Pulse.entry ⟨.mark, s.regs.hdrmark⟩
  hdrspace : capRead s (o + 1) = Pulse.entry ⟨.space, s.regs.hdrspace⟩
  bitmark : ∀ k, k < n → capRead s (o + 2 + 2 * k) = Pulse.entry ⟨.mark, bitMark s.regs (bit k)⟩
  bitspace : ∀ k, k < n → capRead s (o + 2 + 2 * k + 1) = Pulse.entry ⟨.space, bitSpace s.regs (bit k)⟩
  ftrmark : capRead s (o + 2 + 2 * n) = Pulse.entry ⟨.mark, s.regs.ftrmark⟩

section HoldsFrame

variable {s : State} {bit : Nat → Bool} {n o : Nat}

theorem HoldsFrame.bitsAre (h : HoldsFrame s bit n o) (hprofile : DecProfileOK s.regs) : BitsAre s n o bit := by
  intro k hk
  rw [durAt_of_entry (h.bitspace k hk)]
  exact spaceIs_bitSpace hprofile (bit k)

theorem HoldsFrame.bitChecks_passed (h : HoldsFrame s bit n o) (hprofile : DecProfileOK s.regs) {k : Nat} (hk : k < n) :
    ∀ check ∈ bitChecks s o k, check.1 := by
  have hmark := h.bitmark k hk
  have hspace := h.bitspace k hk
  have hbit := h.bitsAre hprofile k hk
  have hmatch := match_of_entry hmark
  simp only [bitChecks, List.forall_mem_cons, ← toNat_bitMark]
  refine ⟨isMark_of_entry hmark, ?either, not_isMark_of_entry hspace, ⟨bit k, hbit⟩,
    fun b hb => spaceIs_unique hbit hb ▸ hmatch, List.forall_mem_nil _⟩
  case either =>
    cases hb : bit k <;> rw [hb] at hmatch
    · exact .inr hmatch
    · exact .inl hmatch

/-- Of the checks of DECODE, a frame held as it was sent passes those on its entries up to the footer mark. -/
theorem HoldsFrame.decodeChecks_passed (h : HoldsFrame s bit n o) {strict : Bool} (hn : n ≤ 2048)
    (hprofile : DecProfileOK s.regs) (hcount : strict = true → Sanctioned s.regs n)
    (hlen : o + 2 * n + 3 ≤ s.regs.caplen.val) (hgap : ∀ check ∈ gapChecks s (o + 2 + 2 * n + 1), check.1)
    (hvalid : strict = true → ∀ bits, BitsAre s n o bits → Valid (withCandidate s bits n) s.regs ((n + 7) / 8)) :
    FirstFailed (decodeChecks s n o strict) 0 := by
  have hdata : ∀ check ∈ (List.range n).flatMap (bitChecks s o), check.1 :=
    List.forall_mem_flatMap.mpr fun k hk => h.bitChecks_passed hprofile (List.mem_range.mp hk)
  have hnil : ∀ check ∈ ([] : List (Prop × BitVec 8)), check.1 := List.forall_mem_nil _
  refine firstFailed_zero_of_passed ?_
  simp only [decodeChecks_eq, entryChecks, List.forall_mem_append, List.forall_mem_cons]
  exact ⟨hn, hprofile, hcount, hlen,
    ⟨⟨isMark_of_entry h.hdrmark, match_of_entry h.hdrmark, hnil⟩,
      ⟨not_isMark_of_entry h.hdrspace, match_of_entry h.hdrspace, hnil⟩, hdata,
      ⟨isMark_of_entry h.ftrmark, match_of_entry h.ftrmark, hnil⟩, hgap, hnil⟩,
    hvalid, hnil⟩

end HoldsFrame

/-- R188: a gap that is recorded and long enough, or the capture's end under GAPEND. -/
theorem gapChecks_of_recorded_or_end {s : State} {g : Nat}
    (h : (g < s.regs.caplen.val ∧ ¬IsMark s g ∧ AtLeast s.regs.tol.toNat (durAt s g) (gapOf s.regs)) ∨
      (g = s.regs.caplen.val ∧ s.regs.gapend = true)) : ∀ check ∈ gapChecks s g, check.1 := by
  simp only [gapChecks, List.forall_mem_cons]
  rcases h with ⟨hlt, hspace, hlong⟩ | ⟨hg, hend⟩
  · exact ⟨fun _ => hspace, fun _ => hlong, .inl hlt, List.forall_mem_nil _⟩
  · exact ⟨fun hlt => absurd hlt (by omega), fun hlt => absurd hlt (by omega), .inr hend, List.forall_mem_nil _⟩

/-! The transmitter's profile and the receiver's. -/

section SameProfile

variable {r r' : Regs} (h : SameProfile r r')

include h

theorem decProfileOK_of_sameProfile (hprofile : DecProfileOK r) : DecProfileOK r' := by
  obtain ⟨hhdrmark, hhdrspace, honemark, honespace, hzeromark, hzerospace, hftrmark, _, _, hfirst⟩ := h
  unfold DecProfileOK DurationsPositive
  rw [hhdrmark, hhdrspace, honemark, honespace, hzeromark, hzerospace, hftrmark, hfirst]
  exact hprofile

theorem bitMark_of_sameProfile (b : Bool) : bitMark r' b = bitMark r b := by
  obtain ⟨_, _, hone, _, hzero, _⟩ := h
  rw [bitMark, bitMark, hone, hzero]

theorem bitSpace_of_sameProfile (b : Bool) : bitSpace r' b = bitSpace r b := by
  obtain ⟨_, _, _, hone, _, hzero, _⟩ := h
  rw [bitSpace, bitSpace, hone, hzero]

theorem gapOf_of_sameProfile : gapOf r' = gapOf r := by
  obtain ⟨_, _, _, _, _, _, _, hgap, hdefgap, _⟩ := h
  rw [gapOf, gapOf, hgap, hdefgap]

end SameProfile

/-! What was sent and what was captured. -/

theorem transmission_getElem?_copy (s : State) {n rep q p : Nat} (hq : q ≤ rep) (hp : p < frameLen s.regs n) :
    (transmission s n rep)[q * frameLen s.regs n + p]? = (frame s n)[p]? := by
  rw [← frame_length_eq_frameLen] at hp ⊢
  exact transmission_getElem? s hq hp

/-- CAP of `s'` holds the pulses of the frame of `s` from index `o` on, as far as its valid entries go. -/
def Captured (s s' : State) (n o : Nat) : Prop :=
  ∀ p, p < frameLen s.regs n → o + p < s'.regs.caplen.val →
    some (capRead s' (o + p)) = ((frame s n)[p]?).map Pulse.entry

section Captured

variable {s s' : State} {n o : Nat}

theorem Captured.capRead_eq (h : Captured s s' n o) {p i : Nat} {x : Pulse} (hi : i = o + p) (hx : (frame s n)[p]? = some x)
    (hlen : i < s'.regs.caplen.val) : capRead s' i = x.entry := by
  subst hi
  have hp : p < (frame s n).length := (List.getElem?_eq_some_iff.mp hx).1
  have hentry := h p (frame_length_eq_frameLen s n ▸ hp) hlen
  rw [hx] at hentry
  exact Option.some.inj hentry

theorem Captured.holdsFrame (h : Captured s s' n o) (hprofile : SameProfile s.regs s'.regs)
    (hlen : o + 2 * n + 3 ≤ s'.regs.caplen.val) : HoldsFrame s' (lineBit (bufRead s)) n o := by
  have ⟨hhdrmark, hhdrspace, _, _, _, _, hftrmark, _⟩ := hprofile
  refine ⟨?_, ?_, fun k hk => ?_, fun k hk => ?_, ?_⟩
  · rw [hhdrmark]
    exact h.capRead_eq (p := 0) rfl rfl (by omega)
  · rw [hhdrspace]
    exact h.capRead_eq rfl rfl (by omega)
  · rw [bitMark_of_sameProfile hprofile]
    exact h.capRead_eq (Nat.add_assoc ..) (frame_getElem?_mark s hk) (by omega)
  · rw [bitSpace_of_sameProfile hprofile]
    exact h.capRead_eq (by omega) (frame_getElem?_space s hk) (by omega)
  · rw [hftrmark]
    exact h.capRead_eq (Nat.add_assoc ..) (frame_getElem?_footer s n 0) (by omega)

/-- The gap space of the copy, where it was sent. -/
theorem Captured.capRead_gap (h : Captured s s' n o) (hgap : 0 < gapOf s.regs)
    (hlen : o + frameLen s.regs n ≤ s'.regs.caplen.val) :
    o + 2 + 2 * n + 1 < s'.regs.caplen.val ∧ capRead s' (o + 2 + 2 * n + 1) = Pulse.entry ⟨.space, gapEff s.regs⟩ := by
  have hone : gapCount s.regs = 1 := if_neg (by omega)
  rw [frameLen, hone] at hlen
  refine ⟨by omega, h.capRead_eq (p := 2 + 2 * n + 1) (by omega) ?_ (by omega)⟩
  rw [frame_getElem?_footer, gapPulses_eq_replicate, hone]
  rfl

/-- The three ways in which the capture may end (R188, R193). -/
theorem Captured.gapChecks_passed (h : Captured s s' n o) (hprofile : SameProfile s.regs s'.regs)
    (hend : (o + frameLen s.regs n ≤ s'.regs.caplen.val ∧ 0 < gapOf s.regs) ∨
      (o + 2 * n + 3 = s'.regs.caplen.val ∧ s'.regs.gapend = true) ∨
      (o + 2 * n + 3 < s'.regs.caplen.val ∧ gapOf s.regs = 0 ∧ ¬IsMark s' (o + 2 * n + 3))) :
    ∀ check ∈ gapChecks s' (o + 2 + 2 * n + 1), check.1 := by
  have hindex : o + 2 + 2 * n + 1 = o + 2 * n + 3 := by omega
  refine gapChecks_of_recorded_or_end ?_
  rw [gapOf_of_sameProfile hprofile]
  rcases hend with ⟨hlen, hgap⟩ | ⟨hlen, hgapend⟩ | ⟨hlen, hzero, hspace⟩
  · obtain ⟨hlt, hentry⟩ := h.capRead_gap hgap hlen
    refine .inl ⟨hlt, not_isMark_of_entry hentry, ?_⟩
    rw [durAt_of_entry hentry, toNat_gapEff]
    exact atLeast_self ..
  · exact .inr ⟨hindex.trans hlen, hgapend⟩
  · rw [hindex, hzero]
    exact .inl ⟨hlen, hspace, atLeast_zero ..⟩

end Captured

/-! The strict check (R138, R191) reads the candidate's bytes only. -/

theorem xorBelow_congr {rd rd' : Nat → Byte} {m : Nat} (h : ∀ j, j < m → rd' j = rd j) : xorBelow rd' m = xorBelow rd m := by
  induction m with
  | zero => rfl
  | succ m ih => rw [xorBelow, xorBelow, h m (by omega), ih fun j hj => h j (by omega)]

theorem valid_congr {rd rd' : Nat → Byte} {r : Regs} {len : Nat} (h : ∀ j, j < len → rd' j = rd j) (hvalid : Valid rd r len) :
    Valid rd' r len := by
  obtain ⟨hpos, hmin, hsum, ⟨hpair, hpairs⟩, hlength⟩ := hvalid
  refine ⟨hpos, hmin, ?_, ⟨hpair, (pairsOK_congr fun j hj => h j (by omega)).mpr hpairs⟩, hlength.imp_right ?_⟩
  · rw [checksum, xorBelow_congr fun j hj => h j (by omega), h _ (by omega)]
    exact hsum
  · rintro ⟨hidx, hdeclared⟩
    rw [h _ (by omega)]
    exact ⟨hidx, hdeclared⟩

theorem valid_withCandidate {s : State} {bits bits' : Nat → Bool} {r : Regs} {n : Nat} (hbits : ∀ k, k < n → bits' k = bits k)
    (hvalid : Valid (candidate bits n) r ((n + 7) / 8)) : Valid (withCandidate s bits' n) r ((n + 7) / 8) := by
  refine valid_congr (fun j hj => ?_) hvalid
  rw [withCandidate, if_pos hj, candidate_congr hbits]

/-- R13, R189: the candidate of a frame's bits has the bits of the bytes that were sent. -/
theorem getLsbD_candidate_lineBit (rd : Nat → Byte) (n j : Nat) {b : Nat} (hb : b < 8) :
    (candidate (lineBit rd) n j).getLsbD b = (decide (8 * j + (7 - b) < n) && (rd j).getLsbD b) := by
  have hbyte : (8 * j + (7 - b)) / 8 = j := by omega
  have hbit : 7 - (8 * j + (7 - b)) % 8 = b := by omega
  rw [getLsbD_candidate _ _ j hb, lineBit, hbyte, hbit, BitVec.getLsbD]

end Sys2Proof.Machine

open Sys2Proof Sys2Proof.Claims Sys2Proof.Machine

/-- Settles O35: a captured frame passes every check of DECODE, which answers the bits that were sent. -/
theorem roundTrip : Obligations.RoundTrip := by
  intro n off r st s t s' ps q ht hwait hslot hprofile hdec hq hoff hcap hend hstrict
  obtain ⟨hn, rfl⟩ := exec_encode_of_txwait ht hwait
  cases hslot
  have hcaptured : Captured s s' n.toNat off.toNat := by
    intro p hp hlen
    rw [hcap p hp hlen, hoff, transmission_getElem?_copy s hq hp]
  have hlen : off.toNat + 2 * n.toNat + 3 ≤ s'.regs.caplen.val := by
    unfold frameLen at hend
    omega
  have hframe := hcaptured.holdsFrame hprofile hlen
  have hdec' := decProfileOK_of_sameProfile hprofile hdec
  have hsent := hframe.bitsAre hdec'
  have hpassed := hframe.decodeChecks_passed hn hdec' (fun h => (hstrict h).1) hlen (hcaptured.gapChecks_passed hprofile hend)
    fun h bits hbits => valid_withCandidate (fun k => bitsAre_unique hsent hbits) (hstrict h).2
  obtain ⟨u, bits, hu, hbits, ⟨herr, hok, _⟩, hbytes⟩ := exec_decode_of_passed hpassed
  refine ⟨u, hu, hok, herr, fun j hj b hb => ?_⟩
  rw [hbytes, withCandidate, if_pos hj, candidate_congr fun k => bitsAre_unique hsent hbits,
    getLsbD_candidate_lineBit _ _ j hb]

end

section
/-! PROOF. The statement of 60_exceptions.md on OVR (R212): of all agents only HOST changes it, by a write dropped while busy (R101),
by a 1 in bit 3 of STATUS, or by a soft reset while idle (R242). -/

namespace Sys2Proof.Machine

/-- A write of `v` at `off` clears a set OVR. -/
def ClearsOvr (s : State) (off : Offset) (v : Word) : Prop :=
  s.ovr = true ∧ ((off = 0x0004 ∧ v.getLsbD 3 = true) ∨ (off = 0x0000 ∧ v.getLsbD 0 = true ∧ s.phase = .idle))

/-- A write at `off` sets a clear OVR. -/
def SetsOvr (s : State) (off : Offset) : Prop :=
  s.ovr = false ∧ off ≠ 0x0004 ∧ s.phase ≠ .idle

theorem writeStatus_of_ovr_ne {s : State} {v : Word} (h : (writeStatus s v).ovr ≠ s.ovr) :
    s.ovr = true ∧ v.getLsbD 3 = true := by
  have hovr : (s.ovr && !v.getLsbD 3) ≠ s.ovr := h
  simpa using hovr

/-- While idle a write to another offset than STATUS changes OVR only as a soft reset. -/
theorem writeTarget_of_ovr_ne {s : State} {v : Word} {off : Offset} (h4 : off ≠ 0x0004)
    (h : (writeTarget s v (target off)).ovr ≠ s.ovr) : s.ovr = true ∧ off = 0x0000 ∧ v.getLsbD 0 = true := by
  rcases writeTarget_cases s v off h4 with ⟨_, hx⟩ | ⟨h0, hv, hx⟩ | ⟨_, _, hx⟩ | ⟨_, _, hx⟩ | ⟨_, hx⟩
  case inr.inl =>
    rw [hx, softReset_ovr] at h
    exact ⟨Bool.eq_true_of_not_eq_false h.symm, h0, hv⟩
  all_goals exact absurd (congrArg State.ovr hx) h

theorem busWrite_of_ovr_ne {s : State} {off : Offset} {v : Word} (h : (busWrite s off v).ovr ≠ s.ovr) :
    ClearsOvr s off v ∨ SetsOvr s off := by
  rcases busWrite_cases s off v with ⟨h4, hw⟩ | ⟨h4, hbusy, hw⟩ | ⟨h4, hi, hw⟩ <;> rw [hw] at h
  · obtain ⟨hovr, hv⟩ := writeStatus_of_ovr_ne h
    exact .inl ⟨hovr, .inl ⟨h4, hv⟩⟩
  · exact .inr ⟨Bool.eq_false_of_not_eq_true h.symm, h4, hbusy⟩
  · obtain ⟨hovr, h0, hv⟩ := writeTarget_of_ovr_ne h4 h
    exact .inl ⟨hovr, .inr ⟨h0, hv, hi⟩⟩

theorem hostStep_of_ovr_ne {s t : State} (h : hostStep s = .next t) (hne : t.ovr ≠ s.ovr) :
    ∃ off v rest, s.env.program = .write off v :: rest ∧ (ClearsOvr s off v ∨ SetsOvr s off) := by
  rcases hostStep_cases h with ⟨_, rfl⟩ | ⟨off, v, rest, hprog, _, rfl⟩
  · exact absurd rfl hne
  · have hwrite := busWrite_of_ovr_ne (s := setProgram s rest) hne
    exact ⟨off, v, rest, hprog, hwrite⟩

theorem agentStep_ovr {a : Agent} {s t : State} (h : agentStep a s = .next t) (ha : a ≠ .host) : t.ovr = s.ovr := by
  cases a with
  | host => exact absurd rfl ha
  | engine =>
    obtain ⟨_, hovr, _⟩ := engineStep_sameOutsideCommand h
    exact hovr
  | txp => rcases txpStep_cases h with ⟨_, rfl⟩ | ⟨_, rfl⟩ <;> rfl
  | capp => rcases cappStep_cases h with ⟨rfl, _⟩ | ⟨_, _, _, _, rfl⟩ <;> rfl

end Sys2Proof.Machine

open Sys2Proof.Machine

/-- Settles O53: a step that changes OVR is HOST's, and its write is one of those that clear or set OVR. -/
theorem ovrSticky : Obligations.OvrSticky := by
  intro s t hs hne
  obtain ⟨_, _, hspend⟩ := spendTurn_eq s
  have hne' : t.ovr ≠ (spendTurn s).ovr := by rwa [hspend]
  rw [step] at hs
  have hturn : turn s = .host := by
    by_contra hother
    exact hne' (agentStep_ovr hs hother)
  rw [hturn] at hs
  have hwrite := hostStep_of_ovr_ne hs hne'
  rw [hspend] at hwrite
  exact ⟨hturn, hwrite⟩

end

section
/-! PROOF. The statements of 70_reset_and_hazards.md on the invariant (R241): power-on meets it, and the step of each agent keeps
it. -/

namespace Sys2Proof.Machine

section Invariant

variable {s : State}

theorem State.Inv.txslot_eq_none (h : s.Inv) (hp : s.phase ≠ .txwait) : s.txslot = none :=
  Option.not_isSome_iff_eq_none.mp (mt h.slot.mp hp)

/-! The shared events of the block. -/

/-- R103: a completion sets DONE, OK, ERR and RESULT together, so it needs of the invariant only what it leaves as it is. -/
theorem inv_complete (hbuf : Ram.wf 256 s.buf = true) (hcap : Ram.wf 4096 s.cap = true) (hslot : s.txslot = none)
    {e : Err} {r : Word} : (complete e r s).Inv where
  slot := by simp [hslot]
  bufWf := hbuf
  capWf := hcap
  doneIdle _ := rfl
  okErr hok := by
    obtain rfl : e = .none := of_decide_eq_true hok
    rfl
  errKnown := ⟨e, rfl⟩
  errResult herr := if_neg (by rintro rfl; exact herr rfl)
  inFlight t ht := by cases hslot.symm.trans ht

/-- R166: the transaction handed over is the last one logged. DONE is clear, the command having been pending. -/
theorem State.Inv.handoff (h : s.Inv) (hdone : s.done = false) (x : Txn) : (handoff x s).Inv :=
  { h with
    slot := ⟨fun _ => rfl, fun _ => rfl⟩
    doneIdle := fun hd => by cases hdone.symm.trans hd
    inFlight := fun t ht => by
      cases ht
      exact ⟨List.getLast?_concat, rfl⟩ }

theorem State.Inv.accept (h : s.Inv) (hi : s.phase = .idle) (w : Word) : (accept w s).Inv :=
  { h with
    slot := by simp [h.txslot_eq_none (by simp [hi])]
    doneIdle := fun hd => by cases hd }

theorem State.Inv.softReset (h : s.Inv) (hi : s.phase = .idle) : (softReset s).Inv :=
  { h with
    doneIdle := fun hd => by cases hd
    okErr := fun hok => by cases hok
    errKnown := ⟨.none, rfl⟩
    errResult := fun _ => rfl
    inFlight := fun t ht => by cases (h.txslot_eq_none (by simp [hi])).symm.trans ht }

theorem State.Inv.deliver (h : s.Inv) (es : List Pulse) : (deliver es s).Inv :=
  { h with
    capWf := Ram.wf_storeAll _ h.capWf (by simp) }

/-! A write of the host. -/

theorem State.Inv.writeStatus (h : s.Inv) (v : Word) : (writeStatus s v).Inv :=
  { h with
    doneIdle := fun hd => h.doneIdle (Bool.and_elim_left hd) }

theorem State.Inv.writeTarget (h : s.Inv) (hi : s.phase = .idle) {off : Offset} (h4 : off ≠ 0x0004) (v : Word) :
    (writeTarget s v (target off)).Inv := by
  rcases writeTarget_cases s v off h4 with ⟨_, hw⟩ | ⟨_, _, hw⟩ | ⟨k, hk, hw⟩ | ⟨k, hk, hw⟩ | ⟨r, hw⟩ <;> rw [hw]
  · exact h.accept hi v
  · exact h.softReset hi
  · have hlen : 4 * k + (wordBytes v).length ≤ 256 := by
      rw [wordBytes]
      simp only [List.length_cons, List.length_nil]
      omega
    exact { h with bufWf := Ram.wf_storeAll _ h.bufWf hlen }
  · exact { h with capWf := Ram.wf_store h.capWf v hk }
  · exact { h with }

theorem State.Inv.busWrite (h : s.Inv) (off : Offset) (v : Word) : (busWrite s off v).Inv := by
  rcases busWrite_cases s off v with ⟨_, hw⟩ | ⟨_, _, hw⟩ | ⟨h4, hi, hw⟩ <;> rw [hw]
  · exact h.writeStatus v
  · exact { h with }
  · exact h.writeTarget hi h4 v

/-! The step of each agent. -/

/-- What stands outside the block is no part of the invariant. -/
theorem State.Inv.env (h : s.Inv) (e : Env) : State.Inv { s with env := e } :=
  { h with }

/-- A command runs from PENDING, where no transaction is in flight and DONE is clear. -/
theorem State.Inv.exec {i : Instr} {t : State} (h : s.Inv) (hp : s.phase = .pending) (hx : exec i s = .next t) : t.Inv := by
  have hslot : s.txslot = none := h.txslot_eq_none (by simp [hp])
  cases effect_of_exec hx with
  | failed e he => exact inv_complete h.bufWf h.capWf hslot
  | succeeded r b hb => exact inv_complete (s := { s with buf := b }) (hb h.bufWf) h.capWf hslot
  | handedOff n r hi hprof =>
    have hdone : s.done = false := Bool.eq_false_of_not_eq_true fun hd => by cases hp.symm.trans (h.doneIdle hd)
    exact h.handoff hdone _

theorem State.Inv.agentStep {a : Agent} {t : State} (h : s.Inv) (hs : agentStep a s = .next t) : t.Inv := by
  cases a with
  | host =>
    rcases hostStep_cases hs with ⟨e, rfl⟩ | ⟨off, v, rest, _, _, rfl⟩
    · exact h.env e
    · exact (h.env _).busWrite off v
  | engine =>
    rcases engineStep_cases hs with ⟨_, rfl⟩ | ⟨hp, i, _, hx⟩ | ⟨hp, _, _, rfl⟩
    · exact h
    · exact h.exec hp hx
    · exact inv_complete h.bufWf h.capWf (h.txslot_eq_none (by simp [hp]))
  | txp =>
    rcases txpStep_cases hs with ⟨_, rfl⟩ | ⟨_, rfl⟩
    · exact h
    · exact inv_complete (s := { s with txslot := none }) h.bufWf h.capWf rfl
  | capp =>
    rcases cappStep_cases hs with ⟨rfl, _⟩ | ⟨_, es, rest, _, rfl⟩
    · exact h
    · exact (h.env _).deliver es

end Invariant

end Sys2Proof.Machine

open Sys2Proof.Machine

/-- Settles O55: the step is that of an agent, and taking the turn touches only what stands outside the block. -/
theorem stepKeepsInvariant : Obligations.StepKeepsInvariant := by
  intro s t h hs
  obtain ⟨sched, tick, hspend⟩ := spendTurn_eq s
  rw [step, hspend] at hs
  exact (h.env _).agentStep hs

/-- Settles O54: nothing is in flight, no place of a RAM is written, and every STATUS bit is clear. -/
theorem powerOnMeetsInvariant : Obligations.PowerOnMeetsInvariant where
  slot := by decide
  bufWf := rfl
  capWf := rfl
  doneIdle _ := rfl
  okErr _ := rfl
  errKnown := ⟨.none, rfl⟩
  errResult _ := rfl
  inFlight t ht := by cases ht

end

section
/-! PROOF. The statements of 70_reset_and_hazards.md on what a given schedule brings about (R249, R255): a run takes the turns that
its schedule names, the host's alignment being the one thing a step needs, and what the steps of the agents named keep holds at
its end. -/

namespace Sys2Proof.Machine

open Sys2Proof.Claims

/-! Alignment of the host's program (R61) goes on from step to step, and is enough for the next one. -/

theorem not_nextAccessMisaligned {s : State} (hal : ProgramAligned s.env.program) (off : Offset) :
    ¬NextAccessMisaligned s off := by
  rintro ⟨hoff, rest, hp | ⟨v, hp⟩⟩ <;> rw [hp] at hal
  · exact hoff (hal _ List.mem_cons_self off (.inl rfl))
  · exact hoff (hal _ List.mem_cons_self off (.inr ⟨v, rfl⟩))

theorem step_of_programAligned {s : State} (hal : ProgramAligned s.env.program) : ∃ t, step s = .next t := by
  obtain ⟨honly, htotal⟩ := onlyMisalignedAccessStops
  refine (htotal s).resolve_right fun ⟨off, hstop⟩ => ?_
  obtain ⟨_, hmis⟩ := (honly s off).mp hstop
  exact not_nextAccessMisaligned hal off hmis

/-- A step performs at most the next operation of the host's program. -/
theorem hostStep_program {s t : State} (h : hostStep s = .next t) : t.env.program <:+ s.env.program := by
  rw [hostStep] at h
  split at h
  case h_1 =>
    cases h
    exact List.suffix_rfl
  case h_2 hp | h_3 hp =>
    split at h <;> cases h
    simp [busWrite_env, hp]
  case h_4 hp | h_5 hp =>
    cases h
    split <;> simp [hp]

theorem agentStep_program {a : Agent} {s t : State} (h : agentStep a s = .next t) : t.env.program <:+ s.env.program := by
  cases a with
  | host => exact hostStep_program h
  | engine =>
    obtain ⟨_, _, _, _, _, henv⟩ := engineStep_sameOutsideCommand h
    rw [henv]
  | txp => rcases txpStep_cases h with ⟨_, rfl⟩ | ⟨_, rfl⟩ <;> exact List.suffix_rfl
  | capp => rcases cappStep_cases h with ⟨rfl, _⟩ | ⟨_, _, _, _, rfl⟩ <;> exact List.suffix_rfl

theorem ProgramAligned.of_suffix {p q : List HostOp} (h : ProgramAligned p) (hq : q <:+ p) : ProgramAligned q :=
  fun op hop => h op (hq.mem hop)

theorem ProgramAligned.step {s t : State} (hal : ProgramAligned s.env.program) (hs : step s = .next t) :
    ProgramAligned t.env.program := by
  have hsuffix := agentStep_program hs
  rw [spendTurn_program] at hsuffix
  exact hal.of_suffix hsuffix

/-! A run under a schedule. -/

theorem schedule_of_step {s t : State} {a : Agent} {later : List Agent} (hsched : s.env.schedule = a :: later)
    (hs : step s = .next t) : t.env.schedule = later := by
  rw [step_of_schedule hsched] at hs
  obtain ⟨hlater, _⟩ := agentStep_schedule hs
  exact hlater

theorem turn_of_schedule {s : State} {a : Agent} {later : List Agent} (hsched : s.env.schedule = a :: later) :
    turn s = a := by
  rw [turn, hsched]

/-- The induction along a schedule: the turns of `before` are taken, and what a step of every agent in `before` keeps holds then. -/
theorem run_of_schedule {P : State → Prop} {before after : List Agent} {s : State}
    (hsched : s.env.schedule = before ++ after) (hal : ProgramAligned s.env.program) (hP : P s)
    (hkeep : ∀ u t, P u → turn u ∈ before → step u = .next t → P t) :
    ∃ t : State, Host.Core.run core before.length s = .next t ∧ t.env.schedule = after ∧ ProgramAligned t.env.program ∧ P t := by
  induction before generalizing s with
  | nil => exact ⟨s, rfl, hsched, hal, hP⟩
  | cons a before ih =>
    obtain ⟨t, ht⟩ := step_of_programAligned hal
    have hturn : turn s = a := turn_of_schedule hsched
    have hPt : P t := hkeep s t hP (hturn ▸ List.mem_cons_self) ht
    obtain ⟨u, hu, hafter⟩ := ih (schedule_of_step hsched ht) (hal.step ht) hPt
      fun u t hu hmem => hkeep u t hu (List.mem_cons_of_mem a hmem)
    exact ⟨u, (run_succ_of_step ht _).trans hu, hafter⟩

theorem step_of_run_succ {n : Nat} {s t : State} (h : Host.Core.run core (n + 1) s = .next t) :
    ∃ u, step s = .next u ∧ Host.Core.run core n u = .next t := by
  obtain ⟨_, htotal⟩ := onlyMisalignedAccessStops
  obtain ⟨u, hu⟩ | ⟨off, hstop⟩ := htotal s
  · exact ⟨u, hu, (run_succ_of_step hu n).symm.trans h⟩
  · have hcore : core.step s = .refused (.misalignedAccess off) := hstop
    simp only [Host.Core.run, hcore] at h
    cases h

theorem run_succ_of_run {n : Nat} {s t u : State} (h : Host.Core.run core n s = .next t) (ht : step t = .next u) :
    Host.Core.run core (n + 1) s = .next u := by
  induction n generalizing s with
  | zero =>
    cases h
    exact run_succ_of_step ht 0
  | succ n ih =>
    obtain ⟨v, hv, hrun⟩ := step_of_run_succ h
    exact (run_succ_of_step hv _).trans (ih hrun)

/-- The engine's step in PENDING brings the command to its end, or an ENCODE to its transmission (R102). -/
theorem engineStep_of_pending {s t : State} (hp : s.phase = .pending) (h : engineStep s = .next t) :
    (t.phase = .idle ∧ t.done = true) ∨ t.phase = .txwait := by
  rcases engineStep_cases h with ⟨hne, _⟩ | ⟨_, i, _, hx⟩ | ⟨_, _, _, rfl⟩
  · exact absurd hp hne
  · cases effect_of_exec hx with
    | failed e he => exact .inl ⟨rfl, rfl⟩
    | succeeded r b hb => exact .inl ⟨rfl, rfl⟩
    | handedOff n r hi hprof => exact .inr rfl
  · exact .inl ⟨rfl, rfl⟩

/-! What lasts until the agent that ends it has its turn. -/

/-- The command pending in `t` is that of `s`, on the registers, BUF and CAP of `s`. -/
def SamePending (s t : State) : Prop :=
  t.phase = .pending ∧ t.pend = s.pend ∧ t.regs = s.regs ∧ t.buf = s.buf ∧ t.cap = s.cap

theorem SamePending.step {s u t : State} (h : SamePending s u) (hturn : turn u ≠ .engine) (hs : step u = .next t) :
    SamePending s t := by
  obtain ⟨hp, hpend, hregs, hbuf, hcap⟩ := h
  obtain ⟨hregs', hcap', hpend', hrest⟩ := commandSeesStateAtAcceptance u t hs (by simp [hp])
  obtain ⟨hbuf', _⟩ := hrest hturn
  have hp' : t.phase = .pending := by
    obtain ⟨_, _, hmoves⟩ := phaseTransitions
    by_contra hne
    rcases hmoves u t hs (hp ▸ hne) with ⟨hi, _⟩ | ⟨_, hengine, _⟩ | ⟨hw, _⟩
    · cases hp.symm.trans hi
    · exact hturn hengine
    · cases hp.symm.trans hw
  exact ⟨hp', hpend'.trans hpend, hregs'.trans hregs, hbuf'.trans hbuf, hcap'.trans hcap⟩

/-- The transmission of `s` goes on in `t`. -/
def SameTransmission (s t : State) : Prop :=
  t.phase = .txwait ∧ t.txslot = s.txslot ∧ t.txresult = s.txresult ∧ t.txlog = s.txlog

theorem SameTransmission.step {s u t : State} (h : SameTransmission s u) (hturn : turn u ≠ .txp) (hs : step u = .next t) :
    SameTransmission s t := by
  obtain ⟨hw, hslot, hresult, hlog⟩ := h
  obtain ⟨hw', hslot', hresult', hlog', _⟩ := nothingElseEndsTransmission u t hs hw hturn
  exact ⟨hw', hslot'.trans hslot, hresult'.trans hresult, hlog'.trans hlog⟩

/-- R168, R249: turns of other agents than TXP leave a transmission as it is, however many they are. -/
theorem run_of_txwait {before after : List Agent} {s : State} (hsched : s.env.schedule = before ++ after)
    (htxp : Agent.txp ∉ before) (hw : s.phase = .txwait) (hal : ProgramAligned s.env.program) :
    ∃ t : State, Host.Core.run core before.length s = .next t ∧ t.env.schedule = after ∧ ProgramAligned t.env.program ∧
      SameTransmission s t :=
  run_of_schedule hsched hal ⟨hw, rfl, rfl, rfl⟩ fun _ _ hu hmem => hu.step fun hturn => htxp (hturn ▸ hmem)

end Sys2Proof.Machine

open Sys2Proof.Machine

/-- Settles O56: no turn before the ENGINE's changes the pending command or what it is executed on. -/
theorem pendingCommandExecutes : Obligations.PendingCommandExecutes := by
  intro s before after hsched hengine hp hal
  obtain ⟨s', hrun, hlater, hal', hsame⟩ := run_of_schedule (P := SamePending s) hsched hal ⟨hp, rfl, rfl, rfl, rfl⟩
    fun _ _ hu hmem => hu.step fun hturn => hengine (hturn ▸ hmem)
  obtain ⟨hp', hpend, hregs, hbuf, hcap⟩ := hsame
  have hturn : turn s' = .engine := turn_of_schedule hlater
  obtain ⟨t, ht⟩ := step_of_programAligned hal'
  have hmove : engineStep (spendTurn s') = .next t := by rwa [step, hturn] at ht
  refine ⟨s', t, hrun, hp', hpend, hregs, hbuf, hcap, hturn, ht, ?phase, fun i hdec => ?executes⟩
  case phase =>
    obtain ⟨hi, _⟩ | hw := engineStep_of_pending ((spendTurn_phase _).trans hp') hmove
    · simp [hi]
    · simp [hw]
  case executes =>
    rwa [engineStep_pending (by rwa [spendTurn_phase]) (by rwa [spendTurn_pend, hpend])] at hmove

/-- Settles O57: the transmission goes on until TXP's turn, which completes it. -/
theorem transmissionEnds : Obligations.TransmissionEnds := by
  intro s before after hsched htxp hw hal
  obtain ⟨t, hrun, hlater, _, hw', hslot, hresult, hlog⟩ := run_of_txwait hsched htxp hw hal
  have hend : step t = .next _ := (step_of_schedule hlater).trans (txpStep_of_txwait hw')
  exact ⟨_, run_succ_of_run hrun hend, rfl, rfl, rfl, rfl, hresult, rfl, hlog⟩

/-- Settles O58: every turn of the schedule leaves the transmission as it is. -/
theorem transmissionCanHang : Obligations.TransmissionCanHang := by
  intro s sched hw hal hsched htxp
  obtain ⟨t, hrun, _, _, hw', hslot, _⟩ := run_of_txwait (after := []) (by rw [hsched, List.append_nil]) htxp hw hal
  exact ⟨t, hrun, hw', hslot⟩

end

section
/-! PROOF. The statement of 70_reset_and_hazards.md on the end of a run (R254): a run takes the machine's steps as far as the first
state in which both conditions hold. -/

namespace Sys2Proof.Machine

/-- The run from `s` ends after `k` steps, in `t`, and no earlier. -/
def EndsFirstIn (k : Nat) (s t : State) : Prop :=
  Host.Core.run core k s = .next t ∧ t.runEnded = true ∧
    ∀ (j : Nat) (u : State), j < k → Host.Core.run core j s = .next u → u.runEnded = false

section EndsFirstIn

variable {k n : Nat} {s t o : State}

theorem endsFirstIn_zero (h : s.runEnded = true) : EndsFirstIn 0 s s :=
  ⟨rfl, h, fun _ _ hj => absurd hj (Nat.not_lt_zero _)⟩

theorem endsFirstIn_succ_iff :
    EndsFirstIn (k + 1) s t ↔ s.runEnded = false ∧ ∃ u, step s = .next u ∧ EndsFirstIn k u t := by
  constructor
  · rintro ⟨hrun, hend, hfirst⟩
    obtain ⟨u, hu, hrest⟩ := step_of_run_succ hrun
    exact ⟨hfirst 0 s (Nat.succ_pos k) rfl, u, hu, hrest, hend, fun j v hj hv =>
      hfirst (j + 1) v (Nat.succ_lt_succ hj) ((run_succ_of_step hu j).trans hv)⟩
  · rintro ⟨hs, u, hu, hrun, hend, hfirst⟩
    refine ⟨(run_succ_of_step hu k).trans hrun, hend, fun j v hj hv => ?_⟩
    cases j with
    | zero =>
      cases hv
      exact hs
    | succ j => exact hfirst j v (Nat.lt_of_succ_lt_succ hj) ((run_succ_of_step hu j).symm.trans hv)

theorem runWithin_of_endsFirstIn (h : EndsFirstIn k s t) (hk : k ≤ n) : runWithin n s = .ended t.record := by
  induction k generalizing s n with
  | zero =>
    obtain ⟨hrun, hend, _⟩ := h
    cases hrun
    exact runWithin_of_runEnded hend n
  | succ k ih =>
    obtain ⟨hs, u, hu, hrest⟩ := endsFirstIn_succ_iff.mp h
    obtain ⟨m, rfl⟩ : ∃ m, n = m + 1 := ⟨n - 1, by omega⟩
    exact (runWithin_succ_of_step hs hu m).trans (ih hrest (by omega))

theorem step_of_runWithin_succ (hs : s.runEnded = false) (h : runWithin (n + 1) s = .ended o) :
    ∃ u, step s = .next u ∧ runWithin n u = .ended o := by
  obtain ⟨_, htotal⟩ := onlyMisalignedAccessStops
  obtain ⟨u, hu⟩ | ⟨off, hstop⟩ := htotal s
  · exact ⟨u, hu, (runWithin_succ_of_step hs hu n).symm.trans h⟩
  · simp [runWithin, hs, hstop] at h

theorem endsFirstIn_of_runWithin (h : runWithin n s = .ended o) : ∃ k t, k ≤ n ∧ EndsFirstIn k s t ∧ o = t.record := by
  induction n generalizing s <;> cases hs : s.runEnded
  case zero.false => cases (runWithin_zero_of_not_runEnded hs).symm.trans h
  case succ.false n ih =>
    obtain ⟨u, hu, hrest⟩ := step_of_runWithin_succ hs h
    obtain ⟨k, t, hk, hends, ho⟩ := ih hrest
    exact ⟨k + 1, t, Nat.succ_le_succ hk, endsFirstIn_succ_iff.mpr ⟨hs, u, hu, hends⟩, ho⟩
  all_goals
    cases (runWithin_of_runEnded hs _).symm.trans h
    exact ⟨0, s, Nat.zero_le _, endsFirstIn_zero hs, rfl⟩

end EndsFirstIn

end Sys2Proof.Machine

open Sys2Proof.Machine

/-- Settles O60: the run's end is the first state that meets both conditions, and its record is what is observed. -/
theorem runEndsAtFirstEnd : Obligations.RunEndsAtFirstEnd := by
  intro n s o
  constructor
  · intro h
    obtain ⟨k, t, hk, ⟨hrun, hend, hfirst⟩, ho⟩ := endsFirstIn_of_runWithin h
    obtain ⟨hprog, hidle⟩ := runEnded_iff.mp hend
    exact ⟨k, t, hk, hrun, hprog, hidle, ho, fun j u hj hu hended => by
      rw [← runEnded_iff, hfirst j u hj hu] at hended
      cases hended⟩
  · rintro ⟨k, t, hk, hrun, hprog, hidle, rfl, hfirst⟩
    have hends : EndsFirstIn k s t := ⟨hrun, runEnded_iff.mpr ⟨hprog, hidle⟩, fun j u hj hu =>
      Bool.eq_false_of_not_eq_true (mt runEnded_iff.mp (hfirst j u hj hu))⟩
    exact runWithin_of_endsFirstIn hends hk

end

section
/-! PROOF. The statement of 70_reset_and_hazards.md on fairness (R255): under rounds a run ends whose host waits for nothing that
cannot come. The measure counts the work left, three turns that move for each operation of the host, and those that the engine
phase still asks for; the phase names the one agent whose turn lowers it, and every round holds a turn of that agent. -/

namespace Sys2Proof.Machine

open Sys2Proof.Claims

/-! The measure, and the agent that lowers it. -/

/-- The turns that bring a phase to IDLE: the ENGINE's and TXP's from PENDING, TXP's from TXWAIT. -/
def Phase.turnsLeft : Phase → Nat
  | .idle => 0
  | .pending => 2
  | .txwait => 1

/-- The agent whose turn moves on from a phase. -/
def Phase.awaits : Phase → Agent
  | .idle => .host
  | .pending => .engine
  | .txwait => .txp

/-- The work left of a run. An operation counts as three turns, one more than what an accepted command adds. -/
def workLeft (s : State) : Nat :=
  3 * s.env.program.length + s.phase.turnsLeft

theorem Phase.turnsLeft_le_two (p : Phase) : p.turnsLeft ≤ 2 := by
  cases p <;> decide

theorem Phase.turnsLeft_eq_zero_iff {p : Phase} : p.turnsLeft = 0 ↔ p = .idle := by
  cases p <;> decide

theorem runEnded_of_workLeft_eq_zero {s : State} (h : workLeft s = 0) : s.runEnded = true := by
  rw [workLeft, Nat.add_eq_zero_iff] at h
  obtain ⟨hprog, hphase⟩ := h
  exact runEnded_iff.mpr ⟨List.length_eq_zero_iff.mp (by omega), Phase.turnsLeft_eq_zero_iff.mp hphase⟩

theorem Phase.awaits_injective : Function.Injective Phase.awaits := by
  intro p q
  cases p <;> cases q <;> decide

theorem awaits_mem_of_isRound {r : List Agent} (h : IsRound r) (p : Phase) : p.awaits ∈ r := by
  obtain ⟨hhost, hengine, htxp⟩ := h
  cases p with
  | idle => exact hhost
  | pending => exact hengine
  | txwait => exact htxp

/-! The waits of a program that ends: with more known of the block before it, it still ends. -/

theorem waitsEnd_mono {p : List HostOp} {i q e i' q' e' : Bool} (h : WaitsEnd i q e p) (hi : i = true → i' = true)
    (hq : q = true → q' = true) (he : e = true → e' = true) : WaitsEnd i' q' e' p := by
  induction p generalizing i q e i' q' e' with
  | nil => trivial
  | cons op rest ih =>
    cases op with
    | read off =>
      obtain ⟨hoff, hrest⟩ := h
      exact ⟨hoff, ih hrest hi hq he⟩
    | write off v =>
      obtain ⟨hoff, hrest⟩ := h
      refine ⟨hoff, ih hrest ?_ ?_ ?_⟩
      · simp only [Bool.and_eq_true]
        exact And.imp_left hi
      · simp only [Bool.or_eq_true, Bool.and_eq_true]
        exact Or.imp_right fun ⟨⟨hissued, h1⟩, h2⟩ => ⟨⟨hq hissued, h1⟩, h2⟩
      · split
        · simp only [Bool.or_eq_true, Bool.and_eq_true]
          exact And.imp_left (And.imp_left (Or.imp hi he))
        · exact he
    | poll mask want =>
      obtain ⟨hmask, hwant, hrest⟩ | ⟨hmask, hwant, hissued, hrest⟩ := h
      · exact .inl ⟨hmask, hwant, ih hrest id hq he⟩
      · exact .inr ⟨hmask, hwant, hq hissued, ih hrest hi hq he⟩
    | waitIrq =>
      obtain ⟨hissued, henabled, hrest⟩ := h
      exact ⟨hq hissued, he henabled, ih hrest hi hq he⟩

/-- The waits of the operations `p` end if the block is as in `s` before them. -/
def WaitsEndFrom (s : State) (p : List HostOp) : Prop :=
  WaitsEnd (decide (s.phase = .idle)) (s.done || decide (s.phase ≠ .idle)) s.regs.ieDone p

theorem waitsEndFrom_mono {s : State} {p : List HostOp} {i q e : Bool} (h : WaitsEnd i q e p)
    (hidle : i = true → s.phase = .idle) (hissued : q = true → s.done = true ∨ s.phase ≠ .idle)
    (henabled : e = true → s.regs.ieDone = true) : WaitsEndFrom s p :=
  waitsEnd_mono h (fun hi => by simp [hidle hi]) (fun hq => by simpa using hissued hq) henabled

theorem programEnds_of_waitsEndFrom {s : State} {p : List HostOp} (hprog : s.env.program = p) (h : WaitsEndFrom s p) :
    ProgramEnds s := by
  rw [ProgramEnds, hprog]
  exact h

/-! What a turn does to a run whose waits end. -/

/-- A turn of `a` from `s` to `t`: the waits still end, and less work is left, or the turn was not that of the agent awaited and what
the phase and the host's program are stays. -/
def GoesOn (a : Agent) (s t : State) : Prop :=
  ProgramEnds t ∧
    (workLeft t < workLeft s ∨ (t.phase = s.phase ∧ t.env.program = s.env.program ∧ a ≠ s.phase.awaits))

section Turn

variable {s t : State}

/-- A turn that passes. -/
theorem GoesOn.passes {a : Agent} (h : ProgramEnds s) (ha : a ≠ s.phase.awaits) : GoesOn a s s :=
  ⟨h, .inr ⟨rfl, rfl, ha⟩⟩

/-- A command that ends its step, or a transmission that ends. -/
theorem GoesOn.advances {a : Agent} (h : ProgramEnds s) (hbusy : s.phase ≠ .idle) (hprog : t.env.program = s.env.program)
    (hregs : t.regs = s.regs) (hless : t.phase.turnsLeft < s.phase.turnsLeft) (hended : t.phase = .idle → t.done = true) :
    GoesOn a s t := by
  have hwork : workLeft t < workLeft s := by
    rw [workLeft, workLeft, hprog]
    omega
  refine ⟨programEnds_of_waitsEndFrom hprog ?_, .inl hwork⟩
  refine waitsEndFrom_mono h (fun hi => absurd (of_decide_eq_true hi) hbusy) (fun _ => ?_) (hregs ▸ id)
  by_cases hi : t.phase = .idle
  · exact .inl (hended hi)
  · exact .inr hi

/-! The host's turn: its operation is performed, or waits. -/

/-- The next operation is performed: whatever PHASE is then, the work left is less. -/
theorem GoesOn.performs {op : HostOp} {rest : List HostOp} (hp : s.env.program = op :: rest)
    (hprog : t.env.program = rest) (h : WaitsEndFrom t rest) (hphase : t.phase = s.phase ∨ s.phase = .idle) :
    GoesOn .host s t := by
  have hless : workLeft t < workLeft s := by
    rw [workLeft, workLeft, hprog, hp, List.length_cons]
    have htwo := t.phase.turnsLeft_le_two
    obtain hsame | hidle := hphase
    · rw [hsame]
      omega
    · omega
  exact ⟨programEnds_of_waitsEndFrom hprog h, .inl hless⟩

/-- A wait goes on: the agent awaited is another. -/
theorem GoesOn.waits {e : Env} (h : ProgramEnds s) (hbusy : s.phase ≠ .idle) (hprog : e.program = s.env.program) :
    GoesOn .host s { s with env := e } :=
  ⟨programEnds_of_waitsEndFrom hprog h, .inr ⟨rfl, hprog, fun heq => hbusy (Phase.awaits_injective heq.symm)⟩⟩

theorem status_and_one_eq_zero_iff : s.status &&& 1 = 0 ↔ s.phase = .idle := by
  have hmask : (1 : Word) = BitVec.twoPow 32 0 := rfl
  rw [hmask, BitVec.and_twoPow, status_getLsbD_busy, ← not_iff_not, ← ne_eq s.phase, ← busy_iff]
  cases s.busy <;> decide

theorem status_and_two_eq_two_iff : s.status &&& 2 = 2 ↔ s.done = true := by
  have hmask : (2 : Word) = BitVec.twoPow 32 1 := rfl
  rw [hmask, BitVec.and_twoPow, status_getLsbD_done]
  cases s.done <;> decide

section Write

variable {off : Offset} {v : Word}

theorem busWrite_phase (h8 : off ≠ 0x0008) : (busWrite s off v).phase = s.phase := by
  by_contra hne
  obtain ⟨_, hcmd, _⟩ := busWrite_of_phase_ne hne
  exact h8 hcmd

theorem busWrite_phase_eq_or_idle : (busWrite s off v).phase = s.phase ∨ s.phase = .idle := by
  by_cases hi : s.phase = .idle
  · exact .inr hi
  · obtain ⟨_, _, _, hw⟩ := busWrite_of_busy hi off v
    exact .inl (by rw [hw])

/-- After a CMD write a command is in progress: the one accepted, or the one for whose sake the write was dropped. -/
theorem busWrite_cmd_phase : (busWrite s 0x0008 v).phase ≠ .idle := by
  by_cases hi : s.phase = .idle
  · rw [busWrite_reg v hi (target_cmd.mpr rfl), writeReg]
    simp
  · obtain ⟨_, _, _, hw⟩ := busWrite_of_busy hi 0x0008 v
    rw [hw]
    exact hi

/-- DONE is cleared by a 1 in bit 1 of STATUS, an accepted command or a soft reset, and by no other write. -/
theorem busWrite_done (h8 : off ≠ 0x0008) (h4 : off = 0x0004 → v.getLsbD 1 = false)
    (h0 : off = 0x0000 → v.getLsbD 0 = false) (hd : s.done = true) : (busWrite s off v).done = true := by
  rcases busWrite_cases s off v with ⟨hoff, hw⟩ | ⟨_, _, hw⟩ | ⟨hoff, _, hw⟩ <;> rw [hw]
  · rw [writeStatus, h4 hoff, hd]
    rfl
  · exact hd
  · rcases writeTarget_cases s v off hoff with ⟨hcmd, _⟩ | ⟨hctrl, hv, _⟩ | ⟨_, _, hx⟩ | ⟨_, _, hx⟩ | ⟨_, hx⟩
    · exact absurd hcmd h8
    · cases (h0 hctrl).symm.trans hv
    all_goals
      rw [hx]
      exact hd

/-- IE_DONE is a field of CTRL alone. -/
theorem busWrite_ieDone (h0 : off ≠ 0x0000) : (busWrite s off v).regs.ieDone = s.regs.ieDone := by
  rcases busWrite_cases s off v with ⟨_, hw⟩ | ⟨_, _, hw⟩ | ⟨_, _, hw⟩
  · exact congrArg (fun t => t.regs.ieDone) hw
  · exact congrArg (fun t => t.regs.ieDone) hw
  · rw [hw]
    cases ht : target off with
    | reg r =>
      cases r
      case ctrl => exact absurd (target_ctrl.mp ht) h0
      all_goals rfl
    | _ => rfl

/-- A CTRL write that sets IE_DONE: it takes effect while idle, and is dropped while busy. -/
theorem busWrite_ctrl_ieDone (h2 : v.getLsbD 2 = true) (h0 : v.getLsbD 0 = false)
    (h : s.phase = .idle ∨ s.regs.ieDone = true) : (busWrite s 0x0000 v).regs.ieDone = true := by
  by_cases hi : s.phase = .idle
  · rw [busWrite_reg v hi (target_ctrl.mpr rfl), writeReg_ctrl s h0]
    exact h2
  · obtain ⟨_, _, _, hw⟩ := busWrite_of_busy hi 0x0000 v
    rw [hw]
    exact h.resolve_left hi

theorem waitsEndFrom_busWrite {rest : List HostOp} (h : WaitsEndFrom s (.write off v :: rest)) :
    WaitsEndFrom (busWrite s off v) rest := by
  obtain ⟨_, hrest⟩ := h
  refine waitsEndFrom_mono hrest (fun hidle => ?idle) (fun hissued => ?issued) (fun henabled => ?enabled)
  case idle =>
    simp only [Bool.and_eq_true, decide_eq_true_eq, bne_iff_ne] at hidle
    obtain ⟨hi, h8⟩ := hidle
    rw [busWrite_phase h8, hi]
  case issued =>
    by_cases h8 : off = 0x0008
    · exact .inr (h8 ▸ busWrite_cmd_phase)
    · simp only [Bool.or_eq_true, beq_iff_eq, h8, false_or, Bool.and_eq_true, decide_eq_true_eq, Bool.not_eq_true',
        Bool.and_eq_false_imp] at hissued
      obtain ⟨⟨hdone | hbusy, h4⟩, h0⟩ := hissued
      · exact .inl (busWrite_done h8 h4 h0 hdone)
      · exact .inr (by rwa [busWrite_phase h8])
  case enabled =>
    split at henabled
    · rename_i h0
      simp only [Bool.and_eq_true, Bool.or_eq_true, decide_eq_true_eq, Bool.not_eq_true'] at henabled
      obtain ⟨⟨hbefore, h2⟩, hsrst⟩ := henabled
      exact h0 ▸ busWrite_ctrl_ieDone h2 hsrst hbefore
    · rename_i h0
      rwa [busWrite_ieDone h0]

end Write

/-! The turn of each agent. -/

theorem goesOn_host (h : ProgramEnds s) (hrun : s.runEnded = false) : ∃ t, hostStep s = .next t ∧ GoesOn .host s t := by
  cases hp : s.env.program with
  | nil =>
    have hbusy : s.phase ≠ .idle := fun hi => by cases hrun.symm.trans (runEnded_iff.mpr ⟨hp, hi⟩)
    exact ⟨s, hostStep_of_program_nil hp, .waits h hbusy rfl⟩
  | cons op rest =>
    have hfrom : WaitsEndFrom s (op :: rest) := hp ▸ h
    cases op with
    | write off v =>
      have hwrite := waitsEndFrom_busWrite (s := setProgram s rest) hfrom
      obtain ⟨haligned, _⟩ := hfrom
      exact ⟨_, hostStep_write hp haligned, .performs hp (by rw [busWrite_env]; rfl) hwrite busWrite_phase_eq_or_idle⟩
    | read off =>
      obtain ⟨haligned, hrest⟩ := hfrom
      exact ⟨_, hostStep_read hp haligned, .performs hp rfl hrest (.inl rfl)⟩
    | poll mask want =>
      refine ⟨_, hostStep_poll hp, ?_⟩
      obtain ⟨rfl, rfl, hrest⟩ | ⟨rfl, rfl, hissued, hrest⟩ := hfrom
      · split
        · rename_i hpass
          have hi : s.phase = .idle := status_and_one_eq_zero_iff.mp hpass
          exact .performs hp rfl (waitsEndFrom_mono hrest (fun _ => hi) (by simp) id) (.inl rfl)
        · rename_i hpass
          exact .waits h (mt status_and_one_eq_zero_iff.mpr hpass) rfl
      · split
        · exact .performs hp rfl hrest (.inl rfl)
        · rename_i hpass
          have hdone : ¬s.done = true := mt status_and_two_eq_two_iff.mpr hpass
          exact .waits h (by simpa [hdone] using hissued) rfl
    | waitIrq =>
      obtain ⟨hissued, henabled, hrest⟩ := hfrom
      refine ⟨_, hostStep_waitIrq hp, ?_⟩
      split
      · exact .performs hp rfl hrest (.inl rfl)
      · rename_i hirq
        have hdone : ¬s.done = true := fun hd => hirq (by simp [State.irq, hd, henabled])
        exact .waits h (by simpa [hdone] using hissued) rfl

theorem goesOn_engine (h : ProgramEnds s) : ∃ t, engineStep s = .next t ∧ GoesOn .engine s t := by
  by_cases hp : s.phase = .pending
  · obtain ⟨t, ht⟩ := engineStep_total s
    obtain ⟨hregs, _, _, _, _, henv⟩ := engineStep_sameOutsideCommand ht
    refine ⟨t, ht, .advances h (by simp [hp]) (by rw [henv]) hregs ?_ ?_⟩ <;>
      obtain ⟨hi, hdone⟩ | hw := engineStep_of_pending hp ht
    · rw [hp, hi]
      decide
    · rw [hp, hw]
      decide
    · exact fun _ => hdone
    · exact fun hi => by cases hw.symm.trans hi
  · exact ⟨s, engineStep_of_not_pending hp, .passes h fun heq => hp (Phase.awaits_injective heq.symm)⟩

theorem goesOn_txp (h : ProgramEnds s) : ∃ t, txpStep s = .next t ∧ GoesOn .txp s t := by
  by_cases hw : s.phase = .txwait
  · refine ⟨_, txpStep_of_txwait hw, .advances h (by simp [hw]) rfl rfl ?_ fun _ => rfl⟩
    rw [complete_phase, hw]
    decide
  · exact ⟨s, txpStep_of_not_txwait hw, .passes h fun heq => hw (Phase.awaits_injective heq.symm)⟩

theorem goesOn_capp (h : ProgramEnds s) : ∃ t, cappStep s = .next t ∧ GoesOn .capp s t := by
  obtain ⟨t, ht⟩ := cappStep_total s
  refine ⟨t, ht, ?_, .inr ⟨cappStep_phase ht, ?_, ?_⟩⟩
  · rcases cappStep_cases ht with ⟨rfl, _⟩ | ⟨_, _, _, _, rfl⟩ <;> exact h
  · rcases cappStep_cases ht with ⟨rfl, _⟩ | ⟨_, _, _, _, rfl⟩ <;> rfl
  · cases s.phase <;> decide

end Turn

/-! The turns of a stretch of the schedule, and of all its rounds. -/

theorem goesOn_of_schedule {s : State} {a : Agent} {later : List Agent} (h : ProgramEnds s) (hrun : s.runEnded = false)
    (hsched : s.env.schedule = a :: later) : ∃ t, step s = .next t ∧ t.env.schedule = later ∧ GoesOn a s t := by
  have hagent : ∃ t, agentStep a { s with env := { s.env with schedule := later } } = .next t ∧
      GoesOn a { s with env := { s.env with schedule := later } } t := by
    cases a with
    | host => exact goesOn_host h hrun
    | engine => exact goesOn_engine h
    | txp => exact goesOn_txp h
    | capp => exact goesOn_capp h
  obtain ⟨t, ht, hon⟩ := hagent
  have hs : step s = .next t := (step_of_schedule hsched).trans ht
  exact ⟨t, hs, schedule_of_step hsched hs, hon⟩

/-- A stretch of the schedule that names the agent awaited lowers the work left, or the run ends in it. -/
theorem runWithin_ended_of_stretch {later : List Agent} {n : Nat}
    (hlater : ∀ t : State, t.env.schedule = later → ProgramEnds t → workLeft t ≤ n →
      ∃ o, runWithin later.length t = .ended o)
    {l : List Agent} {s : State} (hsched : s.env.schedule = l ++ later) (h : ProgramEnds s) (hwork : workLeft s ≤ n + 1)
    (hawaits : workLeft s = n + 1 → s.phase.awaits ∈ l) : ∃ o, runWithin (l ++ later).length s = .ended o := by
  induction l generalizing s with
  | nil =>
    have hless : workLeft s ≠ n + 1 := fun heq => by cases hawaits heq
    exact hlater s hsched h (by omega)
  | cons a l ih =>
    cases hrun : s.runEnded with
    | true => exact ⟨_, runWithin_of_runEnded hrun _⟩
    | false =>
      obtain ⟨t, hs, hsched', hends, hmove⟩ := goesOn_of_schedule h hrun hsched
      rw [List.cons_append, List.length_cons, runWithin_succ_of_step hrun hs]
      obtain hless | ⟨hphase, hprog, hother⟩ := hmove
      · exact ih hsched' hends (by omega) (by omega)
      · have hsame : workLeft t = workLeft s := by rw [workLeft, workLeft, hprog, hphase]
        refine ih hsched' hends (by omega) fun heq => ?_
        rw [hphase]
        exact (List.mem_cons.mp (hawaits (by omega))).resolve_left hother.symm

theorem runWithin_ended_of_rounds {rounds : List (List Agent)} (hrounds : ∀ r ∈ rounds, IsRound r) {s : State}
    (hsched : s.env.schedule = rounds.flatten) (h : ProgramEnds s) (hwork : workLeft s ≤ rounds.length) :
    ∃ o, runWithin rounds.flatten.length s = .ended o := by
  induction rounds generalizing s with
  | nil => exact ⟨_, runWithin_of_runEnded (runEnded_of_workLeft_eq_zero (by simpa using hwork)) _⟩
  | cons r rounds ih =>
    obtain ⟨hr, hrest⟩ := List.forall_mem_cons.mp hrounds
    exact runWithin_ended_of_stretch (fun t hsched h hwork => ih hrest hsched h hwork) hsched h hwork
      fun _ => awaits_mem_of_isRound hr s.phase

end Sys2Proof.Machine

open Sys2Proof.Machine

/-- Settles O59: the work left is at most three turns for each operation and two more, and each round lowers it. -/
theorem fairRunEnds : Obligations.FairRunEnds := by
  intro s rounds h hsched hrounds hlength
  have htwo := s.phase.turnsLeft_le_two
  have hwork : workLeft s ≤ rounds.length := by
    rw [workLeft]
    omega
  rw [hsched]
  exact runWithin_ended_of_rounds hrounds hsched h hwork

end

section
/-! PROOF. The statements of 70_reset_and_hazards.md on the two resets: the state after power-on (R240) and the soft reset (R242). -/

namespace Sys2Proof.Machine

/-- R52: after power-on CTRL reads its GAPEND bit, FRAMING its MARKFIRST bit, and every other register 0. -/
theorem readReg_reset (r : Reg) : readReg State.reset r = if r = .ctrl then 2 else if r = .framing then 1 else 0 := by
  cases r <;> rfl

theorem target_framing {off : Offset} : target off = .reg .framing ↔ off = 0x0038 := by
  rw [target_reg, ← BitVec.toNat_inj]
  exact ⟨fun h => regAt_injective h rfl, fun h => h ▸ rfl⟩

/-- R23: the windows of BUF and CAP lie above the registers. -/
theorem target_of_low {off : Offset} (h : off.toNat < 0x0100) : (∃ r, target off = .reg r) ∨ target off = .reserved := by
  rw [target, if_neg (by omega), if_neg (by omega)]
  cases regAt off.toNat with
  | none => exact .inr rfl
  | some r => exact .inl ⟨r, rfl⟩

theorem busRead_reset {off : Offset} (h : off.toNat < 0x0100) :
    busRead State.reset off = if off = 0x0000 then 2 else if off = 0x0038 then 1 else 0 := by
  simp only [← target_ctrl, ← target_framing]
  obtain ⟨r, ht⟩ | ht := target_of_low h
  · simp [busRead_reg ht, readReg_reset, ht]
  · simp [busRead, ht]

/-- R242: while idle, where nothing is in transmission, the soft reset is power-on but for the RAMs, the TX port's record and what
stands outside the block. -/
theorem softReset_eq {s : State} (h : s.phase = .idle) :
    softReset s = { State.reset with
      buf := s.buf, cap := s.cap, txslot := s.txslot, txlog := s.txlog, env := s.env } := by
  rw [softReset, h]
  rfl

end Sys2Proof.Machine

open Sys2Proof.Machine

/-- Settles O45: with SRST the write is a soft reset, and while busy it is dropped like any other. -/
theorem softResetEffect : Obligations.SoftResetEffect := by
  refine ⟨fun s v hi hsrst => ?reset, fun s v hbusy => ?dropped⟩
  case reset => rw [busWrite_reg v hi (target_ctrl.mpr rfl), writeReg, writeCtrl, if_pos hsrst, softReset_eq hi]
  case dropped =>
    obtain ⟨hdropped, _⟩ := busyWriteDropped
    exact hdropped s 0x0000 v hbusy (by decide)

/-- Settles O46: what each offset below the BUF window reads as, the hidden state, and a draw in each place that nothing has
written. -/
theorem powerOnState : Obligations.PowerOnState :=
  ⟨fun _ _ => busRead_reset, rfl, rfl, rfl, rfl, rfl, rfl, fun _ => rfl, fun _ => rfl⟩

end
